-- ==== Sys2Proof/Word.lean ====
section
/-! DEFINITION. The two word types of the core: the byte every datum of the stream is (R10, R53) and the
32-bit host register word (R21, R22, R24, R25). -/

namespace Sys2Proof

/-- A byte: 8 bits, bit 0 the least significant (R10). -/
abbrev Byte := BitVec 8

/-- A 32-bit host register word (R21, R22, R24, R25). -/
abbrev Word32 := BitVec 32

end Sys2Proof
end

