-- ==== Sys2Proof/Config.lean ====
section
/-! DEFINITION. The constants the source fixes (R8), the parameters it leaves to the implementation with
the value the spec takes (R9, D3, D4, D12, D17), what an unlisted byte reads as, and the free values. -/

namespace Sys2Proof

/-- CODE_ORDER (R80, D3): which end of a code byte holds the first code. -/
inductive CodeOrder where
  | msbFirst
  | lsbFirst
deriving DecidableEq, Repr

/-- INPUT_END (R175, D4): where the input slice the margin test measures against ends. -/
inductive InputEnd where
  /-- `END = N`, the end of the buffer. -/
  | bufferEnd
  /-- `END = N-1-S`, the start of the trailer: the value the spec does not take. -/
  | trailerStart
deriving DecidableEq, Repr

namespace Config

/-- TAG (R8, R173). -/
@[simp] abbrev tag : Byte := 0xA0#8
/-- GROUP: values per group (R8). -/
@[simp] abbrev group : Nat := 16
/-- MAXBLOCK: vertices per block at most (R8, R176); also the cells of `plane` (R28). -/
@[simp] abbrev maxBlock : Nat := 256
/-- BLOCKBYTES: bytes of a block at most (R8, R176); also the cells of `tr` (R29). -/
@[simp] abbrev blockBytes : Nat := 8192
/-- TAILMAX, the margin (R8, R124). -/
@[simp] abbrev tailMax : Nat := 32
/-- SMAX, the largest stride (R8, R171); also the cells of `lastVertex` (R27). -/
@[simp] abbrev strideMax : Nat := 256
/-- SMULT: a stride is a multiple of it (R8, R171). -/
@[simp] abbrev strideMult : Nat := 4

/-- CODE_ORDER has the value `msb_first`.
PRESUMED (general knowledge by the spec's own word, 93 G1), unsafe: log 8. -/
@[simp] abbrev codeOrder : CodeOrder := .msbFirst
/-- INPUT_END has the value `N` (R175, D4). DESIGN CHOICE of the spec, unsafe: log 9. -/
@[simp] abbrev inputEnd : InputEnd := .bufferEnd
/-- TRAILER_GAP has the value 1 (R57, R174, D17). DESIGN CHOICE of the spec, unsafe: log 10. -/
@[simp] abbrev trailerGap : Nat := 1
/-- ADDR_W is open: `none` means natural numbers without a bound (R9, D12). DESIGN CHOICE, unsafe: log 11. -/
@[simp] abbrev addrW : Option Nat := none

/-- What an unlisted byte of IN and an unlisted cell of a working array reads as.
DESIGN CHOICE, unsafe: log 3 and log 5. -/
@[simp] abbrev unlistedByte : Byte := 0#8

/-- The free value a host reads from an OUT byte that has no value (R199, U2 `any value`): draw number, then
offset. It has no body, so nothing can be proved about what it is (log 7). -/
opaque freeOutByte : Nat → Nat → Byte

end Config

end Sys2Proof
end

