-- ==== Sys2Proof/Syntax.lean ====
section
/-! DEFINITION. The syntax: one constructor of `Instr` per row of the opcode table (R89), and the stream
notation of R90 as data (lanes, groups, planes, frames). -/

namespace Sys2Proof

/-- One constructor per row of `spec/opcode_table.json`. -/
inductive Instr where
  /-- FRAME.TAG: byte 0 of the buffer (R173). -/
  | frameTag
  /-- GRP.ZERO: selector 00 (R101). -/
  | grpZero
  /-- GRP.PACK2: selector 01 (R102). -/
  | grpPack2
  /-- GRP.PACK4: selector 10 (R103). -/
  | grpPack4
  /-- GRP.RAW: selector 11 (R104). -/
  | grpRaw
  /-- C2.LIT: a 2-bit code other than 3; the code is the operand (R105). -/
  | c2Lit (v : BitVec 2)
  /-- C2.ESC: the 2-bit code 3 (R106). -/
  | c2Esc
  /-- C4.LIT: a 4-bit code other than 15; the code is the operand (R105). -/
  | c4Lit (v : BitVec 4)
  /-- C4.ESC: the 4-bit code 15 (R106). -/
  | c4Esc
  /-- PLANE: one byte plane, selected by position (R120). -/
  | plane
  /-- UNZIGZAG: the zig-zag inverse of one plane value (R140). -/
  | unzigzag
  /-- DELTA: the chain reversal of one plane (R142). -/
  | delta
  /-- TRANSPOSE: the transposed write of one value (R154). -/
  | transpose
  /-- COMMIT: the copy of a block to OUT (R155). -/
  | commit
  /-- BLOCK: one block, selected by position (R150). -/
  | block
  /-- DECODE: the host command, a write of 1 to CTRL.START (R170, R91). -/
  | decode
deriving DecidableEq, Repr

/-- The width of the codes of a packed group, 2 or 4 bits (R80). -/
inductive CodeWidth where
  | two
  | four
deriving DecidableEq, Repr

/-- Bits per code, `b` of R80. -/
@[simp] def CodeWidth.bits : CodeWidth → Nat
  | .two => 2
  | .four => 4

/-- One lane of a packed group in the notation of R90: a literal code, or an escape with its literal byte. -/
inductive LaneNote where
  | lit (code : Nat)
  | esc (byte : Byte)
deriving DecidableEq, Repr

/-- One group in the notation of R90: `Z`, `P2(…)`, `P4(…)`, `RAW(…)`. -/
inductive GroupNote where
  | zero
  | packed (b : CodeWidth) (lanes : List LaneNote)
  | raw (bytes : List Byte)
deriving DecidableEq, Repr

/-- One plane in the notation of R90: its groups, and the byte the unused selector fields of its last header
byte are taken from (`hdr!XX`; 00 when not given). -/
structure PlaneNote where
  groups : List GroupNote
  spare : Byte := 0
deriving DecidableEq, Repr

/-- One encoded buffer in the notation of R90. -/
structure FrameNote where
  blocks : List (List PlaneNote)
  filler : List Byte
  trailer : List Byte
  last : Byte
deriving DecidableEq, Repr

end Sys2Proof
end

