-- ==== Sys2Proof/WellFormed.lean ====
section
/-! DEFINITION. Which terms of the syntax stand for something the stream can hold. -/

namespace Sys2Proof

/-- A literal code is not the sentinel of its width (R81, R105). -/
def Instr.wellFormed : Instr → Bool
  | .c2Lit v => v != 3#2
  | .c4Lit v => v != 15#4
  | .frameTag | .grpZero | .grpPack2 | .grpPack4 | .grpRaw | .c2Esc | .c4Esc | .plane | .unzigzag
  | .delta | .transpose | .commit | .block | .decode => true

/-- A literal lane's code is below the sentinel `2^b - 1` (R81). -/
def LaneNote.wellFormed (b : CodeWidth) : LaneNote → Bool
  | .lit code => decide (code < 2 ^ b.bits - 1)
  | .esc _ => true

/-- A packed group has sixteen lanes and a raw group sixteen bytes (R77 to R79). -/
def GroupNote.wellFormed : GroupNote → Bool
  | .zero => true
  | .packed b lanes => lanes.length == Config.group && lanes.all (LaneNote.wellFormed b)
  | .raw bytes => bytes.length == Config.group

/-- A plane has 1 to 16 well-formed groups (R73). -/
def PlaneNote.wellFormed (n : PlaneNote) : Bool :=
  decide (1 ≤ n.groups.length) && decide (n.groups.length ≤ 16) && n.groups.all GroupNote.wellFormed

end Sys2Proof
end

