-- ==== Sys2Proof/Decode.lean ====
section
/-! DEFINITION. The decoder: the fields of header and code bytes (R74, R80), and the instruction a unit's bits
stand for at their position; then the encoder, down to the bytes of a whole buffer in the notation of R90. -/

namespace Sys2Proof

/-! ### Fields -/

/-- The selector of group `g` in its header byte: bits `(g mod 4)*2 + 1 : (g mod 4)*2` (R74, R123). -/
def selectorField (b : Byte) (g : Nat) : BitVec 2 :=
  (b >>> ((g % 4) * 2)).setWidth 2

/-- How far a code byte is shifted to reach its field `f` of `b` bits, 0 the first (R80). -/
def codeShift (o : CodeOrder) (b f : Nat) : Nat :=
  match o with
  | .msbFirst => 8 - b * (f + 1)
  | .lsbFirst => b * f

/-- The code of lane `j` in the code byte that holds it, `0 .. 2^b - 1` (R80). -/
def laneCode (o : CodeOrder) (b : Nat) (byte : Byte) (j : Nat) : Nat :=
  (byte.toNat >>> codeShift o b (j % (8 / b))) % 2 ^ b

/-! ### Decoding -/

/-- The bits of a unit as they stand at its position. Position selects the kind of the unit and the bits
select the unit (R89): the same bits at another position are another unit. -/
inductive Raw where
  /-- A 32-bit word the host writes to CTRL (R24, R91). -/
  | ctrl (w : Word32)
  /-- Byte 0 of the buffer (R71). -/
  | tag (b : Byte)
  /-- A 2-bit field of a plane header (R74). -/
  | selector (w : BitVec 2)
  /-- A 2-bit field of a code byte (R77). -/
  | code2 (c : BitVec 2)
  /-- A 4-bit field of a code byte (R78). -/
  | code4 (c : BitVec 4)
  /-- The units that have no bits, each at its own position (R89). -/
  | planePosition
  | unzigzagPosition
  | deltaPosition
  | transposePosition
  | commitPosition
  | blockPosition
deriving DecidableEq, Repr

/-- Why bits are no instruction. There are no reserved encodings (R85), so these two are all. -/
inductive DecodeError where
  /-- Byte 0 is not `0xA0`, the one illegal encoding (R84). -/
  | badTag (b : Byte)
  /-- A CTRL write with START clear: it issues no command (R24). -/
  | startClear
deriving DecidableEq, Repr

/-- The instruction a unit's bits stand for at their position (R75, R81, R84, R89, R91). -/
def decode : Raw → Except DecodeError Instr
  | .ctrl w => if w.getLsbD 0 then .ok .decode else .error .startClear
  | .tag b => if b = Config.tag then .ok .frameTag else .error (.badTag b)
  | .selector w =>
    if w = 0#2 then .ok .grpZero
    else if w = 1#2 then .ok .grpPack2
    else if w = 2#2 then .ok .grpPack4
    else .ok .grpRaw
  | .code2 c => if c = 3#2 then .ok .c2Esc else .ok (.c2Lit c)
  | .code4 c => if c = 15#4 then .ok .c4Esc else .ok (.c4Lit c)
  | .planePosition => .ok .plane
  | .unzigzagPosition => .ok .unzigzag
  | .deltaPosition => .ok .delta
  | .transposePosition => .ok .transpose
  | .commitPosition => .ok .commit
  | .blockPosition => .ok .block

/-- A code of `b` bits as the raw unit it is at its position. -/
def rawCode (b : CodeWidth) (code : Nat) : Raw :=
  match b with
  | .two => .code2 (BitVec.ofNat 2 code)
  | .four => .code4 (BitVec.ofNat 4 code)

/-- The instruction of a table row's bits with no position given, by their number alone: 32 bits are a CTRL
write; a byte `0xA0` is the tag; a value 0 to 3 is a selector, 4 to 15 a 4-bit code; no bits at all are a
plane. The table gives several rows the same bits (GRP.PACK2 and C2.LIT 1, GRP.RAW and C2.ESC, the six
implicit rows); this picks one of them. DESIGN CHOICE, safe: log 17. -/
def rawOfTableWord (nbits w : Nat) : Option Raw :=
  if nbits = 0 then some .planePosition
  else if nbits = 32 then some (.ctrl (BitVec.ofNat 32 w))
  else if nbits = 4 ∧ w < 16 then some (.code4 (BitVec.ofNat 4 w))
  else if nbits ≤ 8 then
    if w = 0xA0 then some (.tag Config.tag)
    else if w < 4 then some (.selector (BitVec.ofNat 2 w))
    else if w < 16 then some (.code4 (BitVec.ofNat 4 w))
    else none
  else none

/-- The instruction the decoder reads from a table row's bits (see `rawOfTableWord`). -/
def decodeTableWord (nbits w : Nat) : Option Instr :=
  match rawOfTableWord nbits w with
  | none => none
  | some r =>
    match decode r with
    | .ok i => some i
    | .error _ => none

/-! ### Encoding -/

/-- The bits of an instruction at its position (R71, R75, R77, R78, R91). -/
def encode : Instr → Raw
  | .decode => .ctrl 1#32
  | .frameTag => .tag Config.tag
  | .grpZero => .selector 0#2
  | .grpPack2 => .selector 1#2
  | .grpPack4 => .selector 2#2
  | .grpRaw => .selector 3#2
  | .c2Lit v => .code2 v
  | .c2Esc => .code2 3#2
  | .c4Lit v => .code4 v
  | .c4Esc => .code4 15#4
  | .plane => .planePosition
  | .unzigzag => .unzigzagPosition
  | .delta => .deltaPosition
  | .transpose => .transposePosition
  | .commit => .commitPosition
  | .block => .blockPosition

/-- How many bits a unit has at its position (the `encoding` strings of the table). -/
def Raw.bits : Raw → Nat
  | .ctrl _ => 32
  | .tag _ => 8
  | .selector _ => 2
  | .code2 _ => 2
  | .code4 _ => 4
  | .planePosition | .unzigzagPosition | .deltaPosition | .transposePosition | .commitPosition
  | .blockPosition => 0

/-- The code a lane is sent as: its literal code, or the sentinel `2^b - 1` (R81). -/
def LaneNote.code (b : CodeWidth) : LaneNote → Nat
  | .lit c => c
  | .esc _ => 2 ^ b.bits - 1

/-- The byte a lane decodes to: `zext_8` of its code, or its overflow literal (R81). -/
def LaneNote.value : LaneNote → Byte
  | .lit c => BitVec.ofNat 8 c
  | .esc byte => byte

/-- The overflow literal a lane contributes: one byte for an escape (R77, R78). -/
def LaneNote.overflow : LaneNote → List Byte
  | .lit _ => []
  | .esc byte => [byte]

/-- Code byte `m` of a packed group: field `f` holds the code of lane `m * perByte + f` (R77, R78, R80). -/
def codeByte (o : CodeOrder) (b : CodeWidth) (lanes : List LaneNote) (m : Nat) : Byte :=
  BitVec.ofNat 8 <| (List.range (8 / b.bits)).foldl
    (fun acc f =>
      acc + ((lanes.getD (m * (8 / b.bits) + f) (.lit 0)).code b) <<< codeShift o b.bits f) 0

/-- The selector of a group (R75). -/
def GroupNote.selector : GroupNote → BitVec 2
  | .zero => 0#2
  | .packed .two _ => 1#2
  | .packed .four _ => 2#2
  | .raw _ => 3#2

/-- The bytes of a group: none, code bytes then overflow literals in lane order, or raw bytes (R76 to R79). -/
def encodeGroup (o : CodeOrder) : GroupNote → List Byte
  | .zero => []
  | .packed b lanes =>
    (List.range (2 * b.bits)).map (codeByte o b lanes) ++ lanes.flatMap LaneNote.overflow
  | .raw bytes => bytes

/-- The sixteen values a group carries (R76 to R79, R81). -/
def GroupNote.values : GroupNote → List Byte
  | .zero => List.replicate Config.group 0#8
  | .packed _ lanes => lanes.map LaneNote.value
  | .raw bytes => bytes

/-- A header byte from its four selectors, the first in bits 1:0 (R74). -/
def headerByte (s0 s1 s2 s3 : BitVec 2) : Byte := s3 ++ s2 ++ s1 ++ s0

/-- Header bytes from selectors, four to a byte; the unused fields of the last byte are those of `spare`
(R74, R90). -/
def encodeHeader (spare : Byte) : List (BitVec 2) → List Byte
  | [] => []
  | [s0] => [headerByte s0 (selectorField spare 1) (selectorField spare 2) (selectorField spare 3)]
  | [s0, s1] => [headerByte s0 s1 (selectorField spare 2) (selectorField spare 3)]
  | [s0, s1, s2] => [headerByte s0 s1 s2 (selectorField spare 3)]
  | s0 :: s1 :: s2 :: s3 :: rest => headerByte s0 s1 s2 s3 :: encodeHeader spare rest

/-- The bytes of a plane: header, then groups (R73). -/
def encodePlane (o : CodeOrder) (n : PlaneNote) : List Byte :=
  encodeHeader n.spare (n.groups.map GroupNote.selector) ++ n.groups.flatMap (encodeGroup o)

/-- The plane values a plane's notation carries, group after group (R73, R125). -/
def PlaneNote.values (n : PlaneNote) : List Byte := n.groups.flatMap GroupNote.values

/-- The bytes of an encoded buffer: tag, blocks, filler, trailer, last byte (R70). -/
def encodeFrame (o : CodeOrder) (f : FrameNote) : List Byte :=
  Config.tag :: f.blocks.flatten.flatMap (encodePlane o) ++ f.filler ++ f.trailer ++ [f.last]

end Sys2Proof
end

