-- ==== Sys2Proof/Machine/State.lean ====
section
/-! DEFINITION. The state of one decoder core and what stands around it (R20, R38, R42), as plain data; the
reasons a step stops; the state after reset (R40, R220). -/

namespace Sys2Proof.Machine

/-- A byte-addressed space or a working array: its listed bytes by rising offset. Operations and the canonical
form are in Machine/Ops.lean. -/
structure Memory where
  cells : List Host.Cell
deriving DecidableEq, Repr

/-- Nothing listed. -/
def Memory.empty : Memory := ⟨[]⟩

/-- STATUS.state (R25). -/
inductive StatusState where
  | idle
  | busy
  | done
  | error
deriving DecidableEq, Repr

/-- The three ways a decode fails (R190). -/
inductive ErrorKind where
  | argument
  | format
  | truncation
deriving DecidableEq, Repr

/-- STATUS: the state and, after a failure, its kind (R25, R194). `err = none` is the code 0. -/
structure Status where
  state : StatusState
  err : Option ErrorKind
deriving DecidableEq, Repr

/-- The host registers, by name (R21 to R25; addresses are not modelled, D2). -/
inductive HostReg where
  | vcount
  | vstride
  | buflen
  | ctrl
  | status
deriving DecidableEq, Repr

/-- A host transaction (R204, R205). DESIGN CHOICE: log 2. -/
inductive HostCmd where
  | writeVcount (n : Word32)
  | writeVstride (n : Word32)
  | writeBuflen (n : Nat)
  | writeCtrl (w : Word32)
  | readReg (reg : HostReg)
  | readOut (offset : Nat)
  /-- Place the encoded buffer in IN. -/
  | loadIn (bytes : List Byte)
  /-- Provide an OUT region, which overlaps IN or not (R204 item 3, R65). The answer stands until the next region is
  provided, whatever is placed in IN or written meanwhile: DESIGN CHOICE, log 30. -/
  | provideOut (overlaps : Bool)
  | reset
deriving DecidableEq, Repr

/-- Where in the unit sequence the core stands: the states of R231, and between them the positions at which a
whole block, a whole plane, one code or one value is the next unit. -/
inductive Phase where
  /-- REST: waits for a host transaction. -/
  | rest
  | vStride
  | vLen
  | vTag
  | seed
  | blk
  /-- A whole block is next. -/
  | block
  /-- A whole plane is next. -/
  | plane
  | plHdr
  | grChk
  | grDec
  /-- One code of a packed group is next (R110). -/
  | code (b : CodeWidth)
  | delta
  /-- The zig-zag inverse of one value is next. -/
  | unzigzag
  /-- The transposed write of one value is next. -/
  | transpose
  | commit
deriving DecidableEq, Repr

/-- How much of a decode one step performs. `whole` is the spec's atomic DECODE (D1, R204); the others are
finer steps of the same decode (R231). DESIGN CHOICE: log 1. -/
inductive Grain where
  | whole
  | block
  | plane
  | group
  | lane
deriving DecidableEq, Repr

/-- The faults of the model: accesses to offsets and cells the spec says do not exist. Every one is safe: the
machine stops where the rules give no meaning. No decode reaches one (R108, R128, R159); a unit run alone from
a state no decode reaches can. -/
inductive Fault where
  /-- A read of IN at an offset at or beyond N (R11, R50). Raised by the tag, seed, selector, code and escape
  reads. Safe. -/
  | inOutOfRange (offset : Nat)
  /-- A write of OUT at an offset at or beyond vertexCount*S (R51). Raised by COMMIT. Safe. -/
  | outOutOfRange (offset : Nat)
  /-- A cell of `plane` at or beyond 256 (R28). Raised by the group and code units and UNZIGZAG. Safe. -/
  | planeOutOfRange (index : Nat)
  /-- A cell of `tr` at or beyond 8192 (R29). Raised by DELTA, TRANSPOSE and COMMIT. Safe. -/
  | trOutOfRange (index : Nat)
  /-- A cell of `lastVertex` at or beyond 256 (R27). Raised by the seeding, DELTA and the carry update. Safe. -/
  | lastVertexOutOfRange (index : Nat)
deriving DecidableEq, Repr

/-- The refusals of the model. Each is the spec's own treatment `refuse` (93 section 2) and is safe. -/
inductive Refusal where
  /-- No meaning yet: raised by `exec` for the named instruction only. Safe. -/
  | notModelled (mnemonic : String)
  /-- START before VCOUNT, VSTRIDE and BUFLEN were all written since reset (R204, R40, U9). Raised by DECODE. Safe. -/
  | operandUnwritten
  /-- IN and OUT overlap (R65, U8). Raised by DECODE. Safe. -/
  | inOutOverlap
  /-- BUFLEN is not the number of bytes the host placed in IN (U15). Raised by DECODE. Safe. -/
  | buflenMismatch
  /-- N or vertexCount*S does not fit ADDR_W (U11, D12). Raised by DECODE; never while ADDR_W is open. Safe. -/
  | sizeExceedsAddrW
  /-- DecodeBlock with cnt*S > 8192 (U12, R159). Raised by BLOCK run alone. Safe. -/
  | blockTooLarge
  /-- DecodeGroup without `pos + 32 <= END <= N` (U13, R108). Raised by the group units run alone. Safe. -/
  | groupWithoutMargin
  /-- A host access of an operand register, of IN or of OUT while BUSY (R21 to R23, R62, U7). Raised by `step`
  serving the host. Safe. -/
  | hostAccessWhileBusy
deriving DecidableEq, Repr

/-- The state of one decoder core (R20), the two spaces outside it (R38) and the host's side of the interface.
The counters and cursors are natural numbers (D12, R33; log 12). -/
@[ext]
structure State where
  /-- VCOUNT (R21). -/
  vcount : Word32
  /-- VSTRIDE (R22). -/
  vstride : Word32
  /-- BUFLEN (R23). -/
  buflen : Nat
  /-- Whether VCOUNT was written since reset (R204). -/
  vcountWritten : Bool
  /-- Whether VSTRIDE was written since reset (R204). -/
  vstrideWritten : Bool
  /-- Whether BUFLEN was written since reset (R204). -/
  buflenWritten : Bool
  /-- STATUS (R25). -/
  status : Status
  /-- BLOCKSIZE (R26). -/
  blockSize : Nat
  /-- The carry array (R27). -/
  lastVertex : Memory
  /-- The plane scratch (R28). -/
  plane : Memory
  /-- The transposed scratch (R29). -/
  tr : Memory
  /-- The payload cursor (R30). -/
  pos : Nat
  /-- The header base (R31). -/
  hdr : Nat
  /-- The overflow cursor (R32). -/
  ov : Nat
  /-- Vertices already produced (R33). -/
  voff : Nat
  /-- Vertices of the current block (R33). -/
  cnt : Nat
  /-- Current plane (R33). -/
  k : Nat
  /-- Current group of the plane (R33). -/
  g : Nat
  /-- Current vertex of the delta loop (R33). -/
  i : Nat
  /-- Current lane of the group (R33). -/
  j : Nat
  /-- The code byte being taken apart (R34). -/
  inputByte : Byte
  /-- How many of its bits were handed out (R34). -/
  bitsConsumed : Nat
  /-- The offset of the next code byte (R110). -/
  codeCursor : Nat
  /-- The delta accumulator (R35). -/
  p : Byte
  /-- The result of UNZIGZAG (R140; the model's own field, log 13). -/
  r : Byte
  /-- The reconstructed value of the delta loop (R142; the model's own field, log 13). -/
  v : Byte
  /-- The space IN (R50). -/
  inMem : Memory
  /-- How many bytes the host placed in IN (U15; the model's own field, log 5). -/
  inLen : Nat
  /-- Whether the OUT region overlaps IN (R65; the model's own field, log 6). False after reset, before the host has
  provided a region: DESIGN CHOICE, log 29. -/
  overlap : Bool
  /-- The space OUT (R51); an unlisted byte has no value (log 7). -/
  outMem : Memory
  /-- Host transactions not yet served, oldest first (the model's own field, log 2). -/
  cmds : List HostCmd
  /-- What the last host read returned (the model's own field, log 2). -/
  rdata : Nat
  /-- How many free values were drawn (the model's own field, log 7). -/
  draws : Nat
  /-- Where the core stands (R231; log 1). -/
  phase : Phase
  /-- How much of a decode one step performs (the model's own field, log 1). -/
  grain : Grain
deriving DecidableEq, Repr

/-- The machine right after reset: STATUS idle with no error, at rest (R40, R220). Every other value is the
model's choice where R40 says unspecified (log 3), and so are the zeros of `r`, `v` and `rdata` (log 31). `overlap` is false, so a START before the host has provided an
OUT region presumes a disjoint one, which R65 and R222 leave open: DESIGN CHOICE, log 29, unsafe. -/
def State.reset : State where
  vcount := 0
  vstride := 0
  buflen := 0
  vcountWritten := false
  vstrideWritten := false
  buflenWritten := false
  status := ⟨.idle, none⟩
  blockSize := 0
  lastVertex := .empty
  plane := .empty
  tr := .empty
  pos := 0
  hdr := 0
  ov := 0
  voff := 0
  cnt := 0
  k := 0
  g := 0
  i := 0
  j := 0
  inputByte := 0
  bitsConsumed := 0
  codeCursor := 0
  p := 0
  r := 0
  v := 0
  inMem := .empty
  inLen := 0
  overlap := false
  outMem := .empty
  cmds := []
  rdata := 0
  draws := 0
  phase := .rest
  grain := .whole

end Sys2Proof.Machine
end

