-- ==== Sys2Proof/Machine/Ops.lean ====
section
/-! DEFINITION. The shared operations: bytes of a space or array and their canonical form, the outcome of a
unit, loops, and the failure of a decode (R198), the one exception entry there is; there is no return from it
(R201). -/

namespace Sys2Proof.Machine

/-! ### Bytes by offset -/

/-- The byte listed at an offset. -/
def findCell : List Host.Cell → Nat → Option Byte
  | [], _ => none
  | (b, x) :: rest, a => if a = b then some x else findCell rest a

/-- List a byte, keeping the offsets rising. -/
def insertCell : List Host.Cell → Nat → Byte → List Host.Cell
  | [], a, x => [(a, x)]
  | (b, y) :: rest, a, x =>
    if a < b then (a, x) :: (b, y) :: rest
    else if a = b then (a, x) :: rest
    else (b, y) :: insertCell rest a x

/-- Unlist an offset. -/
def eraseCell : List Host.Cell → Nat → List Host.Cell
  | [], _ => []
  | (b, y) :: rest, a => if a = b then rest else (b, y) :: eraseCell rest a

/-- Offsets strictly rise. -/
def risingCells : List Host.Cell → Bool
  | [] => true
  | [_] => true
  | (a, _) :: (b, y) :: rest => decide (a < b) && risingCells ((b, y) :: rest)

/-- The byte of OUT at an offset, if it has a value: an unlisted byte has none (R199, log 7). -/
def Memory.find (m : Memory) (a : Nat) : Option Byte := findCell m.cells a

/-- The byte of IN or of a working array at an offset; an unlisted one reads as `Config.unlistedByte`. -/
def Memory.byte (m : Memory) (a : Nat) : Byte := (m.find a).getD Config.unlistedByte

/-- Write a byte of OUT. -/
def Memory.insert (m : Memory) (a : Nat) (x : Byte) : Memory := ⟨insertCell m.cells a x⟩

/-- Write a byte of IN or of a working array; writing what an unlisted byte reads as unlists it. -/
def Memory.setByte (m : Memory) (a : Nat) (x : Byte) : Memory :=
  if x = Config.unlistedByte then ⟨eraseCell m.cells a⟩ else ⟨insertCell m.cells a x⟩

/-- The canonical form of OUT: offsets strictly rise. -/
def Memory.rising (m : Memory) : Bool := risingCells m.cells

/-- The canonical form of IN and of the working arrays: offsets strictly rise and no entry is what an unlisted
byte reads as. -/
def Memory.wf (m : Memory) : Bool :=
  m.rising && m.cells.all (fun c => c.2 != Config.unlistedByte)

/-- Every listed offset is below a bound. -/
def Memory.below (m : Memory) (n : Nat) : Bool := m.cells.all (fun c => decide (c.1 < n))

/-- Write consecutive bytes of IN or of a working array from an offset on. -/
def Memory.setRun (m : Memory) (base : Nat) : List Byte → Memory
  | [] => m
  | x :: rest => (m.setByte base x).setRun (base + 1) rest

/-- Write consecutive bytes of OUT from an offset on (R155). -/
def Memory.insertRun (m : Memory) (base : Nat) : List Byte → Memory
  | [] => m
  | x :: rest => (m.insert base x).insertRun (base + 1) rest

/-- The first `n` values of a function of the offset. -/
def bytesUpTo (n : Nat) (f : Nat → Byte) : List Byte := (List.range n).map f

/-- `IN[a]` (R11). Every caller establishes `a < N` first. -/
def State.inByte (s : State) (a : Nat) : Byte := s.inMem.byte a

/-! ### Outcomes of a unit -/

/-- The outcome of one step of this machine. -/
abbrev Out := Host.Outcome State Fault Refusal

/-- How a unit ends: it returns, it raises one of the three errors with the state it had reached (R200), or the
model stops. -/
inductive Res where
  | ok (s : State)
  | raised (e : ErrorKind) (s : State)
  | fault (f : Fault)
  | refused (x : Refusal)
deriving DecidableEq, Repr

/-- Go on with the next part; a raise leaves all loops at once (R185, R198). -/
def Res.bind : Res → (State → Res) → Res
  | .ok s, f => f s
  | .raised e s, _ => .raised e s
  | .fault x, _ => .fault x
  | .refused x, _ => .refused x

/-- A counted loop (R185): the body `n` times. -/
def repeatUnit : Nat → (State → Res) → State → Res
  | 0, _, s => .ok s
  | n + 1, f, s => (f s).bind (repeatUnit n f)

/-- The failure of a decode (R198, R199): STATUS takes ERROR and the kind, nothing is saved, no handler runs, the
core is at rest, and no byte of OUT has a value. The working state keeps what it held (R200, log 22). -/
def takeError (e : ErrorKind) (s : State) : State :=
  { s with status := ⟨.error, some e⟩, outMem := .empty, phase := .rest }

/-- The end of a decode that succeeded: STATUS is DONE with no error and the core is at rest (R170, R181). -/
def finishDone (s : State) : State :=
  { s with status := ⟨.done, none⟩, phase := .rest }

/-- A decode is in progress (R25). -/
def beginBusy (s : State) : State := { s with status := ⟨.busy, none⟩ }

/-- Move to a position in the unit sequence (R231). -/
def State.goto (s : State) (ph : Phase) : State := { s with phase := ph }

/-- A unit's end as a step's outcome: a raise is the failure of the decode. -/
def Res.outcome : Res → Out
  | .ok s => .next s
  | .raised e s => .next (takeError e s)
  | .fault x => .fault x
  | .refused x => .refused x

end Sys2Proof.Machine
end

