-- ==== Sys2Proof/Machine/Operands.lean ====
section
/-! DEFINITION. The operands of the units: the numbers derived from the operand registers (R73, R121, R152, R171,
R176, R178) and the header and code fields a unit takes from IN (R110, R123). -/

namespace Sys2Proof.Machine

/-! ### Numbers (R10) -/

/-- `ceil(a/b)`. -/
def ceilDiv (a b : Nat) : Nat := (a + b - 1) / b

/-- `roundUp(a, m)`. -/
def roundUp (a m : Nat) : Nat := ceilDiv a m * m

/-- `roundDown(a, m)`. -/
def roundDown (a m : Nat) : Nat := a / m * m

/-- The stride check: in `[1, 256]` and a multiple of 4 (R171). -/
def strideOk (S : Nat) : Bool :=
  decide (1 ≤ S) && decide (S ≤ Config.strideMax) && decide (S % Config.strideMult = 0)

/-- BLOCKSIZE from the stride: `min(256, roundDown(floor(8192/S), 16))` (R176). -/
def blockSizeOf (S : Nat) : Nat :=
  min Config.maxBlock (roundDown (Config.blockBytes / S) Config.group)

/-- `vertexCountAligned = roundUp(cnt, 16)` (R152). -/
def alignedCount (cnt : Nat) : Nat := roundUp cnt Config.group

/-- Groups of a plane (R73, R121). -/
def numGroups (cnt : Nat) : Nat := alignedCount cnt / Config.group

/-- Header bytes of a plane (R73, R121). -/
def headerSize (cnt : Nat) : Nat := ceilDiv (numGroups cnt) 4

/-- Blocks of a decode (R71, R178). -/
def numBlocks (count blockSize : Nat) : Nat := ceilDiv count blockSize

/-- Whether a size fits ADDR_W (D12, U11). -/
def fitsAddrW : Option Nat → Nat → Bool
  | none, _ => true
  | some w, n => decide (n < 2 ^ w)

/-- `vertexCount` (R21). -/
def State.count (s : State) : Nat := s.vcount.toNat

/-- The stride `S`, all 32 bits (R22). -/
def State.stride (s : State) : Nat := s.vstride.toNat

/-- `END`, the end of the input slice (R175, D4). -/
def State.inputEnd (s : State) : Nat :=
  match Config.inputEnd with
  | .bufferEnd => s.buflen
  | .trailerStart => s.buflen - 1 - s.stride

/-- Trailer byte `k`: `IN[N - TRAILER_GAP - S + k]` (R174). -/
def State.trailerByte (s : State) (k : Nat) : Byte :=
  s.inByte (s.buflen - Config.trailerGap - s.stride + k)

/-! ### Fields taken from IN -/

/-- The offset of the header byte that holds the current group's selector (R123). -/
def State.selectorOffset (s : State) : Nat := s.hdr + s.g / 4

/-- The current group's selector (R123). -/
def State.selector (s : State) : BitVec 2 := selectorField (s.inByte s.selectorOffset) s.g

/-- Load the next code byte at the start of a group and when all 8 bits were handed out (R110). -/
def loadCodeByte (s : State) : Res :=
  if s.bitsConsumed = 0 ∨ s.bitsConsumed = 8 then
    if s.codeCursor < s.buflen then
      .ok { s with
        inputByte := s.inByte s.codeCursor
        codeCursor := s.codeCursor + 1
        bitsConsumed := 0 }
    else .fault (.inOutOfRange s.codeCursor)
  else .ok s

/-- The code at the front of the bit cursor (R110; under `lsb_first` the front is the low end). -/
def State.frontCode (b : CodeWidth) (s : State) : Nat :=
  match Config.codeOrder with
  | .msbFirst => s.inputByte.toNat >>> (8 - b.bits)
  | .lsbFirst => s.inputByte.toNat % 2 ^ b.bits

/-- Hand out the front code's bits (R110). -/
def dropCode (b : CodeWidth) (s : State) : State :=
  { s with
    inputByte :=
      match Config.codeOrder with
      | .msbFirst => s.inputByte <<< b.bits
      | .lsbFirst => s.inputByte >>> b.bits
    bitsConsumed := s.bitsConsumed + b.bits }

end Sys2Proof.Machine
end

