-- ==== Sys2Proof/Machine/Flags.lean ====
section
/-! DEFINITION. What stands for flags here. There are no condition codes (R36): the register rendering of STATUS
(R25, R194) and the margin test, whose result is used at once and kept nowhere (R124). -/

namespace Sys2Proof.Machine

/-- The number of a STATUS state (R25, D8). -/
def StatusState.number : StatusState → Nat
  | .idle => 0
  | .busy => 1
  | .done => 2
  | .error => 3

/-- The number of an error kind, 0 for none (R25, R194). -/
def errNumber : Option ErrorKind → Nat
  | none => 0
  | some .argument => 1
  | some .format => 2
  | some .truncation => 3

/-- STATUS as the host reads it: state in bits 1:0, err in bits 3:2, bits 31:4 zero (R25). -/
def Status.word (t : Status) : Word32 := BitVec.ofNat 32 (t.state.number + 4 * errNumber t.err)

/-- The margin test before a group: `pos + 32 <= END` on natural numbers (R124). -/
def State.marginHolds (s : State) : Bool := decide (s.pos + Config.tailMax ≤ s.inputEnd)

end Sys2Proof.Machine
end

