-- ==== Sys2Proof/Machine/Codes.lean ====
section
/-! DEFINITION. The codes of packed groups: C2.LIT, C2.ESC, C4.LIT, C4.ESC (R105, R106). Lane `j` of group `g` is
plane value `16g + j` (R109, R125). The lane counter and the bit cursor belong to the group's loop and are moved
by it (Machine/Sequence.lean, log 16). -/

namespace Sys2Proof.Machine

/-- `val[j] <- x`: the current lane's value, in its place in `plane` (R125). -/
def writeLane (x : Byte) (s : State) : Res :=
  if Config.group * s.g + s.j < Config.maxBlock then
    .ok { s with plane := s.plane.setByte (Config.group * s.g + s.j) x }
  else .fault (.planeOutOfRange (Config.group * s.g + s.j))

/-- An escape: the lane's value is `IN[ov]`, and `ov` advances by 1 (R106). -/
def escapeLane (s : State) : Res :=
  if s.ov < s.buflen then
    (writeLane (s.inByte s.ov) s).bind fun t => .ok { t with ov := t.ov + 1 }
  else .fault (.inOutOfRange s.ov)

/-- C2.LIT: the lane's value is `zext_8(code)`; the overflow cursor is not touched (R105). -/
def execC2Lit (code : BitVec 2) (s : State) : Out := (writeLane (code.setWidth 8) s).outcome

/-- C4.LIT: the lane's value is `zext_8(code)`; the overflow cursor is not touched (R105). -/
def execC4Lit (code : BitVec 4) (s : State) : Out := (writeLane (code.setWidth 8) s).outcome

/-- C2.ESC (R106). -/
def execC2Esc (s : State) : Out := (escapeLane s).outcome

/-- C4.ESC (R106). -/
def execC4Esc (s : State) : Out := (escapeLane s).outcome

end Sys2Proof.Machine
end

