-- ==== Sys2Proof/Machine/Groups.lean ====
section
/-! DEFINITION. Unit U1, the bit-group decoder: `DecodeGroup` as a function of the bytes at the payload cursor
(R100, R111), and the four group instructions GRP.ZERO, GRP.PACK2, GRP.PACK4, GRP.RAW (R101 to R104) over it. -/

namespace Sys2Proof.Machine

/-- The lanes of a packed group from lane `j` on, `n` of them, with the overflow cursor: their values and the
cursor after the last (R102, R103). -/
def packedLanes (o : CodeOrder) (b : Nat) (rd : Nat → Byte) (pos : Nat) :
    Nat → Nat → Nat → List Byte × Nat
  | 0, _, ov => ([], ov)
  | n + 1, j, ov =>
    if laneCode o b (rd (pos + j / (8 / b))) j = 2 ^ b - 1 then
      let rest := packedLanes o b rd pos n (j + 1) (ov + 1)
      (rd ov :: rest.1, rest.2)
    else
      let rest := packedLanes o b rd pos n (j + 1) ov
      (BitVec.ofNat 8 (laneCode o b (rd (pos + j / (8 / b))) j) :: rest.1, rest.2)

/-- GRP.ZERO: sixteen zeros, no byte consumed (R101). -/
def zeroGroup (pos : Nat) : List Byte × Nat := (List.replicate Config.group 0#8, pos)

/-- A packed group: the overflow region starts after the `2b` code bytes (R102, R103). -/
def packedGroup (o : CodeOrder) (b : CodeWidth) (rd : Nat → Byte) (pos : Nat) : List Byte × Nat :=
  packedLanes o b.bits rd pos Config.group 0 (pos + 2 * b.bits)

/-- GRP.RAW: sixteen bytes as they are (R104). -/
def rawGroup (rd : Nat → Byte) (pos : Nat) : List Byte × Nat :=
  (bytesUpTo Config.group fun j => rd (pos + j), pos + Config.group)

/-- `DecodeGroup(w, pos) -> (val[0..16), pos')` (R100). -/
def decodeGroup (o : CodeOrder) (w : BitVec 2) (rd : Nat → Byte) (pos : Nat) : List Byte × Nat :=
  if w = 0#2 then zeroGroup pos
  else if w = 1#2 then packedGroup o .two rd pos
  else if w = 2#2 then packedGroup o .four rd pos
  else rawGroup rd pos

/-- Whether a selector names a packed group, which has an overflow cursor (R32). -/
def isPacked (w : BitVec 2) : Bool := w == 1#2 || w == 2#2

/-- The state after a group: its sixteen values stand in `plane[16g .. 16g+16)` (R125) and the cursor is past it. The
overflow cursor of a packed group ends as the new `pos` (R32); the lane counter ends at 16 (log 16). -/
def afterDecodeGroup (w : BitVec 2) (s : State) : State :=
  { s with
    plane := s.plane.setRun (Config.group * s.g) (decodeGroup Config.codeOrder w s.inByte s.pos).1
    pos := (decodeGroup Config.codeOrder w s.inByte s.pos).2
    ov := if isPacked w then (decodeGroup Config.codeOrder w s.inByte s.pos).2 else s.ov
    j := Config.group }

/-- One group at the payload cursor: `DecodeGroup` and its writes to `plane` (R100, R125). The margin is the caller's
to establish (R108); without it the unit is refused (U13, log 14). -/
def groupUnit (w : BitVec 2) (s : State) : Res :=
  if s.pos + Config.tailMax ≤ s.inputEnd ∧ s.inputEnd ≤ s.buflen then
    if Config.group * s.g + Config.group ≤ Config.maxBlock then .ok (afterDecodeGroup w s)
    else .fault (.planeOutOfRange (Config.group * s.g))
  else .refused .groupWithoutMargin

/-- GRP.ZERO (R101). -/
def execGrpZero (s : State) : Out := (groupUnit 0#2 s).outcome

/-- GRP.PACK2 (R102). -/
def execGrpPack2 (s : State) : Out := (groupUnit 1#2 s).outcome

/-- GRP.PACK4 (R103). -/
def execGrpPack4 (s : State) : Out := (groupUnit 2#2 s).outcome

/-- GRP.RAW (R104). -/
def execGrpRaw (s : State) : Out := (groupUnit 3#2 s).outcome

end Sys2Proof.Machine
end

