-- ==== Sys2Proof/Machine/Planes.lean ====
section
/-! DEFINITION. Unit U2, the group-stream decoder: PLANE, the function `DecodeStream` (R120 to R131). -/

namespace Sys2Proof.Machine

/-- The start of a plane: the header base is the cursor, the payload starts after the header (R122). -/
def openPlane (s : State) : State :=
  { s with hdr := s.pos, pos := s.pos + headerSize s.cnt, g := 0 }

/-- One turn of the group loop: the margin test before anything of the group is read (R124, R128), the selector
(R123), the group (R100), the next group. -/
def groupTurn (s : State) : Res :=
  if s.marginHolds then
    if s.selectorOffset < s.buflen then
      (groupUnit s.selector s).bind fun t => .ok { t with g := t.g + 1 }
    else .fault (.inOutOfRange s.selectorOffset)
  else .raised .truncation s

/-- `DecodeStream` for the current block's count (R120). -/
def planeUnit (s : State) : Res := repeatUnit (numGroups s.cnt) groupTurn (openPlane s)

/-- PLANE (R120). -/
def execPlane (s : State) : Out := (planeUnit s).outcome

end Sys2Proof.Machine
end

