-- ==== Sys2Proof/Machine/Delta.lean ====
section
/-! DEFINITION. Unit U3, the delta-chain reverser, and the transposed write of U4: UNZIGZAG (R140), DELTA (R142) and
TRANSPOSE (R154). -/

namespace Sys2Proof.Machine

/-- `unzigzag(b) = (-(b & 1)) XOR (b >> 1)` on bytes (R140). -/
def unzigzagByte (b : Byte) : Byte := (-(b &&& 1#8)) ^^^ (b >>> 1)

/-- `r <- unzigzag(plane[i])` (R140). -/
def unzigzagRead (s : State) : State := { s with r := unzigzagByte (s.plane.byte s.i) }

/-- `v <- (r + p) mod 256` (R142). -/
def addDelta (s : State) : State := { s with v := s.r + s.p }

/-- The cell of vertex `i` at offset `k`: `i*S + k` (R154). -/
def State.trIndex (s : State) : Nat := s.i * s.stride + s.k

/-- `tr[i*S + k] <- v` (R154). -/
def transposeWrite (s : State) : State := { s with tr := s.tr.setByte s.trIndex s.v }

/-- `p <- v` and the next vertex (R142). -/
def nextVertex (s : State) : State := { s with p := s.v, i := s.i + 1 }

/-- The start of a chain: `p <- lastVertex[k]`, vertex 0 (R142, R143). -/
def openChain (s : State) : State := { s with p := s.lastVertex.byte s.k, i := 0 }

/-- The chain for `n` more vertices (R142). -/
def chainLoop : Nat → State → State
  | 0, s => s
  | n + 1, s => chainLoop n (nextVertex (transposeWrite (addDelta (unzigzagRead s))))

/-- The chain reversal of plane `k` (R142). The cells it touches must exist (R27 to R29, log 15). -/
def deltaUnit (s : State) : Res :=
  if s.k < Config.strideMax then
    if s.cnt ≤ Config.maxBlock then
      if s.cnt = 0 ∨ (s.cnt - 1) * s.stride + s.k < Config.blockBytes then
        .ok (chainLoop s.cnt (openChain s))
      else .fault (.trOutOfRange ((s.cnt - 1) * s.stride + s.k))
    else .fault (.planeOutOfRange (s.cnt - 1))
  else .fault (.lastVertexOutOfRange s.k)

/-- UNZIGZAG: the zig-zag inverse of the current plane value (R140). -/
def execUnzigzag (s : State) : Out :=
  if s.i < Config.maxBlock then .next (unzigzagRead s) else .fault (.planeOutOfRange s.i)

/-- DELTA: the chain reversal of the current plane (R142). -/
def execDelta (s : State) : Out := (deltaUnit s).outcome

/-- TRANSPOSE: the transposed write of the current value (R154). -/
def execTranspose (s : State) : Out :=
  if s.trIndex < Config.blockBytes then .next (transposeWrite s) else .fault (.trOutOfRange s.trIndex)

end Sys2Proof.Machine
end

