-- ==== Sys2Proof/Machine/Blocks.lean ====
section
/-! DEFINITION. Unit U4, the block decoder: COMMIT (R155), the carry update (R156) and BLOCK, the function
`DecodeBlock` (R150 to R160). -/

namespace Sys2Proof.Machine

/-- `OUT[voff*S + a] <- tr[a]` for `a` in `[0 .. cnt*S)` (R155). The cells and offsets must exist (R29, R51). -/
def commitUnit (s : State) : Res :=
  if s.cnt * s.stride ≤ Config.blockBytes then
    if (s.voff + s.cnt) * s.stride ≤ s.count * s.stride then
      .ok { s with
        outMem := s.outMem.insertRun (s.voff * s.stride) (bytesUpTo (s.cnt * s.stride) s.tr.byte) }
    else .fault (.outOutOfRange (s.count * s.stride))
  else .fault (.trOutOfRange Config.blockBytes)

/-- `lastVertex[k] <- tr[(cnt-1)*S + k]` for every `k` (R156). The cells must exist (R27). -/
def carryUnit (s : State) : Res :=
  if s.stride ≤ Config.strideMax then
    .ok { s with
      lastVertex := s.lastVertex.setRun 0
        (bytesUpTo s.stride fun k => s.tr.byte ((s.cnt - 1) * s.stride + k)) }
  else .fault (.lastVertexOutOfRange Config.strideMax)

/-- One turn of the plane loop: the plane, its chain, the next plane (R153). -/
def planeTurn (s : State) : Res :=
  (planeUnit s).bind fun t => (deltaUnit t).bind fun u => .ok { u with k := u.k + 1 }

/-- `DecodeBlock` (R150): the count check before anything else (R151), `S` planes in ascending order (R153), and
only then the copy and the carry update (R155, R156, R160). More bytes than `tr` has cells are refused (U12). -/
def blockUnit (s : State) : Res :=
  if s.cnt = 0 ∨ s.cnt > Config.maxBlock then .raised .argument s
  else if s.cnt * s.stride > Config.blockBytes then .refused .blockTooLarge
  else (repeatUnit s.stride planeTurn { s with k := 0 }).bind fun t => (commitUnit t).bind carryUnit

/-- COMMIT (R155). -/
def execCommit (s : State) : Out := (commitUnit s).outcome

/-- BLOCK (R150). -/
def execBlock (s : State) : Out := (blockUnit s).outcome

end Sys2Proof.Machine
end

