-- ==== Sys2Proof/Machine/Frame.lean ====
section
/-! DEFINITION. Unit U5, the top level: FRAME.TAG (R173), the seeding (R174 to R176), the block loop (R178) and the
host command DECODE (R170, R204). -/

namespace Sys2Proof.Machine

/-- Tag validation: all eight bits of `IN[0]` are compared, and the tag is consumed (R173, log 23). -/
def tagUnit (s : State) : Res :=
  if 0 < s.buflen then
    match decode (.tag (s.inByte 0)) with
    | .ok _ => .ok { s with pos := 1 }
    | .error _ => .raised .format s
  else .fault (.inOutOfRange 0)

/-- Steps 3 to 5 up to the loop: seed `lastVertex` from the trailer (R174), compute BLOCKSIZE (R176), set the cursor
and the vertex offset (R175). The cells and offsets must exist. -/
def seedUnit (s : State) : Res :=
  if s.stride ≤ Config.strideMax then
    if s.stride + Config.trailerGap ≤ s.buflen then
      .ok { s with
        lastVertex := s.lastVertex.setRun 0 (bytesUpTo s.stride s.trailerByte)
        blockSize := blockSizeOf s.stride
        pos := 1
        voff := 0 }
    else .fault (.inOutOfRange s.buflen)
  else .fault (.lastVertexOutOfRange Config.strideMax)

/-- The count of the next block: `min(blockSize, vertexCount - voff)` (R178). -/
def State.nextCount (s : State) : Nat := min s.blockSize (s.count - s.voff)

/-- `voff <- voff + cnt` (R178). -/
def advanceVoff (s : State) : State := { s with voff := s.voff + s.cnt }

/-- One turn of the block loop (R178). -/
def blockTurn (s : State) : Res :=
  (blockUnit { s with cnt := s.nextCount }).bind fun t => .ok (advanceVoff t)

/-- The block loop (R178, R185). -/
def blockLoop (s : State) : Res := repeatUnit (numBlocks s.count s.blockSize) blockTurn s

/-- Steps 1 to 6 of a decode, in the order that fixes the priority of errors (R170, R197). -/
def decodeBody (s : State) : Res :=
  if strideOk s.stride then
    if 1 + s.stride ≤ s.buflen then
      (tagUnit s).bind fun t => (seedUnit t).bind fun u => (blockLoop u).bind fun x =>
        .ok (finishDone x)
    else .raised .format s
  else .raised .argument s

/-- What makes START have no meaning: an operand never written (R204), overlapping spaces (R65), a BUFLEN that is
not what the host placed (U15), a size beyond ADDR_W (U11). That no OUT region was ever provided is no reason: a
disjoint one is presumed (R222; DESIGN CHOICE, log 29). Overlap is as the last provided region said (log 30). -/
def startRefusal (s : State) : Option Refusal :=
  if ¬ (s.vcountWritten && s.vstrideWritten && s.buflenWritten) then some .operandUnwritten
  else if s.overlap then some .inOutOverlap
  else if s.buflen ≠ s.inLen then some .buflenMismatch
  else if ¬ (fitsAddrW Config.addrW s.buflen && fitsAddrW Config.addrW (s.count * s.stride)) then
    some .sizeExceedsAddrW
  else none

/-- The host command DECODE: ignored while BUSY (R24, R204), else the whole decode as one transition from a resting
state to DONE or ERROR (R170, R204, D1). -/
def decodeUnit (s : State) : Res :=
  if s.status.state = .busy then .ok s
  else
    match startRefusal s with
    | some x => .refused x
    | none => decodeBody (beginBusy s)

/-- FRAME.TAG (R173). -/
def execFrameTag (s : State) : Out := (tagUnit s).outcome

/-- DECODE (R170). -/
def execDecode (s : State) : Out := (decodeUnit s).outcome

end Sys2Proof.Machine
end

