-- ==== Sys2Proof/Machine/Dispatch.lean ====
section
/-! DEFINITION. The dispatch: one arm per instruction, each one direct call of its meaning. -/

namespace Sys2Proof.Machine

def exec (i : Instr) (s : State) : Host.Outcome State Fault Refusal :=
  match i with
  -- U5
  | .frameTag => Sys2Proof.Machine.execFrameTag s
  -- U1
  | .grpZero => Sys2Proof.Machine.execGrpZero s
  | .grpPack2 => Sys2Proof.Machine.execGrpPack2 s
  | .grpPack4 => Sys2Proof.Machine.execGrpPack4 s
  | .grpRaw => Sys2Proof.Machine.execGrpRaw s
  | .c2Lit code => Sys2Proof.Machine.execC2Lit code s
  | .c2Esc => Sys2Proof.Machine.execC2Esc s
  | .c4Lit code => Sys2Proof.Machine.execC4Lit code s
  | .c4Esc => Sys2Proof.Machine.execC4Esc s
  -- U2
  | .plane => Sys2Proof.Machine.execPlane s
  -- U3, U4
  | .unzigzag => Sys2Proof.Machine.execUnzigzag s
  | .delta => Sys2Proof.Machine.execDelta s
  | .transpose => Sys2Proof.Machine.execTranspose s
  | .commit => Sys2Proof.Machine.execCommit s
  | .block => Sys2Proof.Machine.execBlock s
  -- U5
  | .decode => Sys2Proof.Machine.execDecode s

end Sys2Proof.Machine
end

