-- ==== Sys2Proof/Machine/HostPort.lean ====
section
/-! DEFINITION. The host's side of the interface (R21 to R25, R204 to R206, R220): every host transaction other
than a CTRL write, which is an instruction. -/

namespace Sys2Proof.Machine

/-- A register as the host reads it (R21 to R25): CTRL reads 0 and STATUS is rendered by `Status.word`. -/
def State.readReg (s : State) : HostReg → Nat
  | .vcount => s.vcount.toNat
  | .vstride => s.vstride.toNat
  | .buflen => s.buflen
  | .ctrl => 0
  | .status => s.status.word.toNat

/-- Allow a host access only while no decode is in progress (R21 to R23, R62, U7). -/
def whenNotBusy (s t : State) : Out :=
  if s.status.state = .busy then .refused .hostAccessWhileBusy else .next t

/-- A host read of one OUT byte: its value, or a free value where it has none (R199, R205, U2). -/
def readOutByte (offset : Nat) (s : State) : State :=
  match s.outMem.find offset with
  | some x => { s with rdata := x.toNat }
  | none => { s with rdata := (Config.freeOutByte s.draws offset).toNat, draws := s.draws + 1 }

/-- Reset: the state after reset (a decode that STATUS says is in progress is abandoned), with IN, the region flag
(log 29) and the pending transactions, which are not the core's, kept, and no byte of OUT with a value (R40, R220,
log 24). What the last read returned is set to 0 with the latches `r` and `v`: DESIGN CHOICE, log 31. -/
def hostReset (s : State) : State :=
  { State.reset with
    inMem := s.inMem
    inLen := s.inLen
    overlap := s.overlap
    cmds := s.cmds
    draws := s.draws
    grain := s.grain }

/-- One host transaction. A CTRL write that reaches this operation has START clear and does nothing (R24).
Only `provideOut` sets the overlap flag: disjointness is judged there, not at START or by later transactions (R222;
DESIGN CHOICE, log 30). -/
def hostAccess (c : HostCmd) (s : State) : Out :=
  match c with
  | .writeVcount n => whenNotBusy s { s with vcount := n, vcountWritten := true }
  | .writeVstride n => whenNotBusy s { s with vstride := n, vstrideWritten := true }
  | .writeBuflen n => whenNotBusy s { s with buflen := n, buflenWritten := true }
  | .writeCtrl _ => .next s
  | .readReg .status => .next { s with rdata := s.readReg .status }
  | .readReg .ctrl => .next { s with rdata := s.readReg .ctrl }
  | .readReg reg => whenNotBusy s { s with rdata := s.readReg reg }
  | .readOut offset => whenNotBusy s (readOutByte offset s)
  | .loadIn bytes =>
    whenNotBusy s { s with inMem := Memory.empty.setRun 0 bytes, inLen := bytes.length }
  | .provideOut overlaps => whenNotBusy s { s with overlap := overlaps, outMem := .empty }
  | .reset => .next (hostReset s)

end Sys2Proof.Machine
end

