-- ==== Sys2Proof/Machine/Sequence.lean ====
section
/-! DEFINITION. The unit sequence of R231: what stands next at each position (`fetch`), where the core goes after
a unit (`advance`), and how a table row's bits are placed so that they are what the next step fetches. -/

namespace Sys2Proof.Machine

/-! ### After a unit -/

/-- After a group: the next group's margin test, or the plane's chain (R231, GR_DEC). -/
def afterGroup (s : State) : State :=
  if s.g < numGroups s.cnt then s.goto .grChk else s.goto .delta

/-- The position at which a plane starts. -/
def planeStart (gr : Grain) : Phase := if gr = .plane then .plane else .plHdr

/-- The position at which a block of the current grain starts. -/
def blockStart (gr : Grain) : Phase :=
  if gr = .whole ∨ gr = .block then .block else planeStart gr

/-- After a plane's chain: `k <- k+1`, the next plane or the copy (R231, DELTA). -/
def afterChain (s : State) : State :=
  if s.k + 1 < s.stride then { s with k := s.k + 1, phase := planeStart s.grain }
  else { s with k := s.k + 1, phase := .commit }

/-- After a lane: the next lane; after the sixteenth `ov` becomes the new `pos` and the group ends (R32, R102). -/
def afterLane (s : State) : State :=
  if s.j + 1 < Config.group then { s with j := s.j + 1 }
  else afterGroup { s with j := s.j + 1, pos := s.ov, g := s.g + 1 }

/-- After the transposed write of a value: `p <- v`, the next vertex or the end of the chain (R142). -/
def afterVertex (s : State) : State :=
  if s.i + 1 < s.cnt then (nextVertex s).goto .unzigzag else afterChain (nextVertex s)

/-- What the unit's loop does once the unit at the core's position has run (R231; log 16). -/
def advance (s : State) : Out :=
  match s.phase with
  | .vTag => .next (s.goto .seed)
  | .block => .next ((advanceVoff s).goto .blk)
  | .plane => .next (s.goto .delta)
  | .grDec => .next (afterGroup { s with g := s.g + 1 })
  | .code _ => .next (afterLane s)
  | .delta => .next (afterChain s)
  | .unzigzag => .next ((addDelta s).goto .transpose)
  | .transpose => .next (afterVertex s)
  | .commit => ((carryUnit s).bind fun t => .ok ((advanceVoff t).goto .blk)).outcome
  | .rest | .vStride | .vLen | .seed | .blk | .plHdr | .grChk => .next s

/-- Go on after a unit, unless it left the core at rest (a failure, or the host command). -/
def resume : Out → Out
  | .next t => if t.phase = .rest then .next t else advance t
  | .fault x => .fault x
  | .refused x => .refused x

/-! ### What stands next -/

/-- What a step finds at the core's position: an instruction to run, or a move that is no instruction. -/
inductive Fetched where
  | run (i : Instr) (s : State)
  | moved (o : Out)

/-- The unit whose bits are `r`. Only the tag can be illegal, and that is a FormatError (R84, R173). -/
def fetchUnit (r : Raw) (s : State) : Fetched :=
  match decode r with
  | .ok i => .run i s
  | .error _ => .moved (.next (takeError .format s))

/-- START with a grain finer than a whole decode: the first state of the sequence (R231, REST), under the same
conditions as DECODE. -/
def beginSteps (s : State) : Out :=
  if s.status.state = .busy then .next s
  else
    match startRefusal s with
    | some x => .refused x
    | none => .next ((beginBusy s).goto .vStride)

/-- The oldest host transaction. A CTRL write with START set is the instruction DECODE; with START clear it does
nothing (R24). -/
def fetchCommand (c : HostCmd) (s : State) : Fetched :=
  match c with
  | .writeCtrl w =>
    match decode (.ctrl w) with
    | .ok i => if s.grain = .whole then .run i s else .moved (beginSteps s)
    | .error _ => .moved (hostAccess c s)
  | .writeVcount _ | .writeVstride _ | .writeBuflen _ | .readReg _ | .readOut _ | .loadIn _
  | .provideOut _ | .reset => .moved (hostAccess c s)

/-- At rest: the oldest host transaction, or nothing to do (R231, REST). -/
def fetchRest (s : State) : Fetched :=
  match s.cmds with
  | [] => .moved (.next s)
  | c :: rest => fetchCommand c { s with cmds := rest }

/-- The end of the block loop, or the start of a block (R178; R231, BLK). -/
def blkMove (s : State) : State :=
  if s.voff < s.count then { s with cnt := s.nextCount, k := 0, phase := blockStart s.grain }
  else finishDone s

/-- The start of a packed group taken code by code (R32, R110). -/
def openCodes (b : CodeWidth) (s : State) : State :=
  { s with
    ov := s.pos + 2 * b.bits
    j := 0
    codeCursor := s.pos
    bitsConsumed := 0
    phase := .code b }

/-- The code width of a packed selector (R75). -/
def selectorWidth (w : BitVec 2) : CodeWidth := if w = 1#2 then .two else .four

/-- The group at the cursor: a whole unit, or opened to be taken code by code. -/
def fetchGroup (s : State) : Fetched :=
  if s.selectorOffset < s.buflen then
    if s.grain = .lane ∧ isPacked s.selector then
      .moved (.next (openCodes (selectorWidth s.selector) s))
    else fetchUnit (.selector s.selector) s
  else .moved (.fault (.inOutOfRange s.selectorOffset))

/-- The next code of a packed group (R110). -/
def fetchCode (b : CodeWidth) (s : State) : Fetched :=
  match loadCodeByte s with
  | .ok t => fetchUnit (rawCode b (t.frontCode b)) (dropCode b t)
  | .raised e t => .moved (Res.raised e t).outcome
  | .fault x => .moved (.fault x)
  | .refused x => .moved (.refused x)

/-- The chain of the plane: a whole unit, or opened to be taken value by value. -/
def fetchChain (s : State) : Fetched :=
  if s.grain = .lane then
    if s.k < Config.strideMax then
      .moved (.next (if 0 < s.cnt then (openChain s).goto .unzigzag else afterChain (openChain s)))
    else .moved (.fault (.lastVertexOutOfRange s.k))
  else fetchUnit .deltaPosition s

/-- What stands next at the core's position (R231). -/
def fetch (s : State) : Fetched :=
  match s.phase with
  | .rest => fetchRest s
  | .vStride =>
    .moved (if strideOk s.stride then .next (s.goto .vLen) else .next (takeError .argument s))
  | .vLen =>
    .moved (if 1 + s.stride ≤ s.buflen then .next (s.goto .vTag) else .next (takeError .format s))
  | .vTag =>
    if 0 < s.buflen then fetchUnit (.tag (s.inByte 0)) s else .moved (.fault (.inOutOfRange 0))
  | .seed => .moved ((seedUnit s).bind fun t => .ok (t.goto .blk)).outcome
  | .blk => .moved (.next (blkMove s))
  | .block => fetchUnit .blockPosition s
  | .plane => fetchUnit .planePosition s
  | .plHdr => .moved (.next ((openPlane s).goto .grChk))
  | .grChk =>
    .moved (if s.marginHolds then .next (s.goto .grDec) else .next (takeError .truncation s))
  | .grDec => fetchGroup s
  | .code b => fetchCode b s
  | .delta => fetchChain s
  | .unzigzag => fetchUnit .unzigzagPosition s
  | .transpose => fetchUnit .transposePosition s
  | .commit => fetchUnit .commitPosition s

/-! ### Placing bits where the next step fetches them -/

/-- A decode is in progress at a position of the stream. -/
def atPosition (ph : Phase) (s : State) : State := (beginBusy s).goto ph

/-- Stream bytes at the front of IN, which is long enough to hold them. -/
def withFrontBytes (bytes : List Byte) (s : State) : State :=
  { s with inMem := s.inMem.setRun 0 bytes, buflen := max s.buflen bytes.length }

/-- A code of `b` bits as the first code of a code byte, its overflow region the byte after it. -/
def atFirstCode (b : CodeWidth) (code : Nat) (s : State) : State :=
  { atPosition (.code b)
      (withFrontBytes [BitVec.ofNat 8 (code <<< codeShift Config.codeOrder b.bits 0), 0#8] s) with
    g := 0
    j := 0
    codeCursor := 0
    bitsConsumed := 0
    ov := 1 }

/-- The state in which a unit with these bits is what the next step fetches, its payload bytes zero (log 18). -/
def placeRaw (r : Raw) (s : State) : State :=
  match r with
  | .ctrl w =>
    { s with
      cmds := .writeCtrl w :: s.cmds
      phase := .rest
      grain := .whole
      status := if s.status.state = .busy then ⟨.idle, none⟩ else s.status
      vcountWritten := true
      vstrideWritten := true
      buflenWritten := true
      overlap := false
      inLen := s.buflen }
  | .tag b => atPosition .vTag (withFrontBytes [b] s)
  | .selector w =>
    { atPosition .grDec (withFrontBytes (headerByte w 0 0 0 :: List.replicate Config.tailMax 0#8) s) with
      grain := .group
      hdr := 0
      g := 0
      pos := 1 }
  | .code2 c => atFirstCode .two c.toNat s
  | .code4 c => atFirstCode .four c.toNat s
  | .planePosition => atPosition .plane s
  | .unzigzagPosition => atPosition .unzigzag s
  | .deltaPosition => { atPosition .delta s with grain := .group }
  | .transposePosition => atPosition .transpose s
  | .commitPosition => atPosition .commit s
  | .blockPosition => atPosition .block s

end Sys2Proof.Machine
end

