-- ==== Sys2Proof/Machine/Step.lean ====
section
/-! DEFINITION. One step: what stands at the core's position is fetched, an instruction is run by `exec`, and the
unit's loop goes on. -/

namespace Sys2Proof.Machine

/-- One step of the machine (R204, R231). -/
def step (s : State) : Host.Outcome State Fault Refusal :=
  match fetch s with
  | .moved o => o
  | .run i t => resume (exec i t)

/-- The state whose next step fetches and runs the instruction of these table bits (log 17, log 18). -/
def State.withFetchWord (s : State) (nbits w : Nat) : State :=
  match rawOfTableWord nbits w with
  | some r => placeRaw r s
  | none => s

end Sys2Proof.Machine
end

