-- ==== Sys2Proof/Safety.lean ====
section
/-! DEFINITION. What counts as a safe state and a safe run, in the terms the statements use. -/

namespace Sys2Proof.Machine

/-- STATUS is legal: an error kind stands in it exactly when it says ERROR (R25). -/
def Status.legal (t : Status) : Bool := t.err.isSome == decide (t.state = .error)

/-- The arrays and spaces are in canonical form, and the arrays list no cell beyond their capacity (R27 to R29). -/
def State.memoriesOk (s : State) : Bool :=
  s.inMem.wf && s.outMem.rising
    && s.lastVertex.wf && s.lastVertex.below Config.strideMax
    && s.plane.wf && s.plane.below Config.maxBlock
    && s.tr.wf && s.tr.below Config.blockBytes

/-- The invariant of the machine: canonical spaces and arrays within capacity (R27 to R29), a legal STATUS (R25), BUSY
exactly while the core is inside a decode (R25, R204), and no OUT byte with a value after a failure (R199). -/
def State.Inv (s : State) : Bool :=
  s.memoriesOk && s.status.legal
    && (decide (s.status.state = .busy) == decide (s.phase ≠ .rest))
    && (decide (s.status.state ≠ .error) || decide (s.outMem = .empty))

/-- The host has done its part before START (R204, R222): the core rests, the operands are written, BUFLEN is what
was placed in IN, and OUT does not overlap IN. -/
def State.startable (s : State) : Bool :=
  decide (s.status.state ≠ .busy) && s.vcountWritten && s.vstrideWritten && s.buflenWritten
    && !s.overlap && decide (s.buflen = s.inLen)

/-- The operands and the frame pass steps 1 and 2 of a decode (R171 to R173). -/
def State.frameOk (s : State) : Bool :=
  strideOk s.stride && decide (1 + s.stride ≤ s.buflen) && decide (s.inByte 0 = Config.tag)

end Sys2Proof.Machine
end

