-- ==== Sys2Proof/Certificates/Slice0/Obligations.lean ====
section
/-! DEFINITION. The statements for the provers, and the words they are stated in. -/

namespace Sys2Proof.Spec

open Sys2Proof.Machine

/-- The 2-bit code of lane `j` of a group at the payload cursor, by the formula of R102. -/
def code2 (s : State) (j : Nat) : Nat := ((s.inByte (s.pos + j / 4)).toNat >>> (6 - 2 * (j % 4))) % 4

/-- The 4-bit code of lane `j` of a group at the payload cursor, by the formula of R103. -/
def code4 (s : State) (j : Nat) : Nat := ((s.inByte (s.pos + j / 2)).toNat >>> (4 - 4 * (j % 2))) % 16

/-- How many lanes below `n` are escapes (R107, R109). -/
def escapes (code : Nat → Nat) (sentinel n : Nat) : Nat :=
  (List.range n).countP fun j => code j == sentinel

/-- The value of lane `j`: its code, or the literal after the code bytes that its rank among the escapes picks
(R105, R106, R109). -/
def laneValue (s : State) (nCode : Nat) (code : Nat → Nat) (sentinel j : Nat) : Byte :=
  if code j = sentinel then s.inByte (s.pos + nCode + escapes code sentinel j)
  else BitVec.ofNat 8 (code j)

/-- `m` is `m0` with the sixteen cells of group `g` holding `val` (R125). -/
def HoldsGroup (m m0 : Memory) (g : Nat) (val : Nat → Byte) : Prop :=
  ∀ a, m.byte a = if 16 * g ≤ a ∧ a < 16 * g + 16 then val (a - 16 * g) else m0.byte a

/-- The chain of the current plane after `n` vertices: the seed plus the first `n` deltas, modulo 256 (R146). -/
def chain (s : State) (n : Nat) : Byte :=
  (List.range n).foldl (fun acc t => acc + unzigzagByte (s.plane.byte t)) (s.lastVertex.byte s.k)

/-- The state a failure of kind `e` leaves, from a state in which nothing else was done (R198, R199). -/
def failed (e : ErrorKind) (s : State) : State :=
  { s with status := ⟨.error, some e⟩, outMem := .empty, phase := .rest }

/-- The bytes a whole decode may consume at most: the tag, and for every plane of every block a header of 4 bytes and
16 groups of 24 bytes (R82, R92, R130). -/
def mostConsumed (s : State) : Nat :=
  1 + numBlocks s.count (blockSizeOf s.stride) * s.stride * (4 + 24 * 16)

/-- The codes the bit cursor hands out, `n` of them, from a state on (R110). -/
def codesTaken (b : CodeWidth) : Nat → State → Option (List Nat)
  | 0, _ => some []
  | n + 1, s =>
    match loadCodeByte s with
    | .ok t => (codesTaken b n (dropCode b t)).map fun l => t.frontCode b :: l
    | _ => none

/-- The zig-zag mapping of R141, the inverse of `unzigzag`. -/
def zigzagByte (r : Byte) : Byte := (r <<< 1) ^^^ (if r.toNat ≥ 0x80 then 0xFF#8 else 0x00#8)

/-- IN holds these bytes from an offset on. -/
def InHolds (s : State) (base : Nat) (bytes : List Byte) : Prop :=
  ∀ n, n < bytes.length → s.inByte (base + n) = bytes.getD n 0

/-- The count of block `b` of a decode (R178). -/
def blockCount (s : State) (b : Nat) : Nat :=
  min (blockSizeOf s.stride) (s.count - b * blockSizeOf s.stride)

/-- A frame in the notation of R90 fits the operands: the blocks the vertex count asks for (R71), `S` well-formed planes
in each (R72) with the groups its count asks for (R73), a trailer of `S` bytes, and enough filler for the margin of
the last group of the last plane, the bytes it consumes itself counted (R223). -/
def FrameFits (s : State) (f : FrameNote) : Prop :=
  f.blocks.length = numBlocks s.count (blockSizeOf s.stride) ∧
  (∀ b, b < f.blocks.length → (f.blocks.getD b []).length = s.stride ∧
    ∀ n ∈ f.blocks.getD b [], n.wellFormed = true ∧ n.groups.length = numGroups (blockCount s b)) ∧
  f.trailer.length = s.stride ∧
  ∀ n ∈ f.blocks.flatten.getLast?,
    32 ≤ f.filler.length + s.stride + 1
      + ((n.groups.getLast?.map (encodeGroup .msbFirst)).getD []).length

/-- The plane value of vertex `u` of the whole decode at record offset `k`, as the frame's notation gives it. -/
def frameDelta (s : State) (f : FrameNote) (u k : Nat) : Byte :=
  (((f.blocks.getD (u / blockSizeOf s.stride) []).getD k ⟨[], 0⟩).values).getD (u % blockSizeOf s.stride) 0

/-- Byte `k` of vertex `v` of the whole decode: the trailer byte plus the deltas of vertices `0 .. v` at that offset,
unbroken across blocks (R143, R146). -/
def frameByte (s : State) (f : FrameNote) (v k : Nat) : Byte :=
  (List.range (v + 1)).foldl (fun acc u => acc + unzigzagByte (frameDelta s f u k)) (f.trailer.getD k 0)

end Sys2Proof.Spec

section

open Sys2Proof Sys2Proof.Machine Sys2Proof.Spec

/-! ### Encoding -/

/-- Words written out from the spec's encodings decode to the instructions they stand for (R75, R84, R89, R91). -/
def Obligations.SpecWordsDecodeToTheirUnits : Prop :=
  decode (.tag 0b10100000#8) = .ok .frameTag ∧
  decode (.tag 0b10100001#8) = .error (.badTag 0xA1#8) ∧
  decode (.selector 0b00#2) = .ok .grpZero ∧
  decode (.selector 0b01#2) = .ok .grpPack2 ∧
  decode (.selector 0b10#2) = .ok .grpPack4 ∧
  decode (.selector 0b11#2) = .ok .grpRaw ∧
  decode (.code2 0b10#2) = .ok (.c2Lit 2#2) ∧
  decode (.code2 0b11#2) = .ok .c2Esc ∧
  decode (.code4 0b1110#4) = .ok (.c4Lit 14#4) ∧
  decode (.code4 0b1111#4) = .ok .c4Esc ∧
  decode (.ctrl 0x00000001#32) = .ok .decode ∧
  decode (.ctrl 0xFFFFFFFF#32) = .ok .decode ∧
  decode (.ctrl 0xFFFFFFFE#32) = .error .startClear

/-- Decoding an encoded well-formed instruction gives it back; and what decodes is well formed and encodes to the same
bits, a CTRL word apart, whose bits 31:1 are ignored (R24, R75, R81, R85, R89). -/
def Obligations.EncodeAndDecodeAgree : Prop :=
  (∀ i : Instr, i.wellFormed = true → decode (encode i) = .ok i) ∧
  ∀ (r : Raw) (i : Instr), decode r = .ok i →
    i.wellFormed = true ∧
      (encode i = r ∨ ∃ w : Word32, r = .ctrl w ∧ w.getLsbD 0 = true ∧ i = .decode)

/-- A group written in the stream notation is decoded to the values it was written for, and exactly its bytes are
consumed, at both code orders (R76 to R82, R90, R101 to R104). -/
def Obligations.GroupNotationRoundTrip : Prop :=
  ∀ (o : CodeOrder) (n : GroupNote) (rd : Nat → Byte) (pos : Nat), n.wellFormed = true →
    (∀ m, m < (encodeGroup o n).length → rd (pos + m) = (encodeGroup o n).getD m 0) →
    decodeGroup o n.selector rd pos = (n.values, pos + (encodeGroup o n).length)

/-- The header of a plane holds `ceil(numGroups/4)` bytes, and the selector field of every group in it is that group's
selector, whatever the spare fields hold (R74, R121, R123). -/
def Obligations.HeaderHoldsItsSelectors : Prop :=
  ∀ (spare : Byte) (sels : List (BitVec 2)),
    (encodeHeader spare sels).length = (sels.length + 3) / 4 ∧
    ∀ g, g < sels.length →
      selectorField ((encodeHeader spare sels).getD (g / 4) 0) g = sels.getD g 0

/-- PLANE on a plane written in the stream notation: the plane array holds the values it was written for, the cursor is
just past its bytes, and nothing but the working state of the plane moved, whatever the spare selector fields
hold; the margin hypothesis is exactly that of the last group (R73, R120, R124, R223). The code order and the end of the
input are the model's choices (log 8, log 9). -/
def Obligations.PlaneNotationIsDecoded : Prop :=
  ∀ (s : State) (n : PlaneNote), s.memoriesOk = true → n.wellFormed = true →
    numGroups s.cnt = n.groups.length →
    InHolds s s.pos (encodePlane .msbFirst n) →
    s.pos + (encodePlane .msbFirst n).length + 32
      ≤ s.buflen + ((n.groups.getLast?.map (encodeGroup .msbFirst)).getD []).length →
    ∃ pl ov j g, exec .plane s = .next { s with
        plane := pl
        pos := s.pos + (encodePlane .msbFirst n).length
        hdr := s.pos
        ov := ov
        j := j
        g := g } ∧
      ∀ a, pl.byte a = if a < 16 * n.groups.length then n.values.getD a 0 else s.plane.byte a

/-- DECODE on a buffer written in the stream notation for the operands: it ends DONE, every byte of the output is the
trailer byte of its offset plus the deltas of its vertex and all before it, unbroken across blocks, and the cursor
is just past the last block (R70 to R73, R143, R146, R154, R178, R181). Filler is asked for only as the margin of the last
group needs it. The code order, the end of the input, the trailer's place, and that a decode of no vertices ends DONE
are the model's choices (log 8, log 9, log 10, log 19). -/
def Obligations.FrameNotationIsDecoded : Prop :=
  ∀ (s : State) (f : FrameNote), s.startable = true → s.memoriesOk = true →
    strideOk s.stride = true → FrameFits s f →
    s.buflen = (encodeFrame .msbFirst f).length → InHolds s 0 (encodeFrame .msbFirst f) →
    ∃ t, exec .decode s = .next t ∧ t.status = ⟨.done, none⟩ ∧
      t.pos = 1 + (f.blocks.flatten.flatMap (encodePlane .msbFirst)).length ∧
      ∀ v k, v < s.count → k < s.stride → t.outMem.find (v * s.stride + k) = some (frameByte s f v k)

/-! ### U1: groups and codes -/

/-- GRP.ZERO: sixteen zeros into the group's cells, no byte consumed, nothing else moved; the lane counter may end
anywhere (R76, R101, R125). -/
def Obligations.GrpZeroWritesSixteenZeros : Prop :=
  ∀ s : State, s.memoriesOk = true → s.pos + 32 ≤ s.buflen → 16 * s.g + 16 ≤ 256 →
    ∃ pl j, HoldsGroup pl s.plane s.g (fun _ => 0x00#8) ∧
      exec .grpZero s = .next { s with plane := pl, j := j }

/-- GRP.PACK2: lane `j` is its 2-bit code, or for the code 3 the next literal after the four code bytes; the cursor
advances by 4 plus the number of escapes; nothing else moved (R102, R32, R125). Which two bits of a code byte are the
code of lane `j` is the model's choice of the code order, most significant bits first (log 8). -/
def Obligations.GrpPack2DecodesItsLanes : Prop :=
  ∀ s : State, s.memoriesOk = true → s.pos + 32 ≤ s.buflen → 16 * s.g + 16 ≤ 256 →
    ∃ pl j, HoldsGroup pl s.plane s.g (laneValue s 4 (code2 s) 3) ∧
      exec .grpPack2 s = .next { s with
        plane := pl
        pos := s.pos + 4 + escapes (code2 s) 3 16
        ov := s.pos + 4 + escapes (code2 s) 3 16
        j := j }

/-- GRP.PACK4: lane `j` is its 4-bit code, or for the code 15 the next literal after the eight code bytes; the cursor
advances by 8 plus the number of escapes; nothing else moved (R103, R32, R125). Which four bits of a code byte are the
code of lane `j` is the model's choice of the code order, most significant bits first (log 8). -/
def Obligations.GrpPack4DecodesItsLanes : Prop :=
  ∀ s : State, s.memoriesOk = true → s.pos + 32 ≤ s.buflen → 16 * s.g + 16 ≤ 256 →
    ∃ pl j, HoldsGroup pl s.plane s.g (laneValue s 8 (code4 s) 15) ∧
      exec .grpPack4 s = .next { s with
        plane := pl
        pos := s.pos + 8 + escapes (code4 s) 15 16
        ov := s.pos + 8 + escapes (code4 s) 15 16
        j := j }

/-- GRP.RAW: lane `j` is the byte at `pos + j`, sixteen bytes consumed, nothing else moved (R104, R125). -/
def Obligations.GrpRawCopiesSixteenBytes : Prop :=
  ∀ s : State, s.memoriesOk = true → s.pos + 32 ≤ s.buflen → 16 * s.g + 16 ≤ 256 →
    ∃ pl j, HoldsGroup pl s.plane s.g (fun j => s.inByte (s.pos + j)) ∧
      exec .grpRaw s = .next { s with plane := pl, pos := s.pos + 16, j := j }

/-- DecodeGroup delivers sixteen values and consumes 0, 4+e, 8+e or 16 bytes, e at most 16 (R100, R107). -/
def Obligations.GroupLengthIsItsCodesAndEscapes : Prop :=
  ∀ (o : CodeOrder) (w : BitVec 2) (rd : Nat → Byte) (pos : Nat),
    (decodeGroup o w rd pos).1.length = 16 ∧
    ∃ e, e ≤ 16 ∧
      (w = 0#2 → (decodeGroup o w rd pos).2 = pos) ∧
      (w = 1#2 → (decodeGroup o w rd pos).2 = pos + 4 + e ∧
        e = escapes (fun j => laneCode o 2 (rd (pos + j / 4)) j) 3 16) ∧
      (w = 2#2 → (decodeGroup o w rd pos).2 = pos + 8 + e ∧
        e = escapes (fun j => laneCode o 4 (rd (pos + j / 2)) j) 15 16) ∧
      (w = 3#2 → (decodeGroup o w rd pos).2 = pos + 16)

/-- DecodeGroup depends on the bytes it consumes and on no others (R100, R108, R111). -/
def Obligations.GroupReadsOnlyWhatItConsumes : Prop :=
  ∀ (o : CodeOrder) (w : BitVec 2) (rd rd' : Nat → Byte) (pos : Nat),
    (∀ a, pos ≤ a → a < (decodeGroup o w rd pos).2 → rd' a = rd a) →
    decodeGroup o w rd' pos = decodeGroup o w rd pos

/-- A group unit without its margin is refused (R108, U13); the refusal is the treatment U13 names (log 14). -/
def Obligations.GroupWithoutMarginIsRefused : Prop :=
  ∀ (s : State) (w : BitVec 2) (i : Instr), decode (.selector w) = .ok i → s.buflen < s.pos + 32 →
    exec i s = .refused .groupWithoutMargin

/-- C2.LIT and C4.LIT: the lane's value is the zero-extended code, and nothing else moved (R105, R125). -/
def Obligations.LiteralCodeIsTheLaneValue : Prop :=
  (∀ (s : State) (v : BitVec 2), s.memoriesOk = true → v ≠ 3#2 → 16 * s.g + s.j < 256 →
    ∃ pl, exec (.c2Lit v) s = .next { s with plane := pl } ∧
      ∀ a, pl.byte a = if a = 16 * s.g + s.j then v.setWidth 8 else s.plane.byte a) ∧
  (∀ (s : State) (v : BitVec 4), s.memoriesOk = true → v ≠ 15#4 → 16 * s.g + s.j < 256 →
    ∃ pl, exec (.c4Lit v) s = .next { s with plane := pl } ∧
      ∀ a, pl.byte a = if a = 16 * s.g + s.j then v.setWidth 8 else s.plane.byte a)

/-- C2.ESC and C4.ESC: the lane's value is the byte at the overflow cursor, which advances by 1, and nothing else
moved (R106, R125). -/
def Obligations.EscapeCodeTakesTheNextLiteral : Prop :=
  ∀ (s : State) (i : Instr), i = .c2Esc ∨ i = .c4Esc → s.memoriesOk = true →
    s.ov < s.buflen → 16 * s.g + s.j < 256 →
    ∃ pl, exec i s = .next { s with plane := pl, ov := s.ov + 1 } ∧
      ∀ a, pl.byte a = if a = 16 * s.g + s.j then s.inByte s.ov else s.plane.byte a

/-- The bit cursor hands out the same sixteen codes as the index formula (R110, R80), both in the
model's choice of the code order (log 8). -/
def Obligations.BitCursorYieldsTheLaneCodes : Prop :=
  ∀ (b : CodeWidth) (s : State), s.bitsConsumed = 0 → s.codeCursor + 2 * b.bits ≤ s.buflen →
    codesTaken b 16 s = some ((List.range 16).map fun j =>
      laneCode .msbFirst b.bits (s.inByte (s.codeCursor + j / (8 / b.bits))) j)

/-- A packed group taken code by code ends as the group taken whole: opening it and sixteen code steps leave the same
plane, cursors, group and position as the one group step (R109, R110, R231; the steps are log 1). -/
def Obligations.CodeStepsEndAsTheGroup : Prop :=
  ∀ s : State, s.memoriesOk = true → s.status.state = .busy → s.phase = .grDec → s.grain = .lane →
    isPacked s.selector = true → s.selectorOffset < s.buflen → s.pos + 32 ≤ s.buflen →
    16 * s.g + 16 ≤ 256 →
    ∃ t u, Host.Core.run Sys2Proof.core 17 s = .next t ∧ step { s with grain := .group } = .next u ∧
      (∀ a, t.plane.byte a = u.plane.byte a) ∧ t.pos = u.pos ∧ t.ov = u.ov ∧ t.g = u.g ∧
      t.phase = u.phase ∧ t.status = u.status ∧ t.tr = u.tr ∧ t.lastVertex = u.lastVertex ∧
      t.outMem = u.outMem

/-! ### U2: planes -/

/-- The groups and header bytes of a plane follow the count (R73, R121, R129, R152). -/
def Obligations.PlaneSizesFollowTheCount : Prop :=
  ∀ cnt, 1 ≤ cnt → cnt ≤ 256 →
    alignedCount cnt = (cnt + 15) / 16 * 16 ∧ numGroups cnt = (cnt + 15) / 16 ∧
    headerSize cnt = ((cnt + 15) / 16 + 3) / 4 ∧ numGroups cnt ≤ 16 ∧ 1 ≤ headerSize cnt ∧
    headerSize cnt ≤ 4

/-- PLANE with room for its groups is its header and then its groups in order, each the instruction its selector
field names, run on the state the one before left (R120 to R123, R125, R126). The room is measured to `N` (log 9). -/
def Obligations.PlaneRunsItsGroupsInOrder : Prop :=
  ∀ s : State, s.memoriesOk = true → 1 ≤ s.cnt → s.cnt ≤ 256 →
    s.pos + headerSize s.cnt + 24 * (numGroups s.cnt - 1) + 32 ≤ s.buflen →
    ∃ q : Nat → State,
      q 0 = { s with hdr := s.pos, pos := s.pos + headerSize s.cnt, g := 0 } ∧
      (∀ n, n < numGroups s.cnt → ∃ i u,
        decode (.selector (selectorField (s.inByte (s.pos + n / 4)) n)) = .ok i ∧
        exec i (q n) = .next u ∧ q (n + 1) = { u with g := n + 1 }) ∧
      exec .plane s = .next (q (numGroups s.cnt))

/-- A plane whose header leaves fewer than 32 bytes fails with TruncationError before anything is read (R122, R124,
R128). That the bytes are counted to `N` is the model's choice (log 9). -/
def Obligations.PlaneWithoutMarginTruncates : Prop :=
  ∀ s : State, 1 ≤ s.cnt → s.cnt ≤ 256 → s.buflen < s.pos + headerSize s.cnt + 32 →
    exec .plane s = .next (failed .truncation
      { s with hdr := s.pos, pos := s.pos + headerSize s.cnt, g := 0 })

/-- PLANE tests the margin on the payload cursor immediately before every group, `GRP.ZERO` included: while `pos + 32 ≤ N`
it runs the group its selector field names, and at the first group where that fails it raises TruncationError with
nothing of that group read or written (R120, R122 to R126). That the margin is measured from the payload cursor to `N`,
the end of the whole buffer, is the model's choice (log 9). -/
def Obligations.PlaneTestsTheMarginBeforeEveryGroup : Prop :=
  ∀ s : State, 1 ≤ s.cnt → s.cnt ≤ 256 →
    ∃ (q : Nat → State) (n : Nat), n ≤ numGroups s.cnt ∧
      q 0 = { s with hdr := s.pos, pos := s.pos + headerSize s.cnt, g := 0 } ∧
      (∀ m, m < n → (q m).pos + 32 ≤ s.buflen ∧ ∃ i u,
        decode (.selector (selectorField (s.inByte (s.pos + m / 4)) m)) = .ok i ∧
        exec i (q m) = .next u ∧ q (m + 1) = { u with g := m + 1 }) ∧
      (n = numGroups s.cnt ∧ exec .plane s = .next (q n) ∨
        n < numGroups s.cnt ∧ s.buflen < (q n).pos + 32 ∧
          exec .plane s = .next (failed .truncation (q n)))

/-- PLANE always ends: it returns with the cursor between its least and its most and at least 8 short of the buffer's
end, or it fails with TruncationError; it never ends in the fault that a read outside the buffer is (R120, R128, R130).
The buffer's end is that of log 9. -/
def Obligations.PlaneEndsInBounds : Prop :=
  ∀ s : State, s.memoriesOk = true → 1 ≤ s.cnt → s.cnt ≤ 256 →
    ∃ t, exec .plane s = .next t ∧
      (t.status = s.status ∧ s.pos + headerSize s.cnt ≤ t.pos ∧
          t.pos ≤ s.pos + headerSize s.cnt + 24 * numGroups s.cnt ∧ t.pos + 8 ≤ s.buflen ∨
        t.status = ⟨.error, some .truncation⟩)

/-! ### U3: zig-zag and chain -/

/-- `unzigzag` as signed numbers: even `2n` gives `n`, odd `2n+1` gives `-(n+1)`; and it is a bijection on bytes with the
inverse R141 gives (R140, R141, R83). -/
def Obligations.UnzigzagIsTheSignedDelta : Prop :=
  ∀ b : Byte,
    (unzigzagByte b).toInt =
      (if b.toNat % 2 = 0 then (b.toNat / 2 : Int) else -((b.toNat / 2 : Int) + 1)) ∧
    zigzagByte (unzigzagByte b) = b ∧ unzigzagByte (zigzagByte b) = b

/-- UNZIGZAG: the zig-zag inverse of the current plane value, and nothing else moved; that the result stands in the
latch `r` is the model's choice (R140, log 13). -/
def Obligations.UnzigzagReadsTheCurrentValue : Prop :=
  ∀ s : State, s.i < 256 → exec .unzigzag s = .next { s with
    r := (-(s.plane.byte s.i &&& 1#8)) ^^^ (s.plane.byte s.i >>> 1) }

/-- DELTA: the value of vertex `i` at offset `k` is the seed plus the deltas of vertices `0 .. i` modulo 256, at
`tr[i*S + k]`; no other cell and no other state moves but `p`, which ends as the last value, and the loop's own
`r`, `v`, `i` (R142, R144, R146). -/
def Obligations.DeltaIsThePrefixSum : Prop :=
  ∀ s : State, s.memoriesOk = true → s.k < s.stride → s.stride ≤ 256 → s.cnt ≤ 256 →
    s.cnt * s.stride ≤ 8192 →
    ∃ tr r v i, exec .delta s = .next { s with
        tr := tr
        p := chain s s.cnt
        r := r
        v := v
        i := i } ∧
      (∀ n, n < s.cnt → tr.byte (n * s.stride + s.k) = chain s (n + 1)) ∧
      (∀ a, (∀ n, n < s.cnt → a ≠ n * s.stride + s.k) → tr.byte a = s.tr.byte a)

/-- Padding lanes are not chained: cells of the plane at or beyond the count change nothing of DELTA (R145, R87). -/
def Obligations.DeltaIgnoresPaddingLanes : Prop :=
  ∀ (s t : State) (m : Memory), (∀ a, a < s.cnt → m.byte a = s.plane.byte a) →
    exec .delta s = .next t → exec .delta { s with plane := m } = .next { t with plane := m }

/-- A chain taken value by value ends as the chain taken whole (R142, R146, R231; the steps are log 1). -/
def Obligations.ValueStepsEndAsTheChain : Prop :=
  ∀ s : State, s.memoriesOk = true → s.status.state = .busy → s.phase = .delta → s.grain = .lane →
    s.k < s.stride → s.stride ≤ 256 → 1 ≤ s.cnt → s.cnt ≤ 256 → s.cnt * s.stride ≤ 8192 →
    ∃ t u, Host.Core.run Sys2Proof.core (1 + 2 * s.cnt) s = .next t ∧ exec .delta s = .next u ∧
      t.tr = u.tr ∧ t.p = u.p ∧ t.k = s.k + 1 ∧ t.plane = u.plane ∧ t.pos = u.pos ∧
      t.lastVertex = u.lastVertex ∧ t.outMem = u.outMem ∧ t.status = u.status ∧
      t.phase = if s.k + 1 < s.stride then .plHdr else .commit

/-- TRANSPOSE: the current value goes to `tr[i*S + k]`, and nothing else moved; that the value stands in the latch `v`
is the model's choice (R154, log 13). -/
def Obligations.TransposeWritesOneCell : Prop :=
  ∀ s : State, s.memoriesOk = true → s.i * s.stride + s.k < 8192 →
    ∃ tr, exec .transpose s = .next { s with tr := tr } ∧
      ∀ a, tr.byte a = if a = s.i * s.stride + s.k then s.v else s.tr.byte a

/-! ### U4: blocks -/

/-- COMMIT: `OUT[voff*S + a]` takes `tr[a]` for the `cnt*S` bytes of the block; every other byte of OUT is as before and
nothing else moved (R155, R59). -/
def Obligations.CommitCopiesTheBlock : Prop :=
  ∀ s : State, s.cnt * s.stride ≤ 8192 → s.voff + s.cnt ≤ s.count →
    ∃ m, exec .commit s = .next { s with outMem := m } ∧
      ∀ a, m.find a =
        if s.voff * s.stride ≤ a ∧ a < (s.voff + s.cnt) * s.stride
        then some (s.tr.byte (a - s.voff * s.stride)) else s.outMem.find a

/-- A block of no vertices or of more than 256 fails with ArgumentError before anything is read or written (R151). That
the kind for more than 256 is ArgumentError is the model's choice (log 20). -/
def Obligations.BlockChecksItsCountFirst : Prop :=
  ∀ s : State, s.cnt = 0 ∨ s.cnt > 256 → exec .block s = .next (failed .argument s)

/-- BLOCK with room is its `S` planes in ascending order, each PLANE and then DELTA on the state the one before left,
then COMMIT, then the carry update (R150, R153, R155, R156). That the room is measured to `N` is the model's choice
(log 9). -/
def Obligations.BlockRunsItsPlanesThenCommits : Prop :=
  ∀ s : State, s.memoriesOk = true → strideOk s.stride = true → 1 ≤ s.cnt → s.cnt ≤ 256 →
    s.cnt * s.stride ≤ 8192 → s.voff + s.cnt ≤ s.count →
    s.pos + s.stride * (headerSize s.cnt + 24 * numGroups s.cnt) + 32 ≤ s.buflen →
    ∃ (q : Nat → State) (x : State) (lv : Memory),
      q 0 = { s with k := 0 } ∧
      (∀ n, n < s.stride → ∃ u w, exec .plane (q n) = .next u ∧ exec .delta u = .next w ∧
        q (n + 1) = { w with k := n + 1 }) ∧
      exec .commit (q s.stride) = .next x ∧
      exec .block s = .next { x with lastVertex := lv } ∧
      ∀ a, lv.byte a =
        if a < s.stride then x.tr.byte ((s.cnt - 1) * s.stride + a) else s.lastVertex.byte a

/-- A block that fails in a plane raises TruncationError from a state in which COMMIT and the carry update have not run:
OUT, the carry and the vertex offset are as the block found them; the failure then gives OUT no value (R155, R156, R160,
R199). -/
def Obligations.FailedBlockCommitsNothing : Prop :=
  ∀ s t : State, s.status.state ≠ .error → 1 ≤ s.cnt → s.cnt ≤ 256 →
    exec .block s = .next t → t.status.state = .error →
    ∃ u, blockUnit s = .raised .truncation u ∧ u.outMem = s.outMem ∧ u.lastVertex = s.lastVertex ∧
      u.voff = s.voff ∧ t = failed .truncation u

/-! ### U5: the top level -/

/-- FRAME.TAG: on `0xA0` the tag is consumed and nothing else moved, on any other byte it is a FormatError (R173, R84);
that the payload cursor then stands at 1 is read from "the stream proper starts at offset 1" (log 23). -/
def Obligations.FrameTagIsComparedAndConsumed : Prop :=
  ∀ s : State, 0 < s.buflen →
    (s.inByte 0 = 0xA0#8 → exec .frameTag s = .next { s with pos := 1 }) ∧
    (s.inByte 0 ≠ 0xA0#8 → exec .frameTag s = .next (failed .format s))

/-- A stride outside `[1, 256]` or not a multiple of 4 is an ArgumentError, whatever the buffer and the other operands
hold, with nothing moved before it; and a legal stride never is one (R170, R171, R180, R191,
R197). That a decode of no vertices is not one either is the model's choice (log 19). -/
def Obligations.OnlyAnIllegalStrideIsAnArgumentError : Prop :=
  ∀ s : State, s.startable = true →
    ((s.stride < 1 ∨ s.stride > 256 ∨ s.stride % 4 ≠ 0) → exec .decode s = .next (failed .argument s)) ∧
    (1 ≤ s.stride → s.stride ≤ 256 → s.stride % 4 = 0 →
      ∀ t, exec .decode s = .next t → t.status.err ≠ some .argument)

/-- With a legal stride, a buffer shorter than `1 + S` is a FormatError, whatever it holds (R172, R197). -/
def Obligations.ShortBufferIsAFormatError : Prop :=
  ∀ s : State, s.startable = true → 1 ≤ s.stride → s.stride ≤ 256 → s.stride % 4 = 0 →
    s.buflen < 1 + s.stride → exec .decode s = .next (failed .format s)

/-- With a legal stride and length, a byte 0 other than `0xA0` is a FormatError (R173, R84, R197). -/
def Obligations.WrongTagIsAFormatError : Prop :=
  ∀ s : State, s.startable = true → 1 ≤ s.stride → s.stride ≤ 256 → s.stride % 4 = 0 →
    1 + s.stride ≤ s.buflen → s.inByte 0 ≠ 0xA0#8 → exec .decode s = .next (failed .format s)

/-- A decode of no vertices succeeds with OUT as it was, the carry seeded from the trailer and no block requested
(R180, R174, R175, R176). That it succeeds is the model's choice (log 19), and so is the trailer's place, the `S` bytes
from offset `N-1-S` on (log 10). -/
def Obligations.NoVerticesDecodeToNothing : Prop :=
  ∀ s : State, s.startable = true → s.memoriesOk = true → s.frameOk = true → s.count = 0 →
    ∃ lv, exec .decode s = .next { s with
        status := ⟨.done, none⟩
        lastVertex := lv
        blockSize := blockSizeOf s.stride
        pos := 1
        voff := 0
        phase := .rest } ∧
      ∀ a, lv.byte a =
        if a < s.stride then s.inByte (s.buflen - 1 - s.stride + a) else s.lastVertex.byte a

/-- The block size of every legal stride is the formula's value: a multiple of 16 between 32 and 256 whose block fits
8192 bytes (R176, R177). -/
def Obligations.BlockSizeOfEveryStride : Prop :=
  ∀ S, strideOk S = true →
    blockSizeOf S = min 256 (8192 / S / 16 * 16) ∧ blockSizeOf S % 16 = 0 ∧
    32 ≤ blockSizeOf S ∧ blockSizeOf S ≤ 256 ∧ blockSizeOf S * S ≤ 8192

/-- A buffer of at most `S + 32` bytes cannot decode a vertex: TruncationError (R186). That the margin is measured to
`N` is the model's choice (log 9). -/
def Obligations.TooShortForAVertexTruncates : Prop :=
  ∀ s : State, s.startable = true → s.memoriesOk = true → s.frameOk = true → 1 ≤ s.count →
    s.buflen ≤ s.stride + 32 →
    ∃ t, exec .decode s = .next t ∧ t.status = ⟨.error, some .truncation⟩

/-- A decode the host may start always ends, DONE or with one of the three errors, at rest; it never ends in the fault that
an access outside the spaces and arrays is (R128, R159, R170, R184, R204). -/
def Obligations.DecodeAlwaysEnds : Prop :=
  ∀ s : State, s.startable = true → s.memoriesOk = true → s.phase = .rest →
    ∃ t, exec .decode s = .next t ∧ t.phase = .rest ∧
      (t.status = ⟨.done, none⟩ ∨ ∃ e, t.status = ⟨.error, some e⟩)

/-- A valid frame long enough for the most its planes may consume decodes to DONE, whatever its bytes are (R130, R170,
R181). That the room is measured to `N`, and that a decode of no vertices ends DONE, are the model's choices
(log 9, log 19). -/
def Obligations.DecodeWithRoomSucceeds : Prop :=
  ∀ s : State, s.startable = true → s.memoriesOk = true → s.frameOk = true →
    mostConsumed s + 32 ≤ s.buflen →
    ∃ t, exec .decode s = .next t ∧ t.status = ⟨.done, none⟩

/-- After a decode that ends DONE every byte `[0 .. vertexCount*S)` of OUT has a value, the rest of OUT is as before, the
carry is the last record of the output, and the operands and IN stand as the host left them (R59, R179, R181). -/
def Obligations.DoneDecodeWritesExactlyItsOutput : Prop :=
  ∀ s t : State, s.startable = true → s.memoriesOk = true → exec .decode s = .next t →
    t.status.state = .done →
    (∀ a, a < s.count * s.stride → (t.outMem.find a).isSome = true) ∧
    (∀ a, s.count * s.stride ≤ a → t.outMem.find a = s.outMem.find a) ∧
    (1 ≤ s.count → ∀ k, k < s.stride →
      t.outMem.find ((s.count - 1) * s.stride + k) = some (t.lastVertex.byte k)) ∧
    t.vcount = s.vcount ∧ t.vstride = s.vstride ∧ t.buflen = s.buflen ∧ t.inMem = s.inMem

/-- The result of a decode is a function of the operands and `IN[0 .. N)`: any two startable states that agree on those
end with the same STATUS and, when DONE, the same output, whatever their other memories, cursors, earlier results
and IN bytes at or beyond N (R61, R67, R183, R221). -/
def Obligations.DecodeIsAFunctionOfItsInputs : Prop :=
  ∀ s s' t t' : State, s.startable = true → s'.startable = true →
    s.memoriesOk = true → s'.memoriesOk = true →
    s'.vcount = s.vcount → s'.vstride = s.vstride → s'.buflen = s.buflen →
    (∀ a, a < s.buflen → s'.inByte a = s.inByte a) →
    exec .decode s = .next t → exec .decode s' = .next t' →
    t'.status = t.status ∧
      (t.status.state = .done → ∀ a, a < s.count * s.stride → t'.outMem.find a = t.outMem.find a)

/-- START before the three operand registers were written since reset is refused (R204, R40). -/
def Obligations.StartBeforeOperandsIsRefused : Prop :=
  ∀ s : State, s.status.state ≠ .busy →
    (s.vcountWritten = false ∨ s.vstrideWritten = false ∨ s.buflenWritten = false) →
    exec .decode s = .refused .operandUnwritten

/-- With the operands written, START on overlapping spaces is refused, and on disjoint spaces so is a BUFLEN that is not
what the host placed (R65, U8, U15; the flag and the count are the model's own fields, log 5, log 6). -/
def Obligations.StartOnBadSpacesIsRefused : Prop :=
  ∀ s : State, s.status.state ≠ .busy → s.vcountWritten = true → s.vstrideWritten = true →
    s.buflenWritten = true →
    (s.overlap = true → exec .decode s = .refused .inOutOverlap) ∧
    (s.overlap = false → s.buflen ≠ s.inLen → exec .decode s = .refused .buflenMismatch)

/-- START while BUSY is ignored (R24, R204). -/
def Obligations.StartWhileBusyIsIgnored : Prop :=
  ∀ s : State, s.status.state = .busy → exec .decode s = .next s

/-! ### Failures -/

/-- Whatever instruction fails, the core ends in ERROR with a kind, at rest, with no byte of OUT given a value, and
the failure changed no operand, no byte of IN and no pending host transaction (R195, R198, R199). -/
def Obligations.EveryFailureIsTheOneEntry : Prop :=
  ∀ (i : Instr) (s t : State), exec i s = .next t → s.status.state ≠ .error →
    t.status.state = .error →
    t.status.err.isSome = true ∧ t.phase = .rest ∧ t.outMem = .empty ∧ t.vcount = s.vcount ∧
      t.vstride = s.vstride ∧ t.buflen = s.buflen ∧ t.inMem = s.inMem ∧ t.cmds = s.cmds

/-! ### The host's side -/

/-- After reset STATUS is IDLE with no error and reads 0, the core is at rest, no operand counts as written, and the core
only waits; and a reset the host asserts puts STATUS there, leaves no byte of OUT a value and IN as it was (R40, R220,
R231). -/
def Obligations.ResetLeavesTheCoreIdle : Prop :=
  State.reset.status = ⟨.idle, none⟩ ∧ State.reset.readReg .status = 0 ∧ State.reset.phase = .rest ∧
    State.reset.vcountWritten = false ∧ State.reset.vstrideWritten = false ∧
    State.reset.buflenWritten = false ∧ step State.reset = .next State.reset ∧
    ∀ (s : State) (rest : List HostCmd), s.phase = .rest → s.cmds = .reset :: rest →
      ∃ t, step s = .next t ∧ t.status = ⟨.idle, none⟩ ∧ t.phase = .rest ∧ t.cmds = rest ∧
        t.outMem = .empty ∧ t.inMem = s.inMem ∧ t.vcountWritten = false ∧
        t.vstrideWritten = false ∧ t.buflenWritten = false

/-- The STATUS word: state in bits 1:0, err in bits 3:2, bits 31:4 zero (R25, R194). The numbers of the states and of
the errors are the model's choice (log 25). -/
def Obligations.StatusWordLayout : Prop :=
  ∀ t : Status,
    (t.word.extractLsb' 0 2).toNat =
      (match t.state with | .idle => 0 | .busy => 1 | .done => 2 | .error => 3) ∧
    (t.word.extractLsb' 2 2).toNat =
      (match t.err with | none => 0 | some .argument => 1 | some .format => 2 | some .truncation => 3) ∧
    (t.word.extractLsb' 4 28).toNat = 0

/-- A host write of an operand register while no decode runs: the register takes the value, it counts as written, and
nothing else changes; a CTRL write with START clear does nothing, whatever its other bits (R21 to R24). -/
def Obligations.HostWritesSetTheOperands : Prop :=
  ∀ (s : State) (rest : List HostCmd), s.phase = .rest → s.status.state ≠ .busy →
    (∀ n, s.cmds = .writeVcount n :: rest →
      step s = .next { s with cmds := rest, vcount := n, vcountWritten := true }) ∧
    (∀ n, s.cmds = .writeVstride n :: rest →
      step s = .next { s with cmds := rest, vstride := n, vstrideWritten := true }) ∧
    (∀ n, s.cmds = .writeBuflen n :: rest →
      step s = .next { s with cmds := rest, buflen := n, buflenWritten := true }) ∧
    (∀ w, s.cmds = .writeCtrl w :: rest → w.getLsbD 0 = false →
      step s = .next { s with cmds := rest })

/-- Host reads have no side effect but the value returned: CTRL reads 0, STATUS its word, an operand register its
value (R24, R25, R205). -/
def Obligations.HostReadsHaveNoSideEffect : Prop :=
  ∀ (s : State) (rest : List HostCmd), s.phase = .rest → s.status.state ≠ .busy →
    (s.cmds = .readReg .ctrl :: rest → step s = .next { s with cmds := rest, rdata := 0 }) ∧
    (s.cmds = .readReg .status :: rest →
      step s = .next { s with cmds := rest, rdata := s.status.word.toNat }) ∧
    (s.cmds = .readReg .vcount :: rest →
      step s = .next { s with cmds := rest, rdata := s.vcount.toNat }) ∧
    (s.cmds = .readReg .vstride :: rest →
      step s = .next { s with cmds := rest, rdata := s.vstride.toNat }) ∧
    (s.cmds = .readReg .buflen :: rest → step s = .next { s with cmds := rest, rdata := s.buflen })

/-- A host read of an OUT byte returns its value where it has one; where it has none, as after a failure, it returns a
free value and the next read draws another (R199, R205, U2). -/
def Obligations.OutReadsReturnValueOrDraw : Prop :=
  ∀ (s : State) (rest : List HostCmd) (a : Nat), s.phase = .rest → s.status.state ≠ .busy →
    s.cmds = .readOut a :: rest →
    (∀ x, s.outMem.find a = some x → step s = .next { s with cmds := rest, rdata := x.toNat }) ∧
    (s.outMem.find a = none → ∃ y : Byte,
      step s = .next { s with cmds := rest, rdata := y.toNat, draws := s.draws + 1 })

/-- Placing a buffer in IN: every byte reads as placed, what is beyond reads 00, and nothing else but the count of placed
bytes changes (R50, R204). That what is beyond reads 00, and that the count is a field, are the model's choices
(log 5). -/
def Obligations.LoadedBufferReadsBack : Prop :=
  ∀ (s : State) (rest : List HostCmd) (bytes : List Byte), s.phase = .rest → s.status.state ≠ .busy →
    s.cmds = .loadIn bytes :: rest →
    ∃ m, step s = .next { s with cmds := rest, inMem := m, inLen := bytes.length } ∧
      ∀ a, m.byte a = bytes.getD a 0

/-! ### The machine -/

/-- A step runs the instruction that the bits at the core's position decode to, then lets its loop go on (R204, R231);
the positions that R231 does not name are the model's own (log 1). -/
def Obligations.StepRunsTheDecodedInstruction : Prop :=
  ∀ s : State,
    (∀ w rest, s.phase = .rest → s.cmds = .writeCtrl w :: rest → s.grain = .whole →
      ∀ i, decode (.ctrl w) = .ok i → step s = exec i { s with cmds := rest }) ∧
    (∀ i, s.phase = .vTag → 0 < s.buflen → decode (.tag (s.inByte 0)) = .ok i →
      step s = resume (exec i s)) ∧
    (∀ i, s.phase = .grDec → s.hdr + s.g / 4 < s.buflen →
      ¬ (s.grain = .lane ∧ isPacked s.selector = true) →
      decode (.selector (selectorField (s.inByte (s.hdr + s.g / 4)) s.g)) = .ok i →
      step s = resume (exec i s)) ∧
    (∀ b t i, s.phase = .code b → loadCodeByte s = .ok t →
      decode (rawCode b (t.frontCode b)) = .ok i → step s = resume (exec i (dropCode b t))) ∧
    (s.phase = .block → step s = resume (exec .block s)) ∧
    (s.phase = .plane → step s = resume (exec .plane s)) ∧
    (s.phase = .delta → s.grain ≠ .lane → step s = resume (exec .delta s)) ∧
    (s.phase = .unzigzag → step s = resume (exec .unzigzag s)) ∧
    (s.phase = .transpose → step s = resume (exec .transpose s)) ∧
    (s.phase = .commit → step s = resume (exec .commit s))

/-- What a unit's loop does once the unit has run: nothing after a failure or the host command, and at each position
the counter, the cursor and the next position, the carry update after COMMIT included (R156, R231). The positions of a
whole block, a whole plane, one code and one value are the model's own between those of R231 (log 1), so are the latches
`r` and `v` that a value passes through (log 13), and what the loop moves and what its unit is the model's choice
(log 16). -/
def Obligations.LoopsGoOnAfterTheirUnits : Prop :=
  ∀ t : State,
    (t.phase = .rest → resume (.next t) = .next t) ∧
    (t.phase = .vTag → resume (.next t) = .next { t with phase := .seed }) ∧
    (t.phase = .grDec → resume (.next t) = .next { t with
      g := t.g + 1
      phase := if t.g + 1 < numGroups t.cnt then .grChk else .delta }) ∧
    (∀ b, t.phase = .code b → t.j < 15 → resume (.next t) = .next { t with j := t.j + 1 }) ∧
    (∀ b, t.phase = .code b → t.j = 15 → resume (.next t) = .next { t with
      j := 16
      pos := t.ov
      g := t.g + 1
      phase := if t.g + 1 < numGroups t.cnt then .grChk else .delta }) ∧
    (t.phase = .block → resume (.next t) = .next { t with voff := t.voff + t.cnt, phase := .blk }) ∧
    (t.phase = .plane → resume (.next t) = .next { t with phase := .delta }) ∧
    (t.phase = .delta → t.k + 1 = t.stride →
      resume (.next t) = .next { t with k := t.k + 1, phase := .commit }) ∧
    (t.phase = .delta → t.k + 1 < t.stride → resume (.next t) = .next { t with
      k := t.k + 1
      phase := if t.grain = .plane then .plane else .plHdr }) ∧
    (t.phase = .unzigzag → resume (.next t) = .next { t with v := t.r + t.p, phase := .transpose }) ∧
    (t.phase = .transpose → t.i + 1 < t.cnt →
      resume (.next t) = .next { t with p := t.v, i := t.i + 1, phase := .unzigzag }) ∧
    (t.phase = .transpose → t.i + 1 = t.cnt → resume (.next t) = .next { t with
      p := t.v
      i := t.i + 1
      k := t.k + 1
      phase := if t.k + 1 < t.stride then (if t.grain = .plane then .plane else .plHdr) else .commit }) ∧
    (t.phase = .commit → t.memoriesOk = true → t.stride ≤ 256 → ∃ lv,
      resume (.next t) = .next { t with lastVertex := lv, voff := t.voff + t.cnt, phase := .blk } ∧
      ∀ a, lv.byte a =
        if a < t.stride then t.tr.byte ((t.cnt - 1) * t.stride + a) else t.lastVertex.byte a)

/-- The invariant holds after reset. -/
def Obligations.InvariantHoldsAtReset : Prop := State.reset.Inv = true

/-- Every step keeps the invariant: canonical spaces, arrays within their capacity, a legal STATUS, BUSY exactly inside
a decode, no OUT byte with a value after a failure (R25, R27 to R29, R199, R204). -/
def Obligations.EveryStepKeepsTheInvariant : Prop :=
  ∀ s t : State, s.Inv = true → step s = .next t → t.Inv = true

/-- No instruction writes IN, an operand register or the host's transactions (R21 to R23, R41, R42, R50). -/
def Obligations.NoInstructionWritesItsInput : Prop :=
  ∀ (i : Instr) (s t : State), exec i s = .next t →
    t.inMem = s.inMem ∧ t.inLen = s.inLen ∧ t.overlap = s.overlap ∧ t.vcount = s.vcount ∧
      t.vstride = s.vstride ∧ t.buflen = s.buflen ∧ t.vcountWritten = s.vcountWritten ∧
      t.vstrideWritten = s.vstrideWritten ∧ t.buflenWritten = s.buflenWritten ∧ t.cmds = s.cmds ∧
      t.rdata = s.rdata ∧ t.draws = s.draws ∧ t.grain = s.grain

/-- Only COMMIT, alone or inside BLOCK and DECODE, writes OUT: any other instruction leaves it or, failing, leaves it with no
value (R42, R51, R155, R199). -/
def Obligations.OnlyCommitWritesOut : Prop :=
  ∀ (i : Instr) (s t : State), i ≠ .commit → i ≠ .block → i ≠ .decode → exec i s = .next t →
    t.outMem = s.outMem ∨ (t.status.state = .error ∧ t.outMem = .empty)

/-- A decode stepped at any finer grain ends, after finitely many steps, with the same STATUS and the same OUT as the
atomic DECODE (R231, D1, D20). -/
def Obligations.SteppedDecodeEndsAsTheAtomicOne : Prop :=
  ∀ (s : State) (w : Word32), s.startable = true → s.Inv = true → s.phase = .rest → s.grain ≠ .whole →
    s.cmds = [.writeCtrl w] → w.getLsbD 0 = true →
    ∃ n t u, Host.Core.run Sys2Proof.core n s = .next t ∧ t.phase = .rest ∧
      exec .decode { s with cmds := [] } = .next u ∧ t.status = u.status ∧ t.outMem = u.outMem

end
end

