-- ==== Sys2Proof/Laws/State.lean ====
section
/-! SUPPORT. One lemma per field for each named update of State, true by rfl: what the field is after it. Later proofs
cite these (they are simp lemmas) and never unfold a record update. -/

namespace Sys2Proof.Machine

variable (s : State)

@[simp] theorem takeError_vcount (e : ErrorKind) : (takeError e s).vcount = s.vcount := rfl
@[simp] theorem takeError_vstride (e : ErrorKind) : (takeError e s).vstride = s.vstride := rfl
@[simp] theorem takeError_buflen (e : ErrorKind) : (takeError e s).buflen = s.buflen := rfl
@[simp] theorem takeError_vcountWritten (e : ErrorKind) : (takeError e s).vcountWritten = s.vcountWritten := rfl
@[simp] theorem takeError_vstrideWritten (e : ErrorKind) : (takeError e s).vstrideWritten = s.vstrideWritten := rfl
@[simp] theorem takeError_buflenWritten (e : ErrorKind) : (takeError e s).buflenWritten = s.buflenWritten := rfl
@[simp] theorem takeError_status (e : ErrorKind) : (takeError e s).status = ⟨.error, some e⟩ := rfl
@[simp] theorem takeError_blockSize (e : ErrorKind) : (takeError e s).blockSize = s.blockSize := rfl
@[simp] theorem takeError_lastVertex (e : ErrorKind) : (takeError e s).lastVertex = s.lastVertex := rfl
@[simp] theorem takeError_plane (e : ErrorKind) : (takeError e s).plane = s.plane := rfl
@[simp] theorem takeError_tr (e : ErrorKind) : (takeError e s).tr = s.tr := rfl
@[simp] theorem takeError_pos (e : ErrorKind) : (takeError e s).pos = s.pos := rfl
@[simp] theorem takeError_hdr (e : ErrorKind) : (takeError e s).hdr = s.hdr := rfl
@[simp] theorem takeError_ov (e : ErrorKind) : (takeError e s).ov = s.ov := rfl
@[simp] theorem takeError_voff (e : ErrorKind) : (takeError e s).voff = s.voff := rfl
@[simp] theorem takeError_cnt (e : ErrorKind) : (takeError e s).cnt = s.cnt := rfl
@[simp] theorem takeError_k (e : ErrorKind) : (takeError e s).k = s.k := rfl
@[simp] theorem takeError_g (e : ErrorKind) : (takeError e s).g = s.g := rfl
@[simp] theorem takeError_i (e : ErrorKind) : (takeError e s).i = s.i := rfl
@[simp] theorem takeError_j (e : ErrorKind) : (takeError e s).j = s.j := rfl
@[simp] theorem takeError_inputByte (e : ErrorKind) : (takeError e s).inputByte = s.inputByte := rfl
@[simp] theorem takeError_bitsConsumed (e : ErrorKind) : (takeError e s).bitsConsumed = s.bitsConsumed := rfl
@[simp] theorem takeError_codeCursor (e : ErrorKind) : (takeError e s).codeCursor = s.codeCursor := rfl
@[simp] theorem takeError_p (e : ErrorKind) : (takeError e s).p = s.p := rfl
@[simp] theorem takeError_r (e : ErrorKind) : (takeError e s).r = s.r := rfl
@[simp] theorem takeError_v (e : ErrorKind) : (takeError e s).v = s.v := rfl
@[simp] theorem takeError_inMem (e : ErrorKind) : (takeError e s).inMem = s.inMem := rfl
@[simp] theorem takeError_inLen (e : ErrorKind) : (takeError e s).inLen = s.inLen := rfl
@[simp] theorem takeError_overlap (e : ErrorKind) : (takeError e s).overlap = s.overlap := rfl
@[simp] theorem takeError_outMem (e : ErrorKind) : (takeError e s).outMem = .empty := rfl
@[simp] theorem takeError_cmds (e : ErrorKind) : (takeError e s).cmds = s.cmds := rfl
@[simp] theorem takeError_rdata (e : ErrorKind) : (takeError e s).rdata = s.rdata := rfl
@[simp] theorem takeError_draws (e : ErrorKind) : (takeError e s).draws = s.draws := rfl
@[simp] theorem takeError_phase (e : ErrorKind) : (takeError e s).phase = .rest := rfl
@[simp] theorem takeError_grain (e : ErrorKind) : (takeError e s).grain = s.grain := rfl
@[simp] theorem takeError_count (e : ErrorKind) : (takeError e s).count = s.count := rfl
@[simp] theorem takeError_stride (e : ErrorKind) : (takeError e s).stride = s.stride := rfl
@[simp] theorem takeError_inputEnd (e : ErrorKind) : (takeError e s).inputEnd = s.inputEnd := rfl
@[simp] theorem takeError_selectorOffset (e : ErrorKind) : (takeError e s).selectorOffset = s.selectorOffset := rfl
@[simp] theorem takeError_trIndex (e : ErrorKind) : (takeError e s).trIndex = s.trIndex := rfl
@[simp] theorem takeError_nextCount (e : ErrorKind) : (takeError e s).nextCount = s.nextCount := rfl
@[simp] theorem takeError_inByte (e : ErrorKind) (a : Nat) : (takeError e s).inByte a = s.inByte a := rfl
@[simp] theorem takeError_trailerByte (e : ErrorKind) (a : Nat) : (takeError e s).trailerByte a = s.trailerByte a := rfl

@[simp] theorem finishDone_vcount : (finishDone s).vcount = s.vcount := rfl
@[simp] theorem finishDone_vstride : (finishDone s).vstride = s.vstride := rfl
@[simp] theorem finishDone_buflen : (finishDone s).buflen = s.buflen := rfl
@[simp] theorem finishDone_vcountWritten : (finishDone s).vcountWritten = s.vcountWritten := rfl
@[simp] theorem finishDone_vstrideWritten : (finishDone s).vstrideWritten = s.vstrideWritten := rfl
@[simp] theorem finishDone_buflenWritten : (finishDone s).buflenWritten = s.buflenWritten := rfl
@[simp] theorem finishDone_status : (finishDone s).status = ⟨.done, none⟩ := rfl
@[simp] theorem finishDone_blockSize : (finishDone s).blockSize = s.blockSize := rfl
@[simp] theorem finishDone_lastVertex : (finishDone s).lastVertex = s.lastVertex := rfl
@[simp] theorem finishDone_plane : (finishDone s).plane = s.plane := rfl
@[simp] theorem finishDone_tr : (finishDone s).tr = s.tr := rfl
@[simp] theorem finishDone_pos : (finishDone s).pos = s.pos := rfl
@[simp] theorem finishDone_hdr : (finishDone s).hdr = s.hdr := rfl
@[simp] theorem finishDone_ov : (finishDone s).ov = s.ov := rfl
@[simp] theorem finishDone_voff : (finishDone s).voff = s.voff := rfl
@[simp] theorem finishDone_cnt : (finishDone s).cnt = s.cnt := rfl
@[simp] theorem finishDone_k : (finishDone s).k = s.k := rfl
@[simp] theorem finishDone_g : (finishDone s).g = s.g := rfl
@[simp] theorem finishDone_i : (finishDone s).i = s.i := rfl
@[simp] theorem finishDone_j : (finishDone s).j = s.j := rfl
@[simp] theorem finishDone_inputByte : (finishDone s).inputByte = s.inputByte := rfl
@[simp] theorem finishDone_bitsConsumed : (finishDone s).bitsConsumed = s.bitsConsumed := rfl
@[simp] theorem finishDone_codeCursor : (finishDone s).codeCursor = s.codeCursor := rfl
@[simp] theorem finishDone_p : (finishDone s).p = s.p := rfl
@[simp] theorem finishDone_r : (finishDone s).r = s.r := rfl
@[simp] theorem finishDone_v : (finishDone s).v = s.v := rfl
@[simp] theorem finishDone_inMem : (finishDone s).inMem = s.inMem := rfl
@[simp] theorem finishDone_inLen : (finishDone s).inLen = s.inLen := rfl
@[simp] theorem finishDone_overlap : (finishDone s).overlap = s.overlap := rfl
@[simp] theorem finishDone_outMem : (finishDone s).outMem = s.outMem := rfl
@[simp] theorem finishDone_cmds : (finishDone s).cmds = s.cmds := rfl
@[simp] theorem finishDone_rdata : (finishDone s).rdata = s.rdata := rfl
@[simp] theorem finishDone_draws : (finishDone s).draws = s.draws := rfl
@[simp] theorem finishDone_phase : (finishDone s).phase = .rest := rfl
@[simp] theorem finishDone_grain : (finishDone s).grain = s.grain := rfl
@[simp] theorem finishDone_count : (finishDone s).count = s.count := rfl
@[simp] theorem finishDone_stride : (finishDone s).stride = s.stride := rfl
@[simp] theorem finishDone_inputEnd : (finishDone s).inputEnd = s.inputEnd := rfl
@[simp] theorem finishDone_selectorOffset : (finishDone s).selectorOffset = s.selectorOffset := rfl
@[simp] theorem finishDone_trIndex : (finishDone s).trIndex = s.trIndex := rfl
@[simp] theorem finishDone_nextCount : (finishDone s).nextCount = s.nextCount := rfl
@[simp] theorem finishDone_inByte (a : Nat) : (finishDone s).inByte a = s.inByte a := rfl
@[simp] theorem finishDone_trailerByte (a : Nat) : (finishDone s).trailerByte a = s.trailerByte a := rfl

@[simp] theorem beginBusy_vcount : (beginBusy s).vcount = s.vcount := rfl
@[simp] theorem beginBusy_vstride : (beginBusy s).vstride = s.vstride := rfl
@[simp] theorem beginBusy_buflen : (beginBusy s).buflen = s.buflen := rfl
@[simp] theorem beginBusy_vcountWritten : (beginBusy s).vcountWritten = s.vcountWritten := rfl
@[simp] theorem beginBusy_vstrideWritten : (beginBusy s).vstrideWritten = s.vstrideWritten := rfl
@[simp] theorem beginBusy_buflenWritten : (beginBusy s).buflenWritten = s.buflenWritten := rfl
@[simp] theorem beginBusy_status : (beginBusy s).status = ⟨.busy, none⟩ := rfl
@[simp] theorem beginBusy_blockSize : (beginBusy s).blockSize = s.blockSize := rfl
@[simp] theorem beginBusy_lastVertex : (beginBusy s).lastVertex = s.lastVertex := rfl
@[simp] theorem beginBusy_plane : (beginBusy s).plane = s.plane := rfl
@[simp] theorem beginBusy_tr : (beginBusy s).tr = s.tr := rfl
@[simp] theorem beginBusy_pos : (beginBusy s).pos = s.pos := rfl
@[simp] theorem beginBusy_hdr : (beginBusy s).hdr = s.hdr := rfl
@[simp] theorem beginBusy_ov : (beginBusy s).ov = s.ov := rfl
@[simp] theorem beginBusy_voff : (beginBusy s).voff = s.voff := rfl
@[simp] theorem beginBusy_cnt : (beginBusy s).cnt = s.cnt := rfl
@[simp] theorem beginBusy_k : (beginBusy s).k = s.k := rfl
@[simp] theorem beginBusy_g : (beginBusy s).g = s.g := rfl
@[simp] theorem beginBusy_i : (beginBusy s).i = s.i := rfl
@[simp] theorem beginBusy_j : (beginBusy s).j = s.j := rfl
@[simp] theorem beginBusy_inputByte : (beginBusy s).inputByte = s.inputByte := rfl
@[simp] theorem beginBusy_bitsConsumed : (beginBusy s).bitsConsumed = s.bitsConsumed := rfl
@[simp] theorem beginBusy_codeCursor : (beginBusy s).codeCursor = s.codeCursor := rfl
@[simp] theorem beginBusy_p : (beginBusy s).p = s.p := rfl
@[simp] theorem beginBusy_r : (beginBusy s).r = s.r := rfl
@[simp] theorem beginBusy_v : (beginBusy s).v = s.v := rfl
@[simp] theorem beginBusy_inMem : (beginBusy s).inMem = s.inMem := rfl
@[simp] theorem beginBusy_inLen : (beginBusy s).inLen = s.inLen := rfl
@[simp] theorem beginBusy_overlap : (beginBusy s).overlap = s.overlap := rfl
@[simp] theorem beginBusy_outMem : (beginBusy s).outMem = s.outMem := rfl
@[simp] theorem beginBusy_cmds : (beginBusy s).cmds = s.cmds := rfl
@[simp] theorem beginBusy_rdata : (beginBusy s).rdata = s.rdata := rfl
@[simp] theorem beginBusy_draws : (beginBusy s).draws = s.draws := rfl
@[simp] theorem beginBusy_phase : (beginBusy s).phase = s.phase := rfl
@[simp] theorem beginBusy_grain : (beginBusy s).grain = s.grain := rfl
@[simp] theorem beginBusy_count : (beginBusy s).count = s.count := rfl
@[simp] theorem beginBusy_stride : (beginBusy s).stride = s.stride := rfl
@[simp] theorem beginBusy_inputEnd : (beginBusy s).inputEnd = s.inputEnd := rfl
@[simp] theorem beginBusy_selectorOffset : (beginBusy s).selectorOffset = s.selectorOffset := rfl
@[simp] theorem beginBusy_trIndex : (beginBusy s).trIndex = s.trIndex := rfl
@[simp] theorem beginBusy_nextCount : (beginBusy s).nextCount = s.nextCount := rfl
@[simp] theorem beginBusy_inByte (a : Nat) : (beginBusy s).inByte a = s.inByte a := rfl
@[simp] theorem beginBusy_trailerByte (a : Nat) : (beginBusy s).trailerByte a = s.trailerByte a := rfl

@[simp] theorem goto_vcount (ph : Phase) : (s.goto ph).vcount = s.vcount := rfl
@[simp] theorem goto_vstride (ph : Phase) : (s.goto ph).vstride = s.vstride := rfl
@[simp] theorem goto_buflen (ph : Phase) : (s.goto ph).buflen = s.buflen := rfl
@[simp] theorem goto_vcountWritten (ph : Phase) : (s.goto ph).vcountWritten = s.vcountWritten := rfl
@[simp] theorem goto_vstrideWritten (ph : Phase) : (s.goto ph).vstrideWritten = s.vstrideWritten := rfl
@[simp] theorem goto_buflenWritten (ph : Phase) : (s.goto ph).buflenWritten = s.buflenWritten := rfl
@[simp] theorem goto_status (ph : Phase) : (s.goto ph).status = s.status := rfl
@[simp] theorem goto_blockSize (ph : Phase) : (s.goto ph).blockSize = s.blockSize := rfl
@[simp] theorem goto_lastVertex (ph : Phase) : (s.goto ph).lastVertex = s.lastVertex := rfl
@[simp] theorem goto_plane (ph : Phase) : (s.goto ph).plane = s.plane := rfl
@[simp] theorem goto_tr (ph : Phase) : (s.goto ph).tr = s.tr := rfl
@[simp] theorem goto_pos (ph : Phase) : (s.goto ph).pos = s.pos := rfl
@[simp] theorem goto_hdr (ph : Phase) : (s.goto ph).hdr = s.hdr := rfl
@[simp] theorem goto_ov (ph : Phase) : (s.goto ph).ov = s.ov := rfl
@[simp] theorem goto_voff (ph : Phase) : (s.goto ph).voff = s.voff := rfl
@[simp] theorem goto_cnt (ph : Phase) : (s.goto ph).cnt = s.cnt := rfl
@[simp] theorem goto_k (ph : Phase) : (s.goto ph).k = s.k := rfl
@[simp] theorem goto_g (ph : Phase) : (s.goto ph).g = s.g := rfl
@[simp] theorem goto_i (ph : Phase) : (s.goto ph).i = s.i := rfl
@[simp] theorem goto_j (ph : Phase) : (s.goto ph).j = s.j := rfl
@[simp] theorem goto_inputByte (ph : Phase) : (s.goto ph).inputByte = s.inputByte := rfl
@[simp] theorem goto_bitsConsumed (ph : Phase) : (s.goto ph).bitsConsumed = s.bitsConsumed := rfl
@[simp] theorem goto_codeCursor (ph : Phase) : (s.goto ph).codeCursor = s.codeCursor := rfl
@[simp] theorem goto_p (ph : Phase) : (s.goto ph).p = s.p := rfl
@[simp] theorem goto_r (ph : Phase) : (s.goto ph).r = s.r := rfl
@[simp] theorem goto_v (ph : Phase) : (s.goto ph).v = s.v := rfl
@[simp] theorem goto_inMem (ph : Phase) : (s.goto ph).inMem = s.inMem := rfl
@[simp] theorem goto_inLen (ph : Phase) : (s.goto ph).inLen = s.inLen := rfl
@[simp] theorem goto_overlap (ph : Phase) : (s.goto ph).overlap = s.overlap := rfl
@[simp] theorem goto_outMem (ph : Phase) : (s.goto ph).outMem = s.outMem := rfl
@[simp] theorem goto_cmds (ph : Phase) : (s.goto ph).cmds = s.cmds := rfl
@[simp] theorem goto_rdata (ph : Phase) : (s.goto ph).rdata = s.rdata := rfl
@[simp] theorem goto_draws (ph : Phase) : (s.goto ph).draws = s.draws := rfl
@[simp] theorem goto_phase (ph : Phase) : (s.goto ph).phase = ph := rfl
@[simp] theorem goto_grain (ph : Phase) : (s.goto ph).grain = s.grain := rfl
@[simp] theorem goto_count (ph : Phase) : (s.goto ph).count = s.count := rfl
@[simp] theorem goto_stride (ph : Phase) : (s.goto ph).stride = s.stride := rfl
@[simp] theorem goto_inputEnd (ph : Phase) : (s.goto ph).inputEnd = s.inputEnd := rfl
@[simp] theorem goto_selectorOffset (ph : Phase) : (s.goto ph).selectorOffset = s.selectorOffset := rfl
@[simp] theorem goto_trIndex (ph : Phase) : (s.goto ph).trIndex = s.trIndex := rfl
@[simp] theorem goto_nextCount (ph : Phase) : (s.goto ph).nextCount = s.nextCount := rfl
@[simp] theorem goto_inByte (ph : Phase) (a : Nat) : (s.goto ph).inByte a = s.inByte a := rfl
@[simp] theorem goto_trailerByte (ph : Phase) (a : Nat) : (s.goto ph).trailerByte a = s.trailerByte a := rfl

@[simp] theorem afterDecodeGroup_vcount (w : BitVec 2) : (afterDecodeGroup w s).vcount = s.vcount := rfl
@[simp] theorem afterDecodeGroup_vstride (w : BitVec 2) : (afterDecodeGroup w s).vstride = s.vstride := rfl
@[simp] theorem afterDecodeGroup_buflen (w : BitVec 2) : (afterDecodeGroup w s).buflen = s.buflen := rfl
@[simp] theorem afterDecodeGroup_vcountWritten (w : BitVec 2) : (afterDecodeGroup w s).vcountWritten = s.vcountWritten := rfl
@[simp] theorem afterDecodeGroup_vstrideWritten (w : BitVec 2) : (afterDecodeGroup w s).vstrideWritten = s.vstrideWritten := rfl
@[simp] theorem afterDecodeGroup_buflenWritten (w : BitVec 2) : (afterDecodeGroup w s).buflenWritten = s.buflenWritten := rfl
@[simp] theorem afterDecodeGroup_status (w : BitVec 2) : (afterDecodeGroup w s).status = s.status := rfl
@[simp] theorem afterDecodeGroup_blockSize (w : BitVec 2) : (afterDecodeGroup w s).blockSize = s.blockSize := rfl
@[simp] theorem afterDecodeGroup_lastVertex (w : BitVec 2) : (afterDecodeGroup w s).lastVertex = s.lastVertex := rfl
@[simp] theorem afterDecodeGroup_plane (w : BitVec 2) : (afterDecodeGroup w s).plane = s.plane.setRun (16 * s.g) (decodeGroup Config.codeOrder w s.inByte s.pos).1 := rfl
@[simp] theorem afterDecodeGroup_tr (w : BitVec 2) : (afterDecodeGroup w s).tr = s.tr := rfl
@[simp] theorem afterDecodeGroup_pos (w : BitVec 2) : (afterDecodeGroup w s).pos = (decodeGroup Config.codeOrder w s.inByte s.pos).2 := rfl
@[simp] theorem afterDecodeGroup_hdr (w : BitVec 2) : (afterDecodeGroup w s).hdr = s.hdr := rfl
@[simp] theorem afterDecodeGroup_ov (w : BitVec 2) : (afterDecodeGroup w s).ov = if isPacked w then (decodeGroup Config.codeOrder w s.inByte s.pos).2 else s.ov := rfl
@[simp] theorem afterDecodeGroup_voff (w : BitVec 2) : (afterDecodeGroup w s).voff = s.voff := rfl
@[simp] theorem afterDecodeGroup_cnt (w : BitVec 2) : (afterDecodeGroup w s).cnt = s.cnt := rfl
@[simp] theorem afterDecodeGroup_k (w : BitVec 2) : (afterDecodeGroup w s).k = s.k := rfl
@[simp] theorem afterDecodeGroup_g (w : BitVec 2) : (afterDecodeGroup w s).g = s.g := rfl
@[simp] theorem afterDecodeGroup_i (w : BitVec 2) : (afterDecodeGroup w s).i = s.i := rfl
@[simp] theorem afterDecodeGroup_j (w : BitVec 2) : (afterDecodeGroup w s).j = 16 := rfl
@[simp] theorem afterDecodeGroup_inputByte (w : BitVec 2) : (afterDecodeGroup w s).inputByte = s.inputByte := rfl
@[simp] theorem afterDecodeGroup_bitsConsumed (w : BitVec 2) : (afterDecodeGroup w s).bitsConsumed = s.bitsConsumed := rfl
@[simp] theorem afterDecodeGroup_codeCursor (w : BitVec 2) : (afterDecodeGroup w s).codeCursor = s.codeCursor := rfl
@[simp] theorem afterDecodeGroup_p (w : BitVec 2) : (afterDecodeGroup w s).p = s.p := rfl
@[simp] theorem afterDecodeGroup_r (w : BitVec 2) : (afterDecodeGroup w s).r = s.r := rfl
@[simp] theorem afterDecodeGroup_v (w : BitVec 2) : (afterDecodeGroup w s).v = s.v := rfl
@[simp] theorem afterDecodeGroup_inMem (w : BitVec 2) : (afterDecodeGroup w s).inMem = s.inMem := rfl
@[simp] theorem afterDecodeGroup_inLen (w : BitVec 2) : (afterDecodeGroup w s).inLen = s.inLen := rfl
@[simp] theorem afterDecodeGroup_overlap (w : BitVec 2) : (afterDecodeGroup w s).overlap = s.overlap := rfl
@[simp] theorem afterDecodeGroup_outMem (w : BitVec 2) : (afterDecodeGroup w s).outMem = s.outMem := rfl
@[simp] theorem afterDecodeGroup_cmds (w : BitVec 2) : (afterDecodeGroup w s).cmds = s.cmds := rfl
@[simp] theorem afterDecodeGroup_rdata (w : BitVec 2) : (afterDecodeGroup w s).rdata = s.rdata := rfl
@[simp] theorem afterDecodeGroup_draws (w : BitVec 2) : (afterDecodeGroup w s).draws = s.draws := rfl
@[simp] theorem afterDecodeGroup_phase (w : BitVec 2) : (afterDecodeGroup w s).phase = s.phase := rfl
@[simp] theorem afterDecodeGroup_grain (w : BitVec 2) : (afterDecodeGroup w s).grain = s.grain := rfl
@[simp] theorem afterDecodeGroup_count (w : BitVec 2) : (afterDecodeGroup w s).count = s.count := rfl
@[simp] theorem afterDecodeGroup_stride (w : BitVec 2) : (afterDecodeGroup w s).stride = s.stride := rfl
@[simp] theorem afterDecodeGroup_inputEnd (w : BitVec 2) : (afterDecodeGroup w s).inputEnd = s.inputEnd := rfl
@[simp] theorem afterDecodeGroup_selectorOffset (w : BitVec 2) : (afterDecodeGroup w s).selectorOffset = s.selectorOffset := rfl
@[simp] theorem afterDecodeGroup_trIndex (w : BitVec 2) : (afterDecodeGroup w s).trIndex = s.trIndex := rfl
@[simp] theorem afterDecodeGroup_nextCount (w : BitVec 2) : (afterDecodeGroup w s).nextCount = s.nextCount := rfl
@[simp] theorem afterDecodeGroup_inByte (w : BitVec 2) (a : Nat) : (afterDecodeGroup w s).inByte a = s.inByte a := rfl
@[simp] theorem afterDecodeGroup_trailerByte (w : BitVec 2) (a : Nat) : (afterDecodeGroup w s).trailerByte a = s.trailerByte a := rfl

@[simp] theorem openPlane_vcount : (openPlane s).vcount = s.vcount := rfl
@[simp] theorem openPlane_vstride : (openPlane s).vstride = s.vstride := rfl
@[simp] theorem openPlane_buflen : (openPlane s).buflen = s.buflen := rfl
@[simp] theorem openPlane_vcountWritten : (openPlane s).vcountWritten = s.vcountWritten := rfl
@[simp] theorem openPlane_vstrideWritten : (openPlane s).vstrideWritten = s.vstrideWritten := rfl
@[simp] theorem openPlane_buflenWritten : (openPlane s).buflenWritten = s.buflenWritten := rfl
@[simp] theorem openPlane_status : (openPlane s).status = s.status := rfl
@[simp] theorem openPlane_blockSize : (openPlane s).blockSize = s.blockSize := rfl
@[simp] theorem openPlane_lastVertex : (openPlane s).lastVertex = s.lastVertex := rfl
@[simp] theorem openPlane_plane : (openPlane s).plane = s.plane := rfl
@[simp] theorem openPlane_tr : (openPlane s).tr = s.tr := rfl
@[simp] theorem openPlane_pos : (openPlane s).pos = s.pos + headerSize s.cnt := rfl
@[simp] theorem openPlane_hdr : (openPlane s).hdr = s.pos := rfl
@[simp] theorem openPlane_ov : (openPlane s).ov = s.ov := rfl
@[simp] theorem openPlane_voff : (openPlane s).voff = s.voff := rfl
@[simp] theorem openPlane_cnt : (openPlane s).cnt = s.cnt := rfl
@[simp] theorem openPlane_k : (openPlane s).k = s.k := rfl
@[simp] theorem openPlane_g : (openPlane s).g = 0 := rfl
@[simp] theorem openPlane_i : (openPlane s).i = s.i := rfl
@[simp] theorem openPlane_j : (openPlane s).j = s.j := rfl
@[simp] theorem openPlane_inputByte : (openPlane s).inputByte = s.inputByte := rfl
@[simp] theorem openPlane_bitsConsumed : (openPlane s).bitsConsumed = s.bitsConsumed := rfl
@[simp] theorem openPlane_codeCursor : (openPlane s).codeCursor = s.codeCursor := rfl
@[simp] theorem openPlane_p : (openPlane s).p = s.p := rfl
@[simp] theorem openPlane_r : (openPlane s).r = s.r := rfl
@[simp] theorem openPlane_v : (openPlane s).v = s.v := rfl
@[simp] theorem openPlane_inMem : (openPlane s).inMem = s.inMem := rfl
@[simp] theorem openPlane_inLen : (openPlane s).inLen = s.inLen := rfl
@[simp] theorem openPlane_overlap : (openPlane s).overlap = s.overlap := rfl
@[simp] theorem openPlane_outMem : (openPlane s).outMem = s.outMem := rfl
@[simp] theorem openPlane_cmds : (openPlane s).cmds = s.cmds := rfl
@[simp] theorem openPlane_rdata : (openPlane s).rdata = s.rdata := rfl
@[simp] theorem openPlane_draws : (openPlane s).draws = s.draws := rfl
@[simp] theorem openPlane_phase : (openPlane s).phase = s.phase := rfl
@[simp] theorem openPlane_grain : (openPlane s).grain = s.grain := rfl
@[simp] theorem openPlane_count : (openPlane s).count = s.count := rfl
@[simp] theorem openPlane_stride : (openPlane s).stride = s.stride := rfl
@[simp] theorem openPlane_inputEnd : (openPlane s).inputEnd = s.inputEnd := rfl
@[simp] theorem openPlane_trIndex : (openPlane s).trIndex = s.trIndex := rfl
@[simp] theorem openPlane_nextCount : (openPlane s).nextCount = s.nextCount := rfl
@[simp] theorem openPlane_inByte (a : Nat) : (openPlane s).inByte a = s.inByte a := rfl
@[simp] theorem openPlane_trailerByte (a : Nat) : (openPlane s).trailerByte a = s.trailerByte a := rfl

@[simp] theorem unzigzagRead_vcount : (unzigzagRead s).vcount = s.vcount := rfl
@[simp] theorem unzigzagRead_vstride : (unzigzagRead s).vstride = s.vstride := rfl
@[simp] theorem unzigzagRead_buflen : (unzigzagRead s).buflen = s.buflen := rfl
@[simp] theorem unzigzagRead_vcountWritten : (unzigzagRead s).vcountWritten = s.vcountWritten := rfl
@[simp] theorem unzigzagRead_vstrideWritten : (unzigzagRead s).vstrideWritten = s.vstrideWritten := rfl
@[simp] theorem unzigzagRead_buflenWritten : (unzigzagRead s).buflenWritten = s.buflenWritten := rfl
@[simp] theorem unzigzagRead_status : (unzigzagRead s).status = s.status := rfl
@[simp] theorem unzigzagRead_blockSize : (unzigzagRead s).blockSize = s.blockSize := rfl
@[simp] theorem unzigzagRead_lastVertex : (unzigzagRead s).lastVertex = s.lastVertex := rfl
@[simp] theorem unzigzagRead_plane : (unzigzagRead s).plane = s.plane := rfl
@[simp] theorem unzigzagRead_tr : (unzigzagRead s).tr = s.tr := rfl
@[simp] theorem unzigzagRead_pos : (unzigzagRead s).pos = s.pos := rfl
@[simp] theorem unzigzagRead_hdr : (unzigzagRead s).hdr = s.hdr := rfl
@[simp] theorem unzigzagRead_ov : (unzigzagRead s).ov = s.ov := rfl
@[simp] theorem unzigzagRead_voff : (unzigzagRead s).voff = s.voff := rfl
@[simp] theorem unzigzagRead_cnt : (unzigzagRead s).cnt = s.cnt := rfl
@[simp] theorem unzigzagRead_k : (unzigzagRead s).k = s.k := rfl
@[simp] theorem unzigzagRead_g : (unzigzagRead s).g = s.g := rfl
@[simp] theorem unzigzagRead_i : (unzigzagRead s).i = s.i := rfl
@[simp] theorem unzigzagRead_j : (unzigzagRead s).j = s.j := rfl
@[simp] theorem unzigzagRead_inputByte : (unzigzagRead s).inputByte = s.inputByte := rfl
@[simp] theorem unzigzagRead_bitsConsumed : (unzigzagRead s).bitsConsumed = s.bitsConsumed := rfl
@[simp] theorem unzigzagRead_codeCursor : (unzigzagRead s).codeCursor = s.codeCursor := rfl
@[simp] theorem unzigzagRead_p : (unzigzagRead s).p = s.p := rfl
@[simp] theorem unzigzagRead_r : (unzigzagRead s).r = unzigzagByte (s.plane.byte s.i) := rfl
@[simp] theorem unzigzagRead_v : (unzigzagRead s).v = s.v := rfl
@[simp] theorem unzigzagRead_inMem : (unzigzagRead s).inMem = s.inMem := rfl
@[simp] theorem unzigzagRead_inLen : (unzigzagRead s).inLen = s.inLen := rfl
@[simp] theorem unzigzagRead_overlap : (unzigzagRead s).overlap = s.overlap := rfl
@[simp] theorem unzigzagRead_outMem : (unzigzagRead s).outMem = s.outMem := rfl
@[simp] theorem unzigzagRead_cmds : (unzigzagRead s).cmds = s.cmds := rfl
@[simp] theorem unzigzagRead_rdata : (unzigzagRead s).rdata = s.rdata := rfl
@[simp] theorem unzigzagRead_draws : (unzigzagRead s).draws = s.draws := rfl
@[simp] theorem unzigzagRead_phase : (unzigzagRead s).phase = s.phase := rfl
@[simp] theorem unzigzagRead_grain : (unzigzagRead s).grain = s.grain := rfl
@[simp] theorem unzigzagRead_count : (unzigzagRead s).count = s.count := rfl
@[simp] theorem unzigzagRead_stride : (unzigzagRead s).stride = s.stride := rfl
@[simp] theorem unzigzagRead_inputEnd : (unzigzagRead s).inputEnd = s.inputEnd := rfl
@[simp] theorem unzigzagRead_selectorOffset : (unzigzagRead s).selectorOffset = s.selectorOffset := rfl
@[simp] theorem unzigzagRead_trIndex : (unzigzagRead s).trIndex = s.trIndex := rfl
@[simp] theorem unzigzagRead_nextCount : (unzigzagRead s).nextCount = s.nextCount := rfl
@[simp] theorem unzigzagRead_inByte (a : Nat) : (unzigzagRead s).inByte a = s.inByte a := rfl
@[simp] theorem unzigzagRead_trailerByte (a : Nat) : (unzigzagRead s).trailerByte a = s.trailerByte a := rfl

@[simp] theorem addDelta_vcount : (addDelta s).vcount = s.vcount := rfl
@[simp] theorem addDelta_vstride : (addDelta s).vstride = s.vstride := rfl
@[simp] theorem addDelta_buflen : (addDelta s).buflen = s.buflen := rfl
@[simp] theorem addDelta_vcountWritten : (addDelta s).vcountWritten = s.vcountWritten := rfl
@[simp] theorem addDelta_vstrideWritten : (addDelta s).vstrideWritten = s.vstrideWritten := rfl
@[simp] theorem addDelta_buflenWritten : (addDelta s).buflenWritten = s.buflenWritten := rfl
@[simp] theorem addDelta_status : (addDelta s).status = s.status := rfl
@[simp] theorem addDelta_blockSize : (addDelta s).blockSize = s.blockSize := rfl
@[simp] theorem addDelta_lastVertex : (addDelta s).lastVertex = s.lastVertex := rfl
@[simp] theorem addDelta_plane : (addDelta s).plane = s.plane := rfl
@[simp] theorem addDelta_tr : (addDelta s).tr = s.tr := rfl
@[simp] theorem addDelta_pos : (addDelta s).pos = s.pos := rfl
@[simp] theorem addDelta_hdr : (addDelta s).hdr = s.hdr := rfl
@[simp] theorem addDelta_ov : (addDelta s).ov = s.ov := rfl
@[simp] theorem addDelta_voff : (addDelta s).voff = s.voff := rfl
@[simp] theorem addDelta_cnt : (addDelta s).cnt = s.cnt := rfl
@[simp] theorem addDelta_k : (addDelta s).k = s.k := rfl
@[simp] theorem addDelta_g : (addDelta s).g = s.g := rfl
@[simp] theorem addDelta_i : (addDelta s).i = s.i := rfl
@[simp] theorem addDelta_j : (addDelta s).j = s.j := rfl
@[simp] theorem addDelta_inputByte : (addDelta s).inputByte = s.inputByte := rfl
@[simp] theorem addDelta_bitsConsumed : (addDelta s).bitsConsumed = s.bitsConsumed := rfl
@[simp] theorem addDelta_codeCursor : (addDelta s).codeCursor = s.codeCursor := rfl
@[simp] theorem addDelta_p : (addDelta s).p = s.p := rfl
@[simp] theorem addDelta_r : (addDelta s).r = s.r := rfl
@[simp] theorem addDelta_v : (addDelta s).v = s.r + s.p := rfl
@[simp] theorem addDelta_inMem : (addDelta s).inMem = s.inMem := rfl
@[simp] theorem addDelta_inLen : (addDelta s).inLen = s.inLen := rfl
@[simp] theorem addDelta_overlap : (addDelta s).overlap = s.overlap := rfl
@[simp] theorem addDelta_outMem : (addDelta s).outMem = s.outMem := rfl
@[simp] theorem addDelta_cmds : (addDelta s).cmds = s.cmds := rfl
@[simp] theorem addDelta_rdata : (addDelta s).rdata = s.rdata := rfl
@[simp] theorem addDelta_draws : (addDelta s).draws = s.draws := rfl
@[simp] theorem addDelta_phase : (addDelta s).phase = s.phase := rfl
@[simp] theorem addDelta_grain : (addDelta s).grain = s.grain := rfl
@[simp] theorem addDelta_count : (addDelta s).count = s.count := rfl
@[simp] theorem addDelta_stride : (addDelta s).stride = s.stride := rfl
@[simp] theorem addDelta_inputEnd : (addDelta s).inputEnd = s.inputEnd := rfl
@[simp] theorem addDelta_selectorOffset : (addDelta s).selectorOffset = s.selectorOffset := rfl
@[simp] theorem addDelta_trIndex : (addDelta s).trIndex = s.trIndex := rfl
@[simp] theorem addDelta_nextCount : (addDelta s).nextCount = s.nextCount := rfl
@[simp] theorem addDelta_inByte (a : Nat) : (addDelta s).inByte a = s.inByte a := rfl
@[simp] theorem addDelta_trailerByte (a : Nat) : (addDelta s).trailerByte a = s.trailerByte a := rfl

@[simp] theorem transposeWrite_vcount : (transposeWrite s).vcount = s.vcount := rfl
@[simp] theorem transposeWrite_vstride : (transposeWrite s).vstride = s.vstride := rfl
@[simp] theorem transposeWrite_buflen : (transposeWrite s).buflen = s.buflen := rfl
@[simp] theorem transposeWrite_vcountWritten : (transposeWrite s).vcountWritten = s.vcountWritten := rfl
@[simp] theorem transposeWrite_vstrideWritten : (transposeWrite s).vstrideWritten = s.vstrideWritten := rfl
@[simp] theorem transposeWrite_buflenWritten : (transposeWrite s).buflenWritten = s.buflenWritten := rfl
@[simp] theorem transposeWrite_status : (transposeWrite s).status = s.status := rfl
@[simp] theorem transposeWrite_blockSize : (transposeWrite s).blockSize = s.blockSize := rfl
@[simp] theorem transposeWrite_lastVertex : (transposeWrite s).lastVertex = s.lastVertex := rfl
@[simp] theorem transposeWrite_plane : (transposeWrite s).plane = s.plane := rfl
@[simp] theorem transposeWrite_tr : (transposeWrite s).tr = s.tr.setByte s.trIndex s.v := rfl
@[simp] theorem transposeWrite_pos : (transposeWrite s).pos = s.pos := rfl
@[simp] theorem transposeWrite_hdr : (transposeWrite s).hdr = s.hdr := rfl
@[simp] theorem transposeWrite_ov : (transposeWrite s).ov = s.ov := rfl
@[simp] theorem transposeWrite_voff : (transposeWrite s).voff = s.voff := rfl
@[simp] theorem transposeWrite_cnt : (transposeWrite s).cnt = s.cnt := rfl
@[simp] theorem transposeWrite_k : (transposeWrite s).k = s.k := rfl
@[simp] theorem transposeWrite_g : (transposeWrite s).g = s.g := rfl
@[simp] theorem transposeWrite_i : (transposeWrite s).i = s.i := rfl
@[simp] theorem transposeWrite_j : (transposeWrite s).j = s.j := rfl
@[simp] theorem transposeWrite_inputByte : (transposeWrite s).inputByte = s.inputByte := rfl
@[simp] theorem transposeWrite_bitsConsumed : (transposeWrite s).bitsConsumed = s.bitsConsumed := rfl
@[simp] theorem transposeWrite_codeCursor : (transposeWrite s).codeCursor = s.codeCursor := rfl
@[simp] theorem transposeWrite_p : (transposeWrite s).p = s.p := rfl
@[simp] theorem transposeWrite_r : (transposeWrite s).r = s.r := rfl
@[simp] theorem transposeWrite_v : (transposeWrite s).v = s.v := rfl
@[simp] theorem transposeWrite_inMem : (transposeWrite s).inMem = s.inMem := rfl
@[simp] theorem transposeWrite_inLen : (transposeWrite s).inLen = s.inLen := rfl
@[simp] theorem transposeWrite_overlap : (transposeWrite s).overlap = s.overlap := rfl
@[simp] theorem transposeWrite_outMem : (transposeWrite s).outMem = s.outMem := rfl
@[simp] theorem transposeWrite_cmds : (transposeWrite s).cmds = s.cmds := rfl
@[simp] theorem transposeWrite_rdata : (transposeWrite s).rdata = s.rdata := rfl
@[simp] theorem transposeWrite_draws : (transposeWrite s).draws = s.draws := rfl
@[simp] theorem transposeWrite_phase : (transposeWrite s).phase = s.phase := rfl
@[simp] theorem transposeWrite_grain : (transposeWrite s).grain = s.grain := rfl
@[simp] theorem transposeWrite_count : (transposeWrite s).count = s.count := rfl
@[simp] theorem transposeWrite_stride : (transposeWrite s).stride = s.stride := rfl
@[simp] theorem transposeWrite_inputEnd : (transposeWrite s).inputEnd = s.inputEnd := rfl
@[simp] theorem transposeWrite_selectorOffset : (transposeWrite s).selectorOffset = s.selectorOffset := rfl
@[simp] theorem transposeWrite_trIndex : (transposeWrite s).trIndex = s.trIndex := rfl
@[simp] theorem transposeWrite_nextCount : (transposeWrite s).nextCount = s.nextCount := rfl
@[simp] theorem transposeWrite_inByte (a : Nat) : (transposeWrite s).inByte a = s.inByte a := rfl
@[simp] theorem transposeWrite_trailerByte (a : Nat) : (transposeWrite s).trailerByte a = s.trailerByte a := rfl

@[simp] theorem nextVertex_vcount : (nextVertex s).vcount = s.vcount := rfl
@[simp] theorem nextVertex_vstride : (nextVertex s).vstride = s.vstride := rfl
@[simp] theorem nextVertex_buflen : (nextVertex s).buflen = s.buflen := rfl
@[simp] theorem nextVertex_vcountWritten : (nextVertex s).vcountWritten = s.vcountWritten := rfl
@[simp] theorem nextVertex_vstrideWritten : (nextVertex s).vstrideWritten = s.vstrideWritten := rfl
@[simp] theorem nextVertex_buflenWritten : (nextVertex s).buflenWritten = s.buflenWritten := rfl
@[simp] theorem nextVertex_status : (nextVertex s).status = s.status := rfl
@[simp] theorem nextVertex_blockSize : (nextVertex s).blockSize = s.blockSize := rfl
@[simp] theorem nextVertex_lastVertex : (nextVertex s).lastVertex = s.lastVertex := rfl
@[simp] theorem nextVertex_plane : (nextVertex s).plane = s.plane := rfl
@[simp] theorem nextVertex_tr : (nextVertex s).tr = s.tr := rfl
@[simp] theorem nextVertex_pos : (nextVertex s).pos = s.pos := rfl
@[simp] theorem nextVertex_hdr : (nextVertex s).hdr = s.hdr := rfl
@[simp] theorem nextVertex_ov : (nextVertex s).ov = s.ov := rfl
@[simp] theorem nextVertex_voff : (nextVertex s).voff = s.voff := rfl
@[simp] theorem nextVertex_cnt : (nextVertex s).cnt = s.cnt := rfl
@[simp] theorem nextVertex_k : (nextVertex s).k = s.k := rfl
@[simp] theorem nextVertex_g : (nextVertex s).g = s.g := rfl
@[simp] theorem nextVertex_i : (nextVertex s).i = s.i + 1 := rfl
@[simp] theorem nextVertex_j : (nextVertex s).j = s.j := rfl
@[simp] theorem nextVertex_inputByte : (nextVertex s).inputByte = s.inputByte := rfl
@[simp] theorem nextVertex_bitsConsumed : (nextVertex s).bitsConsumed = s.bitsConsumed := rfl
@[simp] theorem nextVertex_codeCursor : (nextVertex s).codeCursor = s.codeCursor := rfl
@[simp] theorem nextVertex_p : (nextVertex s).p = s.v := rfl
@[simp] theorem nextVertex_r : (nextVertex s).r = s.r := rfl
@[simp] theorem nextVertex_v : (nextVertex s).v = s.v := rfl
@[simp] theorem nextVertex_inMem : (nextVertex s).inMem = s.inMem := rfl
@[simp] theorem nextVertex_inLen : (nextVertex s).inLen = s.inLen := rfl
@[simp] theorem nextVertex_overlap : (nextVertex s).overlap = s.overlap := rfl
@[simp] theorem nextVertex_outMem : (nextVertex s).outMem = s.outMem := rfl
@[simp] theorem nextVertex_cmds : (nextVertex s).cmds = s.cmds := rfl
@[simp] theorem nextVertex_rdata : (nextVertex s).rdata = s.rdata := rfl
@[simp] theorem nextVertex_draws : (nextVertex s).draws = s.draws := rfl
@[simp] theorem nextVertex_phase : (nextVertex s).phase = s.phase := rfl
@[simp] theorem nextVertex_grain : (nextVertex s).grain = s.grain := rfl
@[simp] theorem nextVertex_count : (nextVertex s).count = s.count := rfl
@[simp] theorem nextVertex_stride : (nextVertex s).stride = s.stride := rfl
@[simp] theorem nextVertex_inputEnd : (nextVertex s).inputEnd = s.inputEnd := rfl
@[simp] theorem nextVertex_selectorOffset : (nextVertex s).selectorOffset = s.selectorOffset := rfl
@[simp] theorem nextVertex_nextCount : (nextVertex s).nextCount = s.nextCount := rfl
@[simp] theorem nextVertex_inByte (a : Nat) : (nextVertex s).inByte a = s.inByte a := rfl
@[simp] theorem nextVertex_trailerByte (a : Nat) : (nextVertex s).trailerByte a = s.trailerByte a := rfl

@[simp] theorem openChain_vcount : (openChain s).vcount = s.vcount := rfl
@[simp] theorem openChain_vstride : (openChain s).vstride = s.vstride := rfl
@[simp] theorem openChain_buflen : (openChain s).buflen = s.buflen := rfl
@[simp] theorem openChain_vcountWritten : (openChain s).vcountWritten = s.vcountWritten := rfl
@[simp] theorem openChain_vstrideWritten : (openChain s).vstrideWritten = s.vstrideWritten := rfl
@[simp] theorem openChain_buflenWritten : (openChain s).buflenWritten = s.buflenWritten := rfl
@[simp] theorem openChain_status : (openChain s).status = s.status := rfl
@[simp] theorem openChain_blockSize : (openChain s).blockSize = s.blockSize := rfl
@[simp] theorem openChain_lastVertex : (openChain s).lastVertex = s.lastVertex := rfl
@[simp] theorem openChain_plane : (openChain s).plane = s.plane := rfl
@[simp] theorem openChain_tr : (openChain s).tr = s.tr := rfl
@[simp] theorem openChain_pos : (openChain s).pos = s.pos := rfl
@[simp] theorem openChain_hdr : (openChain s).hdr = s.hdr := rfl
@[simp] theorem openChain_ov : (openChain s).ov = s.ov := rfl
@[simp] theorem openChain_voff : (openChain s).voff = s.voff := rfl
@[simp] theorem openChain_cnt : (openChain s).cnt = s.cnt := rfl
@[simp] theorem openChain_k : (openChain s).k = s.k := rfl
@[simp] theorem openChain_g : (openChain s).g = s.g := rfl
@[simp] theorem openChain_i : (openChain s).i = 0 := rfl
@[simp] theorem openChain_j : (openChain s).j = s.j := rfl
@[simp] theorem openChain_inputByte : (openChain s).inputByte = s.inputByte := rfl
@[simp] theorem openChain_bitsConsumed : (openChain s).bitsConsumed = s.bitsConsumed := rfl
@[simp] theorem openChain_codeCursor : (openChain s).codeCursor = s.codeCursor := rfl
@[simp] theorem openChain_p : (openChain s).p = s.lastVertex.byte s.k := rfl
@[simp] theorem openChain_r : (openChain s).r = s.r := rfl
@[simp] theorem openChain_v : (openChain s).v = s.v := rfl
@[simp] theorem openChain_inMem : (openChain s).inMem = s.inMem := rfl
@[simp] theorem openChain_inLen : (openChain s).inLen = s.inLen := rfl
@[simp] theorem openChain_overlap : (openChain s).overlap = s.overlap := rfl
@[simp] theorem openChain_outMem : (openChain s).outMem = s.outMem := rfl
@[simp] theorem openChain_cmds : (openChain s).cmds = s.cmds := rfl
@[simp] theorem openChain_rdata : (openChain s).rdata = s.rdata := rfl
@[simp] theorem openChain_draws : (openChain s).draws = s.draws := rfl
@[simp] theorem openChain_phase : (openChain s).phase = s.phase := rfl
@[simp] theorem openChain_grain : (openChain s).grain = s.grain := rfl
@[simp] theorem openChain_count : (openChain s).count = s.count := rfl
@[simp] theorem openChain_stride : (openChain s).stride = s.stride := rfl
@[simp] theorem openChain_inputEnd : (openChain s).inputEnd = s.inputEnd := rfl
@[simp] theorem openChain_selectorOffset : (openChain s).selectorOffset = s.selectorOffset := rfl
@[simp] theorem openChain_nextCount : (openChain s).nextCount = s.nextCount := rfl
@[simp] theorem openChain_inByte (a : Nat) : (openChain s).inByte a = s.inByte a := rfl
@[simp] theorem openChain_trailerByte (a : Nat) : (openChain s).trailerByte a = s.trailerByte a := rfl

@[simp] theorem advanceVoff_vcount : (advanceVoff s).vcount = s.vcount := rfl
@[simp] theorem advanceVoff_vstride : (advanceVoff s).vstride = s.vstride := rfl
@[simp] theorem advanceVoff_buflen : (advanceVoff s).buflen = s.buflen := rfl
@[simp] theorem advanceVoff_vcountWritten : (advanceVoff s).vcountWritten = s.vcountWritten := rfl
@[simp] theorem advanceVoff_vstrideWritten : (advanceVoff s).vstrideWritten = s.vstrideWritten := rfl
@[simp] theorem advanceVoff_buflenWritten : (advanceVoff s).buflenWritten = s.buflenWritten := rfl
@[simp] theorem advanceVoff_status : (advanceVoff s).status = s.status := rfl
@[simp] theorem advanceVoff_blockSize : (advanceVoff s).blockSize = s.blockSize := rfl
@[simp] theorem advanceVoff_lastVertex : (advanceVoff s).lastVertex = s.lastVertex := rfl
@[simp] theorem advanceVoff_plane : (advanceVoff s).plane = s.plane := rfl
@[simp] theorem advanceVoff_tr : (advanceVoff s).tr = s.tr := rfl
@[simp] theorem advanceVoff_pos : (advanceVoff s).pos = s.pos := rfl
@[simp] theorem advanceVoff_hdr : (advanceVoff s).hdr = s.hdr := rfl
@[simp] theorem advanceVoff_ov : (advanceVoff s).ov = s.ov := rfl
@[simp] theorem advanceVoff_voff : (advanceVoff s).voff = s.voff + s.cnt := rfl
@[simp] theorem advanceVoff_cnt : (advanceVoff s).cnt = s.cnt := rfl
@[simp] theorem advanceVoff_k : (advanceVoff s).k = s.k := rfl
@[simp] theorem advanceVoff_g : (advanceVoff s).g = s.g := rfl
@[simp] theorem advanceVoff_i : (advanceVoff s).i = s.i := rfl
@[simp] theorem advanceVoff_j : (advanceVoff s).j = s.j := rfl
@[simp] theorem advanceVoff_inputByte : (advanceVoff s).inputByte = s.inputByte := rfl
@[simp] theorem advanceVoff_bitsConsumed : (advanceVoff s).bitsConsumed = s.bitsConsumed := rfl
@[simp] theorem advanceVoff_codeCursor : (advanceVoff s).codeCursor = s.codeCursor := rfl
@[simp] theorem advanceVoff_p : (advanceVoff s).p = s.p := rfl
@[simp] theorem advanceVoff_r : (advanceVoff s).r = s.r := rfl
@[simp] theorem advanceVoff_v : (advanceVoff s).v = s.v := rfl
@[simp] theorem advanceVoff_inMem : (advanceVoff s).inMem = s.inMem := rfl
@[simp] theorem advanceVoff_inLen : (advanceVoff s).inLen = s.inLen := rfl
@[simp] theorem advanceVoff_overlap : (advanceVoff s).overlap = s.overlap := rfl
@[simp] theorem advanceVoff_outMem : (advanceVoff s).outMem = s.outMem := rfl
@[simp] theorem advanceVoff_cmds : (advanceVoff s).cmds = s.cmds := rfl
@[simp] theorem advanceVoff_rdata : (advanceVoff s).rdata = s.rdata := rfl
@[simp] theorem advanceVoff_draws : (advanceVoff s).draws = s.draws := rfl
@[simp] theorem advanceVoff_phase : (advanceVoff s).phase = s.phase := rfl
@[simp] theorem advanceVoff_grain : (advanceVoff s).grain = s.grain := rfl
@[simp] theorem advanceVoff_count : (advanceVoff s).count = s.count := rfl
@[simp] theorem advanceVoff_stride : (advanceVoff s).stride = s.stride := rfl
@[simp] theorem advanceVoff_inputEnd : (advanceVoff s).inputEnd = s.inputEnd := rfl
@[simp] theorem advanceVoff_selectorOffset : (advanceVoff s).selectorOffset = s.selectorOffset := rfl
@[simp] theorem advanceVoff_trIndex : (advanceVoff s).trIndex = s.trIndex := rfl
@[simp] theorem advanceVoff_inByte (a : Nat) : (advanceVoff s).inByte a = s.inByte a := rfl
@[simp] theorem advanceVoff_trailerByte (a : Nat) : (advanceVoff s).trailerByte a = s.trailerByte a := rfl

@[simp] theorem openCodes_vcount (b : CodeWidth) : (openCodes b s).vcount = s.vcount := rfl
@[simp] theorem openCodes_vstride (b : CodeWidth) : (openCodes b s).vstride = s.vstride := rfl
@[simp] theorem openCodes_buflen (b : CodeWidth) : (openCodes b s).buflen = s.buflen := rfl
@[simp] theorem openCodes_vcountWritten (b : CodeWidth) : (openCodes b s).vcountWritten = s.vcountWritten := rfl
@[simp] theorem openCodes_vstrideWritten (b : CodeWidth) : (openCodes b s).vstrideWritten = s.vstrideWritten := rfl
@[simp] theorem openCodes_buflenWritten (b : CodeWidth) : (openCodes b s).buflenWritten = s.buflenWritten := rfl
@[simp] theorem openCodes_status (b : CodeWidth) : (openCodes b s).status = s.status := rfl
@[simp] theorem openCodes_blockSize (b : CodeWidth) : (openCodes b s).blockSize = s.blockSize := rfl
@[simp] theorem openCodes_lastVertex (b : CodeWidth) : (openCodes b s).lastVertex = s.lastVertex := rfl
@[simp] theorem openCodes_plane (b : CodeWidth) : (openCodes b s).plane = s.plane := rfl
@[simp] theorem openCodes_tr (b : CodeWidth) : (openCodes b s).tr = s.tr := rfl
@[simp] theorem openCodes_pos (b : CodeWidth) : (openCodes b s).pos = s.pos := rfl
@[simp] theorem openCodes_hdr (b : CodeWidth) : (openCodes b s).hdr = s.hdr := rfl
@[simp] theorem openCodes_ov (b : CodeWidth) : (openCodes b s).ov = s.pos + 2 * b.bits := rfl
@[simp] theorem openCodes_voff (b : CodeWidth) : (openCodes b s).voff = s.voff := rfl
@[simp] theorem openCodes_cnt (b : CodeWidth) : (openCodes b s).cnt = s.cnt := rfl
@[simp] theorem openCodes_k (b : CodeWidth) : (openCodes b s).k = s.k := rfl
@[simp] theorem openCodes_g (b : CodeWidth) : (openCodes b s).g = s.g := rfl
@[simp] theorem openCodes_i (b : CodeWidth) : (openCodes b s).i = s.i := rfl
@[simp] theorem openCodes_j (b : CodeWidth) : (openCodes b s).j = 0 := rfl
@[simp] theorem openCodes_inputByte (b : CodeWidth) : (openCodes b s).inputByte = s.inputByte := rfl
@[simp] theorem openCodes_bitsConsumed (b : CodeWidth) : (openCodes b s).bitsConsumed = 0 := rfl
@[simp] theorem openCodes_codeCursor (b : CodeWidth) : (openCodes b s).codeCursor = s.pos := rfl
@[simp] theorem openCodes_p (b : CodeWidth) : (openCodes b s).p = s.p := rfl
@[simp] theorem openCodes_r (b : CodeWidth) : (openCodes b s).r = s.r := rfl
@[simp] theorem openCodes_v (b : CodeWidth) : (openCodes b s).v = s.v := rfl
@[simp] theorem openCodes_inMem (b : CodeWidth) : (openCodes b s).inMem = s.inMem := rfl
@[simp] theorem openCodes_inLen (b : CodeWidth) : (openCodes b s).inLen = s.inLen := rfl
@[simp] theorem openCodes_overlap (b : CodeWidth) : (openCodes b s).overlap = s.overlap := rfl
@[simp] theorem openCodes_outMem (b : CodeWidth) : (openCodes b s).outMem = s.outMem := rfl
@[simp] theorem openCodes_cmds (b : CodeWidth) : (openCodes b s).cmds = s.cmds := rfl
@[simp] theorem openCodes_rdata (b : CodeWidth) : (openCodes b s).rdata = s.rdata := rfl
@[simp] theorem openCodes_draws (b : CodeWidth) : (openCodes b s).draws = s.draws := rfl
@[simp] theorem openCodes_phase (b : CodeWidth) : (openCodes b s).phase = .code b := rfl
@[simp] theorem openCodes_grain (b : CodeWidth) : (openCodes b s).grain = s.grain := rfl
@[simp] theorem openCodes_count (b : CodeWidth) : (openCodes b s).count = s.count := rfl
@[simp] theorem openCodes_stride (b : CodeWidth) : (openCodes b s).stride = s.stride := rfl
@[simp] theorem openCodes_inputEnd (b : CodeWidth) : (openCodes b s).inputEnd = s.inputEnd := rfl
@[simp] theorem openCodes_selectorOffset (b : CodeWidth) : (openCodes b s).selectorOffset = s.selectorOffset := rfl
@[simp] theorem openCodes_trIndex (b : CodeWidth) : (openCodes b s).trIndex = s.trIndex := rfl
@[simp] theorem openCodes_nextCount (b : CodeWidth) : (openCodes b s).nextCount = s.nextCount := rfl
@[simp] theorem openCodes_inByte (b : CodeWidth) (a : Nat) : (openCodes b s).inByte a = s.inByte a := rfl
@[simp] theorem openCodes_trailerByte (b : CodeWidth) (a : Nat) : (openCodes b s).trailerByte a = s.trailerByte a := rfl

@[simp] theorem dropCode_vcount (b : CodeWidth) : (dropCode b s).vcount = s.vcount := rfl
@[simp] theorem dropCode_vstride (b : CodeWidth) : (dropCode b s).vstride = s.vstride := rfl
@[simp] theorem dropCode_buflen (b : CodeWidth) : (dropCode b s).buflen = s.buflen := rfl
@[simp] theorem dropCode_vcountWritten (b : CodeWidth) : (dropCode b s).vcountWritten = s.vcountWritten := rfl
@[simp] theorem dropCode_vstrideWritten (b : CodeWidth) : (dropCode b s).vstrideWritten = s.vstrideWritten := rfl
@[simp] theorem dropCode_buflenWritten (b : CodeWidth) : (dropCode b s).buflenWritten = s.buflenWritten := rfl
@[simp] theorem dropCode_status (b : CodeWidth) : (dropCode b s).status = s.status := rfl
@[simp] theorem dropCode_blockSize (b : CodeWidth) : (dropCode b s).blockSize = s.blockSize := rfl
@[simp] theorem dropCode_lastVertex (b : CodeWidth) : (dropCode b s).lastVertex = s.lastVertex := rfl
@[simp] theorem dropCode_plane (b : CodeWidth) : (dropCode b s).plane = s.plane := rfl
@[simp] theorem dropCode_tr (b : CodeWidth) : (dropCode b s).tr = s.tr := rfl
@[simp] theorem dropCode_pos (b : CodeWidth) : (dropCode b s).pos = s.pos := rfl
@[simp] theorem dropCode_hdr (b : CodeWidth) : (dropCode b s).hdr = s.hdr := rfl
@[simp] theorem dropCode_ov (b : CodeWidth) : (dropCode b s).ov = s.ov := rfl
@[simp] theorem dropCode_voff (b : CodeWidth) : (dropCode b s).voff = s.voff := rfl
@[simp] theorem dropCode_cnt (b : CodeWidth) : (dropCode b s).cnt = s.cnt := rfl
@[simp] theorem dropCode_k (b : CodeWidth) : (dropCode b s).k = s.k := rfl
@[simp] theorem dropCode_g (b : CodeWidth) : (dropCode b s).g = s.g := rfl
@[simp] theorem dropCode_i (b : CodeWidth) : (dropCode b s).i = s.i := rfl
@[simp] theorem dropCode_j (b : CodeWidth) : (dropCode b s).j = s.j := rfl
@[simp] theorem dropCode_inputByte (b : CodeWidth) : (dropCode b s).inputByte = s.inputByte <<< b.bits := rfl
@[simp] theorem dropCode_bitsConsumed (b : CodeWidth) : (dropCode b s).bitsConsumed = s.bitsConsumed + b.bits := rfl
@[simp] theorem dropCode_codeCursor (b : CodeWidth) : (dropCode b s).codeCursor = s.codeCursor := rfl
@[simp] theorem dropCode_p (b : CodeWidth) : (dropCode b s).p = s.p := rfl
@[simp] theorem dropCode_r (b : CodeWidth) : (dropCode b s).r = s.r := rfl
@[simp] theorem dropCode_v (b : CodeWidth) : (dropCode b s).v = s.v := rfl
@[simp] theorem dropCode_inMem (b : CodeWidth) : (dropCode b s).inMem = s.inMem := rfl
@[simp] theorem dropCode_inLen (b : CodeWidth) : (dropCode b s).inLen = s.inLen := rfl
@[simp] theorem dropCode_overlap (b : CodeWidth) : (dropCode b s).overlap = s.overlap := rfl
@[simp] theorem dropCode_outMem (b : CodeWidth) : (dropCode b s).outMem = s.outMem := rfl
@[simp] theorem dropCode_cmds (b : CodeWidth) : (dropCode b s).cmds = s.cmds := rfl
@[simp] theorem dropCode_rdata (b : CodeWidth) : (dropCode b s).rdata = s.rdata := rfl
@[simp] theorem dropCode_draws (b : CodeWidth) : (dropCode b s).draws = s.draws := rfl
@[simp] theorem dropCode_phase (b : CodeWidth) : (dropCode b s).phase = s.phase := rfl
@[simp] theorem dropCode_grain (b : CodeWidth) : (dropCode b s).grain = s.grain := rfl
@[simp] theorem dropCode_count (b : CodeWidth) : (dropCode b s).count = s.count := rfl
@[simp] theorem dropCode_stride (b : CodeWidth) : (dropCode b s).stride = s.stride := rfl
@[simp] theorem dropCode_inputEnd (b : CodeWidth) : (dropCode b s).inputEnd = s.inputEnd := rfl
@[simp] theorem dropCode_selectorOffset (b : CodeWidth) : (dropCode b s).selectorOffset = s.selectorOffset := rfl
@[simp] theorem dropCode_trIndex (b : CodeWidth) : (dropCode b s).trIndex = s.trIndex := rfl
@[simp] theorem dropCode_nextCount (b : CodeWidth) : (dropCode b s).nextCount = s.nextCount := rfl
@[simp] theorem dropCode_inByte (b : CodeWidth) (a : Nat) : (dropCode b s).inByte a = s.inByte a := rfl
@[simp] theorem dropCode_trailerByte (b : CodeWidth) (a : Nat) : (dropCode b s).trailerByte a = s.trailerByte a := rfl

end Sys2Proof.Machine
end

