-- ==== Sys2Proof/Laws/Memory.lean ====
section
/-! SUPPORT. What a read of one byte gives after a write of one byte or of a run, and that every memory operation
keeps the canonical form and the capacity. -/

namespace Sys2Proof.Machine

/-! ### Cells -/

theorem findCell_insertCell (l : List Host.Cell) (a b : Nat) (x : Byte) :
    findCell (insertCell l a x) b = if b = a then some x else findCell l b := by
  induction l with
  | nil => simp [insertCell, findCell]
  | cons c rest ih =>
    obtain ⟨c, y⟩ := c
    simp only [insertCell]
    split_ifs with h1 h2 h3 h4 <;> simp_all [findCell]

theorem risingCells_cons (c : Host.Cell) (l : List Host.Cell) :
    risingCells (c :: l) = true ↔ (∀ d ∈ l, c.1 < d.1) ∧ risingCells l = true := by
  induction l generalizing c with
  | nil => simp [risingCells]
  | cons d rest ih =>
    obtain ⟨a, x⟩ := c
    obtain ⟨b, y⟩ := d
    have hd := ih (b, y)
    simp only [risingCells, Bool.and_eq_true, decide_eq_true_eq, List.mem_cons, forall_eq_or_imp]
    constructor
    · rintro ⟨h, hr⟩
      exact ⟨⟨h, fun d hdm => lt_trans h ((hd.1 hr).1 d hdm)⟩, hr⟩
    · rintro ⟨⟨h, -⟩, hr⟩
      exact ⟨h, hr⟩

theorem findCell_eq_none_of_lt (l : List Host.Cell) (a : Nat) (h : ∀ d ∈ l, a < d.1) :
    findCell l a = none := by
  induction l with
  | nil => rfl
  | cons c rest ih =>
    have hc : a ≠ c.1 := Nat.ne_of_lt (h c (by simp))
    simp only [findCell, hc, if_false]
    exact ih fun d hd => h d (by simp [hd])

theorem mem_insertCell (l : List Host.Cell) (a : Nat) (x : Byte) (d : Host.Cell)
    (h : d ∈ insertCell l a x) : d = (a, x) ∨ d ∈ l := by
  induction l with
  | nil => simpa [insertCell] using h
  | cons c rest ih =>
    obtain ⟨b, y⟩ := c
    simp only [insertCell] at h
    split_ifs at h with h1 h2
    · exact List.mem_cons.1 h
    · simp only [List.mem_cons] at h ⊢
      tauto
    · simp only [List.mem_cons] at h ⊢
      rcases h with h | h
      · tauto
      · rcases ih h with h | h <;> tauto

theorem mem_eraseCell (l : List Host.Cell) (a : Nat) (d : Host.Cell) (h : d ∈ eraseCell l a) :
    d ∈ l := by
  induction l with
  | nil => exact h
  | cons c rest ih =>
    obtain ⟨b, y⟩ := c
    simp only [eraseCell] at h
    split_ifs at h
    · simp [h]
    · simp only [List.mem_cons] at h ⊢
      rcases h with h | h
      · exact .inl h
      · exact .inr (ih h)

theorem risingCells_insertCell (l : List Host.Cell) (a : Nat) (x : Byte) (h : risingCells l = true) :
    risingCells (insertCell l a x) = true := by
  induction l with
  | nil => rfl
  | cons c rest ih =>
    obtain ⟨b, y⟩ := c
    rw [risingCells_cons] at h
    simp only [insertCell]
    split_ifs with h1 h2
    · rw [risingCells_cons, risingCells_cons]
      refine ⟨fun d hd => ?_, h⟩
      rcases List.mem_cons.1 hd with rfl | hd
      · exact h1
      · exact lt_trans h1 (h.1 d hd)
    · subst h2
      rw [risingCells_cons]
      exact h
    · rw [risingCells_cons]
      refine ⟨fun d hd => ?_, ih h.2⟩
      rcases mem_insertCell _ _ _ _ hd with rfl | hd
      · show b < a
        omega
      · exact h.1 d hd

theorem risingCells_eraseCell (l : List Host.Cell) (a : Nat) (h : risingCells l = true) :
    risingCells (eraseCell l a) = true := by
  induction l with
  | nil => rfl
  | cons c rest ih =>
    obtain ⟨b, y⟩ := c
    rw [risingCells_cons] at h
    simp only [eraseCell]
    split_ifs
    · exact h.2
    · rw [risingCells_cons]
      exact ⟨fun d hd => h.1 d (mem_eraseCell _ _ _ hd), ih h.2⟩

theorem findCell_eraseCell (l : List Host.Cell) (a b : Nat) (h : risingCells l = true) :
    findCell (eraseCell l a) b = if b = a then none else findCell l b := by
  induction l with
  | nil => simp [eraseCell, findCell]
  | cons c rest ih =>
    obtain ⟨c, y⟩ := c
    rw [risingCells_cons] at h
    simp only [eraseCell]
    by_cases hac : a = c
    · subst hac
      by_cases hb : b = a
      · subst hb
        simpa using findCell_eq_none_of_lt rest b h.1
      · simp [findCell, hb]
    · simp only [hac, if_false, findCell, ih h.2]
      by_cases hbc : b = c
      · subst hbc
        simp [Ne.symm hac]
      · simp [hbc]

/-! ### One byte -/

@[simp] theorem Memory.find_empty (a : Nat) : Memory.empty.find a = none := rfl

@[simp] theorem Memory.byte_empty (a : Nat) : Memory.empty.byte a = 0#8 := rfl

@[simp] theorem Memory.wf_empty : Memory.empty.wf = true := rfl

@[simp] theorem Memory.rising_empty : Memory.empty.rising = true := rfl

@[simp] theorem Memory.below_empty (n : Nat) : Memory.empty.below n = true := rfl

theorem Memory.rising_of_wf {m : Memory} (h : m.wf = true) : m.rising = true := by
  simp only [Memory.wf, Bool.and_eq_true] at h
  exact h.1

theorem Memory.find_insert (m : Memory) (a b : Nat) (x : Byte) :
    (m.insert a x).find b = if b = a then some x else m.find b :=
  findCell_insertCell _ _ _ _

theorem Memory.byte_setByte {m : Memory} (h : m.rising = true) (a b : Nat) (x : Byte) :
    (m.setByte a x).byte b = if b = a then x else m.byte b := by
  unfold Memory.setByte Memory.byte Memory.find
  split_ifs with hx hb hb
  · simp [findCell_eraseCell _ _ _ h, hb, hx]
  · simp [findCell_eraseCell _ _ _ h, hb]
  · simp [findCell_insertCell, hb]
  · simp [findCell_insertCell, hb]

theorem Memory.rising_insert {m : Memory} (h : m.rising = true) (a : Nat) (x : Byte) :
    (m.insert a x).rising = true :=
  risingCells_insertCell _ _ _ h

theorem Memory.rising_setByte {m : Memory} (h : m.rising = true) (a : Nat) (x : Byte) :
    (m.setByte a x).rising = true := by
  unfold Memory.setByte
  split_ifs
  · exact risingCells_eraseCell _ _ h
  · exact risingCells_insertCell _ _ _ h

theorem Memory.wf_setByte {m : Memory} (h : m.wf = true) (a : Nat) (x : Byte) :
    (m.setByte a x).wf = true := by
  have hr := Memory.rising_setByte (Memory.rising_of_wf h) a x
  simp only [Memory.wf, Bool.and_eq_true, List.all_eq_true] at h ⊢
  refine ⟨hr, fun d hd => ?_⟩
  unfold Memory.setByte at hd
  split_ifs at hd with hx
  · exact h.2 d (mem_eraseCell _ _ _ hd)
  · rcases mem_insertCell _ _ _ _ hd with rfl | hd
    · simpa using hx
    · exact h.2 d hd

theorem Memory.below_setByte {m : Memory} {n : Nat} (h : m.below n = true) {a : Nat} (ha : a < n)
    (x : Byte) : (m.setByte a x).below n = true := by
  simp only [Memory.below, List.all_eq_true, decide_eq_true_eq] at h ⊢
  intro d hd
  unfold Memory.setByte at hd
  split_ifs at hd with hx
  · exact h d (mem_eraseCell _ _ _ hd)
  · rcases mem_insertCell _ _ _ _ hd with rfl | hd
    · exact ha
    · exact h d hd

/-! ### Runs -/

@[simp] theorem bytesUpTo_length (n : Nat) (f : Nat → Byte) : (bytesUpTo n f).length = n := by
  simp [bytesUpTo]

theorem bytesUpTo_getD (n : Nat) (f : Nat → Byte) (a : Nat) (h : a < n) (d : Byte) :
    (bytesUpTo n f).getD a d = f a := by
  simp [bytesUpTo, List.getD, h]

theorem Memory.rising_setRun {m : Memory} (h : m.rising = true) (base : Nat) (l : List Byte) :
    (m.setRun base l).rising = true := by
  induction l generalizing m base with
  | nil => exact h
  | cons x rest ih => exact ih (Memory.rising_setByte h _ _) _

theorem Memory.wf_setRun {m : Memory} (h : m.wf = true) (base : Nat) (l : List Byte) :
    (m.setRun base l).wf = true := by
  induction l generalizing m base with
  | nil => exact h
  | cons x rest ih => exact ih (Memory.wf_setByte h _ _) _

theorem Memory.below_setRun {m : Memory} {n : Nat} (h : m.below n = true) (base : Nat)
    (l : List Byte) (hb : base + l.length ≤ n) : (m.setRun base l).below n = true := by
  induction l generalizing m base with
  | nil => exact h
  | cons x rest ih =>
    simp only [List.length_cons] at hb
    exact ih (Memory.below_setByte h (by omega) _) _ (by omega)

theorem Memory.rising_insertRun {m : Memory} (h : m.rising = true) (base : Nat) (l : List Byte) :
    (m.insertRun base l).rising = true := by
  induction l generalizing m base with
  | nil => exact h
  | cons x rest ih => exact ih (Memory.rising_insert h _ _) _

/-- A run of bytes is read back inside it, and every other byte reads as before. -/
theorem Memory.byte_setRun {m : Memory} (h : m.rising = true) (base : Nat) (l : List Byte) (a : Nat) :
    (m.setRun base l).byte a
      = if base ≤ a ∧ a < base + l.length then l.getD (a - base) 0#8 else m.byte a := by
  induction l generalizing m base with
  | nil =>
    have : ¬ (base ≤ a ∧ a < base + ([] : List Byte).length) := by simp
    simp only [this, if_false, Memory.setRun]
  | cons x rest ih =>
    simp only [Memory.setRun, ih (Memory.rising_setByte h _ _), Memory.byte_setByte h, List.length_cons]
    by_cases hab : a = base
    · subst hab
      simp
    · by_cases hlt : base ≤ a ∧ a < base + (rest.length + 1)
      · have h1 : base + 1 ≤ a ∧ a < base + 1 + rest.length := by omega
        obtain ⟨n, hn⟩ : ∃ n, a - base = n + 1 := ⟨a - base - 1, by omega⟩
        have hn' : a - (base + 1) = n := by omega
        simp [hlt, h1, hn, hn']
      · have h1 : ¬ (base + 1 ≤ a ∧ a < base + 1 + rest.length) := by omega
        rw [if_neg h1, if_neg hlt, if_neg hab]

/-- A run of OUT bytes has its values, and every other byte is as before. -/
theorem Memory.find_insertRun (m : Memory) (base : Nat) (l : List Byte) (a : Nat) :
    (m.insertRun base l).find a
      = if base ≤ a ∧ a < base + l.length then some (l.getD (a - base) 0#8) else m.find a := by
  induction l generalizing m base with
  | nil =>
    have : ¬ (base ≤ a ∧ a < base + ([] : List Byte).length) := by simp
    simp only [this, if_false, Memory.insertRun]
  | cons x rest ih =>
    simp only [Memory.insertRun, ih, Memory.find_insert, List.length_cons]
    by_cases hab : a = base
    · subst hab
      simp
    · by_cases hlt : base ≤ a ∧ a < base + (rest.length + 1)
      · have h1 : base + 1 ≤ a ∧ a < base + 1 + rest.length := by omega
        obtain ⟨n, hn⟩ : ∃ n, a - base = n + 1 := ⟨a - base - 1, by omega⟩
        have hn' : a - (base + 1) = n := by omega
        simp [hlt, h1, hn, hn']
      · have h1 : ¬ (base + 1 ≤ a ∧ a < base + 1 + rest.length) := by omega
        rw [if_neg h1, if_neg hlt, if_neg hab]

end Sys2Proof.Machine
end

