-- ==== Sys2Proof/Laws/Units.lean ====
section
/-! SUPPORT. For each shared operation and each unit, one lemma that says everything it can do; the two ways to
reason about a counted loop. -/

namespace Sys2Proof.Machine

/-- The parts of the canonical form, by name. -/
theorem memoriesOk_iff (s : State) :
    s.memoriesOk = true ↔ s.inMem.wf = true ∧ s.outMem.rising = true
      ∧ (s.lastVertex.wf = true ∧ s.lastVertex.below 256 = true)
      ∧ (s.plane.wf = true ∧ s.plane.below 256 = true)
      ∧ (s.tr.wf = true ∧ s.tr.below 8192 = true) := by
  simp [State.memoriesOk, and_assoc]

theorem plane_rising {s : State} (h : s.memoriesOk = true) : s.plane.rising = true :=
  Memory.rising_of_wf ((memoriesOk_iff s).1 h).2.2.2.1.1

theorem tr_rising {s : State} (h : s.memoriesOk = true) : s.tr.rising = true :=
  Memory.rising_of_wf ((memoriesOk_iff s).1 h).2.2.2.2.1

theorem lastVertex_rising {s : State} (h : s.memoriesOk = true) : s.lastVertex.rising = true :=
  Memory.rising_of_wf ((memoriesOk_iff s).1 h).2.2.1.1

/-! ### Sequencing -/

@[simp] theorem Res.bind_ok (s : State) (f : State → Res) : (Res.ok s).bind f = f s := rfl

@[simp] theorem Res.bind_raised (e : ErrorKind) (s : State) (f : State → Res) :
    (Res.raised e s).bind f = .raised e s := rfl

@[simp] theorem Res.bind_fault (x : Fault) (f : State → Res) : (Res.fault x).bind f = .fault x := rfl

@[simp] theorem Res.bind_refused (x : Refusal) (f : State → Res) :
    (Res.refused x).bind f = .refused x := rfl

@[simp] theorem Res.outcome_ok (s : State) : (Res.ok s).outcome = .next s := rfl

@[simp] theorem Res.outcome_raised (e : ErrorKind) (s : State) :
    (Res.raised e s).outcome = .next (takeError e s) := rfl

@[simp] theorem Res.outcome_fault (x : Fault) : (Res.fault x).outcome = .fault x := rfl

@[simp] theorem Res.outcome_refused (x : Refusal) : (Res.refused x).outcome = .refused x := rfl

theorem Res.bind_eq_ok {x : Res} {f : State → Res} {t : State} :
    x.bind f = .ok t ↔ ∃ s, x = .ok s ∧ f s = .ok t := by
  cases x <;> simp

theorem Res.bind_eq_raised {x : Res} {f : State → Res} {e : ErrorKind} {t : State} :
    x.bind f = .raised e t ↔ x = .raised e t ∨ ∃ s, x = .ok s ∧ f s = .raised e t := by
  cases x <;> simp

theorem Res.bind_assoc (x : Res) (f g : State → Res) :
    (x.bind f).bind g = x.bind fun s => (f s).bind g := by
  cases x <;> rfl

/-- A step that goes on either returned or failed with one of the three errors. -/
theorem Res.outcome_eq_next {x : Res} {t : State} :
    x.outcome = .next t ↔ x = .ok t ∨ ∃ e u, x = .raised e u ∧ t = takeError e u := by
  cases x <;> simp [eq_comm]

/-- `P` holds of the state a unit returned or raised with; a stop is no state. -/
def Res.Holds (P : State → Prop) : Res → Prop
  | .ok s => P s
  | .raised _ s => P s
  | .fault _ => True
  | .refused _ => True

theorem Res.Holds.bind {P Q : State → Prop} {x : Res} {f : State → Res} (hx : x.Holds P)
    (hf : ∀ s, P s → (f s).Holds Q) (hpq : ∀ s, P s → Q s) : (x.bind f).Holds Q := by
  cases x with
  | ok s => exact hf s hx
  | raised e s => exact hpq s hx
  | fault _ => trivial
  | refused _ => trivial

/-- What every turn of a counted loop keeps, the loop keeps. -/
theorem repeatUnit_holds {P : State → Prop} {f : State → Res} (hf : ∀ s, P s → (f s).Holds P)
    (n : Nat) {s : State} (hs : P s) : (repeatUnit n f s).Holds P := by
  induction n generalizing s with
  | zero => exact hs
  | succ n ih => exact (hf s hs).bind (fun t ht => ih ht) fun _ h => h

/-- A counted loop whose every turn returns, returns, and its turns are the states `q 0 .. q n`. -/
theorem repeatUnit_returns {P : Nat → State → Prop} {f : State → Res} (n : Nat) {s : State}
    (hs : P 0 s) (hf : ∀ m t, m < n → P m t → ∃ u, f t = .ok u ∧ P (m + 1) u) :
    ∃ q : Nat → State, q 0 = s ∧ (∀ m, m < n → f (q m) = .ok (q (m + 1))) ∧ (∀ m, m ≤ n → P m (q m))
      ∧ repeatUnit n f s = .ok (q n) := by
  induction n generalizing s P with
  | zero => exact ⟨fun _ => s, rfl, by simp, by simp [hs], rfl⟩
  | succ n ih =>
    obtain ⟨u, hu, hPu⟩ := hf 0 s (by omega) hs
    obtain ⟨q, hq0, hq, hP, hr⟩ := ih (P := fun m => P (m + 1)) hPu
      fun m t hm => hf (m + 1) t (by omega)
    refine ⟨fun m => if m = 0 then s else q (m - 1), rfl, fun m hm => ?_, fun m hm => ?_, ?_⟩
    · rcases m with _ | m
      · simpa [hq0] using hu
      · simpa using hq m (by omega)
    · rcases m with _ | m
      · exact hs
      · simpa using hP m (by omega)
    · simp [repeatUnit, hu, hr]

theorem repeatUnit_succ (n : Nat) (f : State → Res) (s : State) :
    repeatUnit (n + 1) f s = (f s).bind (repeatUnit n f) := rfl

/-- The run of a counted loop: its turns are the states `q 0 .. q m`, and it ended with all of them done or at the first
turn that did not return. -/
theorem repeatUnit_trace (n : Nat) (f : State → Res) (s : State) :
    ∃ (q : Nat → State) (m : Nat), m ≤ n ∧ q 0 = s ∧ (∀ a, a < m → f (q a) = .ok (q (a + 1))) ∧
      (m = n ∧ repeatUnit n f s = .ok (q m) ∨
        m < n ∧ (∀ t, f (q m) ≠ .ok t) ∧ repeatUnit n f s = f (q m)) := by
  induction n generalizing s with
  | zero => exact ⟨fun _ => s, 0, le_refl _, rfl, by simp, .inl ⟨rfl, rfl⟩⟩
  | succ n ih =>
    have hstop : (∀ t, f s ≠ .ok t) → (f s).bind (repeatUnit n f) = f s := by
      intro h
      cases hs : f s with
      | ok t => exact absurd hs (h t)
      | raised e t => rfl
      | fault x => rfl
      | refused x => rfl
    by_cases h : ∃ t, f s = .ok t
    · obtain ⟨t, ht⟩ := h
      obtain ⟨q, m, hm, h0, h1, h2⟩ := ih t
      refine ⟨fun a => if a = 0 then s else q (a - 1), m + 1, by omega, rfl, fun a ha => ?_, ?_⟩
      · rcases a with _ | a
        · simpa [h0] using ht
        · simpa using h1 a (by omega)
      · rw [repeatUnit_succ, ht, Res.bind_ok]
        rcases h2 with ⟨rfl, h2⟩ | ⟨h3, h4, h5⟩
        · exact .inl ⟨rfl, by simpa using h2⟩
        · exact .inr ⟨by omega, by simpa using h4, by simpa using h5⟩
    · have h' : ∀ t, f s ≠ .ok t := fun t ht => h ⟨t, ht⟩
      exact ⟨fun _ => s, 0, by omega, rfl, by simp, .inr ⟨by omega, h', hstop h'⟩⟩

theorem repeatUnit_append (m n : Nat) (f : State → Res) (s : State) :
    repeatUnit (m + n) f s = (repeatUnit m f s).bind (repeatUnit n f) := by
  induction m generalizing s with
  | zero => simp [repeatUnit]
  | succ m ih =>
    rw [Nat.succ_add, repeatUnit_succ, repeatUnit_succ, Res.bind_assoc]
    congr 1
    funext t
    exact ih t

/-! ### U1 -/

theorem writeLane_eq_ok {x : Byte} {s t : State} :
    writeLane x s = .ok t ↔ 16 * s.g + s.j < 256 ∧
      t = { s with plane := s.plane.setByte (16 * s.g + s.j) x } := by
  unfold writeLane
  split_ifs with h <;> simp_all [eq_comm]

theorem writeLane_not_raised {x : Byte} {s t : State} {e : ErrorKind} : writeLane x s ≠ .raised e t := by
  unfold writeLane
  split_ifs <;> simp

theorem escapeLane_eq_ok {s t : State} :
    escapeLane s = .ok t ↔ s.ov < s.buflen ∧ 16 * s.g + s.j < 256 ∧
      t = { s with
        plane := s.plane.setByte (16 * s.g + s.j) (s.inByte s.ov)
        ov := s.ov + 1 } := by
  unfold escapeLane
  split_ifs with h
  · simp only [Res.bind_eq_ok, writeLane_eq_ok]
    constructor
    · rintro ⟨u, ⟨hg, rfl⟩, ht⟩
      simp_all [eq_comm]
    · rintro ⟨-, hg, rfl⟩
      exact ⟨_, ⟨hg, rfl⟩, rfl⟩
  · simp [h]

theorem groupUnit_eq_ok {w : BitVec 2} {s t : State} :
    groupUnit w s = .ok t ↔
      (s.pos + 32 ≤ s.inputEnd ∧ s.inputEnd ≤ s.buflen) ∧ 16 * s.g + 16 ≤ 256 ∧
      t = afterDecodeGroup w s := by
  unfold groupUnit
  split_ifs with h1 h2
  · exact ⟨fun h => ⟨h1, h2, (Res.ok.inj h).symm⟩, fun h => congrArg Res.ok h.2.2.symm⟩
  · exact ⟨fun h => by simp at h, fun h => absurd h.2.1 h2⟩
  · exact ⟨fun h => by simp at h, fun h => absurd h.1 h1⟩

theorem groupUnit_not_raised {w : BitVec 2} {s t : State} {e : ErrorKind} :
    groupUnit w s ≠ .raised e t := by
  unfold groupUnit
  split_ifs <;> simp

/-! ### U2 -/

/-- The input slice ends at the end of the buffer (R175). -/
@[simp] theorem inputEnd_eq (s : State) : s.inputEnd = s.buflen := rfl

theorem marginHolds_iff (s : State) : s.marginHolds = true ↔ s.pos + 32 ≤ s.buflen := by
  exact decide_eq_true_iff

theorem groupTurn_eq_ok {s t : State} :
    groupTurn s = .ok t ↔ s.pos + 32 ≤ s.buflen ∧ s.selectorOffset < s.buflen ∧ 16 * s.g + 16 ≤ 256 ∧
      ∃ u, groupUnit s.selector s = .ok u ∧ t = { u with g := u.g + 1 } := by
  unfold groupTurn
  split_ifs with h1 h2
  · rw [marginHolds_iff] at h1
    simp only [Res.bind_eq_ok, Res.ok.injEq]
    constructor
    · rintro ⟨u, hu, rfl⟩
      exact ⟨h1, h2, (groupUnit_eq_ok.1 hu).2.1, u, hu, rfl⟩
    · rintro ⟨-, -, -, u, hu, rfl⟩
      exact ⟨u, hu, rfl⟩
  · simp [h2]
  · rw [marginHolds_iff] at h1
    simp [h1]

theorem groupTurn_eq_raised {s t : State} {e : ErrorKind} :
    groupTurn s = .raised e t ↔ ¬ s.pos + 32 ≤ s.buflen ∧ e = .truncation ∧ t = s := by
  unfold groupTurn
  split_ifs with h1 h2
  · rw [marginHolds_iff] at h1
    simp [Res.bind_eq_raised, groupUnit_not_raised, h1]
  · rw [marginHolds_iff] at h1
    simp [h1]
  · rw [marginHolds_iff] at h1
    simp [h1, eq_comm]

/-! ### U3 -/

/-- The chain moves nothing but `r`, `v`, `tr`, `p` and `i`. -/
theorem chainLoop_frame (n : Nat) (s : State) :
    ∃ r v tr p i, chainLoop n s = { s with r := r, v := v, tr := tr, p := p, i := i } := by
  induction n generalizing s with
  | zero => exact ⟨s.r, s.v, s.tr, s.p, s.i, rfl⟩
  | succ n ih =>
    obtain ⟨r, v, tr, p, i, h⟩ := ih (nextVertex (transposeWrite (addDelta (unzigzagRead s))))
    refine ⟨r, v, tr, p, i, ?_⟩
    rw [chainLoop, h]
    simp

theorem deltaUnit_eq_ok {s t : State} :
    deltaUnit s = .ok t ↔ s.k < 256 ∧ s.cnt ≤ 256 ∧ (s.cnt = 0 ∨ (s.cnt - 1) * s.stride + s.k < 8192) ∧
      t = chainLoop s.cnt (openChain s) := by
  unfold deltaUnit
  split_ifs with h1 h2 h3 <;> simp_all [eq_comm]

theorem deltaUnit_not_raised {s t : State} {e : ErrorKind} : deltaUnit s ≠ .raised e t := by
  unfold deltaUnit
  split_ifs <;> simp

/-! ### U4 -/

theorem commitUnit_eq_ok {s t : State} :
    commitUnit s = .ok t ↔ s.cnt * s.stride ≤ 8192 ∧
      (s.voff + s.cnt) * s.stride ≤ s.count * s.stride ∧
      t = { s with
        outMem := s.outMem.insertRun (s.voff * s.stride)
          (bytesUpTo (s.cnt * s.stride) s.tr.byte) } := by
  unfold commitUnit
  split_ifs with h1 h2 <;> simp_all [eq_comm]

theorem commitUnit_not_raised {s t : State} {e : ErrorKind} : commitUnit s ≠ .raised e t := by
  unfold commitUnit
  split_ifs <;> simp

theorem carryUnit_eq_ok {s t : State} :
    carryUnit s = .ok t ↔ s.stride ≤ 256 ∧
      t = { s with
        lastVertex := s.lastVertex.setRun 0
          (bytesUpTo s.stride fun k => s.tr.byte ((s.cnt - 1) * s.stride + k)) } := by
  unfold carryUnit
  split_ifs with h1 <;> simp_all [eq_comm]

theorem carryUnit_not_raised {s t : State} {e : ErrorKind} : carryUnit s ≠ .raised e t := by
  unfold carryUnit
  split_ifs <;> simp

theorem planeTurn_eq_ok {s t : State} :
    planeTurn s = .ok t ↔
      ∃ u w, planeUnit s = .ok u ∧ deltaUnit u = .ok w ∧ t = { w with k := w.k + 1 } := by
  unfold planeTurn
  simp only [Res.bind_eq_ok, Res.ok.injEq]
  constructor
  · rintro ⟨u, hu, w, hw, rfl⟩
    exact ⟨u, w, hu, hw, rfl⟩
  · rintro ⟨u, w, hu, hw, rfl⟩
    exact ⟨u, hu, w, hw, rfl⟩

theorem blockUnit_eq_ok {s t : State} :
    blockUnit s = .ok t ↔ s.cnt ≠ 0 ∧ s.cnt ≤ 256 ∧ s.cnt * s.stride ≤ 8192 ∧
      ∃ u w, repeatUnit s.stride planeTurn { s with k := 0 } = .ok u ∧ commitUnit u = .ok w ∧
        carryUnit w = .ok t := by
  unfold blockUnit
  split_ifs with h1 h2
  · simp only [false_iff]
    simp at h1
    omega
  · simp only [false_iff]
    simp at h2
    omega
  · simp only [Config.maxBlock, Config.blockBytes] at h1 h2
    simp only [Res.bind_eq_ok]
    constructor
    · rintro ⟨u, hu, w, hw, ht⟩
      exact ⟨by omega, by omega, by omega, u, w, hu, hw, ht⟩
    · rintro ⟨-, -, -, u, w, hu, hw, ht⟩
      exact ⟨u, hu, w, hw, ht⟩

/-! ### U5 -/

theorem tagUnit_eq (s : State) (h : 0 < s.buflen) :
    tagUnit s = if s.inByte 0 = Config.tag then .ok { s with pos := 1 } else .raised .format s := by
  unfold tagUnit decode
  by_cases ht : s.inByte 0 = Config.tag <;> simp_all

theorem seedUnit_eq_ok {s t : State} :
    seedUnit s = .ok t ↔ s.stride ≤ 256 ∧ s.stride + 1 ≤ s.buflen ∧
      t = { s with
        lastVertex := s.lastVertex.setRun 0 (bytesUpTo s.stride s.trailerByte)
        blockSize := blockSizeOf s.stride
        pos := 1
        voff := 0 } := by
  unfold seedUnit
  split_ifs with h1 h2 <;> simp_all [eq_comm]

theorem seedUnit_not_raised {s t : State} {e : ErrorKind} : seedUnit s ≠ .raised e t := by
  unfold seedUnit
  split_ifs <;> simp

theorem blockTurn_eq_ok {s t : State} :
    blockTurn s = .ok t ↔
      ∃ u, blockUnit { s with cnt := s.nextCount } = .ok u ∧ t = advanceVoff u := by
  unfold blockTurn
  simp only [Res.bind_eq_ok, Res.ok.injEq]
  constructor
  · rintro ⟨u, hu, rfl⟩
    exact ⟨u, hu, rfl⟩
  · rintro ⟨u, hu, rfl⟩
    exact ⟨u, hu, rfl⟩

/-- A START the host may give has a meaning (R204, R222). -/
theorem startRefusal_eq_none {s : State} (h : s.startable = true) : startRefusal s = none := by
  simp only [State.startable, Bool.and_eq_true, decide_eq_true_eq, Bool.not_eq_true'] at h
  obtain ⟨⟨⟨⟨⟨-, h1⟩, h2⟩, h3⟩, h4⟩, h5⟩ := h
  simp [startRefusal, h1, h2, h3, h4, h5, fitsAddrW]

/-- DECODE from a start the host may give is the body of a decode. -/
theorem decodeUnit_of_startable {s : State} (h : s.startable = true) :
    decodeUnit s = decodeBody (beginBusy s) := by
  have hb : s.status.state ≠ .busy := by
    simp only [State.startable, Bool.and_eq_true, decide_eq_true_eq] at h
    exact h.1.1.1.1.1
  simp [decodeUnit, hb, startRefusal_eq_none h]

/-! ### The bit cursor and the host -/

theorem loadCodeByte_cases (s : State) :
    (s.bitsConsumed ≠ 0 ∧ s.bitsConsumed ≠ 8 ∧ loadCodeByte s = .ok s)
    ∨ (s.codeCursor < s.buflen ∧ loadCodeByte s = .ok { s with
        inputByte := s.inByte s.codeCursor
        codeCursor := s.codeCursor + 1
        bitsConsumed := 0 })
    ∨ (¬ s.codeCursor < s.buflen ∧ loadCodeByte s = .fault (.inOutOfRange s.codeCursor)) := by
  unfold loadCodeByte
  split_ifs with h1 h2 <;> simp_all

theorem whenNotBusy_cases (s t : State) :
    (s.status.state = .busy ∧ whenNotBusy s t = .refused .hostAccessWhileBusy)
    ∨ (s.status.state ≠ .busy ∧ whenNotBusy s t = .next t) := by
  unfold whenNotBusy
  split_ifs with h <;> simp [h]

end Sys2Proof.Machine
end

