-- ==== Sys2Proof/Laws/Chain.lean ====
section
/-! SUPPORT. The delta chain in closed form: the accumulator after `n` vertices, the cells written and the cells left
alone. -/

namespace Sys2Proof.Machine

/-- One turn of the chain (R142). -/
def chainTurn (s : State) : State := nextVertex (transposeWrite (addDelta (unzigzagRead s)))

/-- The seed plus the deltas of `n` plane values from value `i` on, modulo 256 (R142, R146). -/
def chainValue (pl : Memory) (seed : Byte) (i n : Nat) : Byte :=
  (List.range n).foldl (fun acc t => acc + unzigzagByte (pl.byte (i + t))) seed

@[simp] theorem chainValue_zero (pl : Memory) (seed : Byte) (i : Nat) : chainValue pl seed i 0 = seed := rfl

theorem chainValue_succ (pl : Memory) (seed : Byte) (i n : Nat) :
    chainValue pl seed i (n + 1) = chainValue pl seed i n + unzigzagByte (pl.byte (i + n)) := by
  simp [chainValue, List.range_succ, List.foldl_append]

/-- A chain depends on the plane values it adds and on no others. -/
theorem chainValue_congr {pl pl' : Memory} {i n : Nat} (seed : Byte)
    (h : ∀ t, t < n → pl'.byte (i + t) = pl.byte (i + t)) :
    chainValue pl' seed i n = chainValue pl seed i n := by
  induction n with
  | zero => rfl
  | succ n ih => rw [chainValue_succ, chainValue_succ, ih fun t ht => h t (by omega), h n (by omega)]

theorem chainLoop_succ (n : Nat) (s : State) : chainLoop (n + 1) s = chainTurn (chainLoop n s) := by
  induction n generalizing s with
  | zero => rfl
  | succ n ih =>
    rw [chainLoop, ih]
    rfl

theorem chainLoop_plane (n : Nat) (s : State) : (chainLoop n s).plane = s.plane := by
  obtain ⟨r, v, tr, p, i, h⟩ := chainLoop_frame n s
  rw [h]

theorem chainLoop_k (n : Nat) (s : State) : (chainLoop n s).k = s.k := by
  obtain ⟨r, v, tr, p, i, h⟩ := chainLoop_frame n s
  rw [h]

theorem chainLoop_stride (n : Nat) (s : State) : (chainLoop n s).stride = s.stride := by
  obtain ⟨r, v, tr, p, i, h⟩ := chainLoop_frame n s
  rw [h]
  rfl

theorem chainLoop_i (n : Nat) (s : State) : (chainLoop n s).i = s.i + n := by
  induction n with
  | zero => rfl
  | succ n ih =>
    rw [chainLoop_succ]
    simp [chainTurn, ih]
    omega

theorem chainLoop_p (n : Nat) (s : State) : (chainLoop n s).p = chainValue s.plane s.p s.i n := by
  induction n with
  | zero => rfl
  | succ n ih =>
    rw [chainLoop_succ, chainValue_succ]
    simp [chainTurn, ih, chainLoop_plane, chainLoop_i, BitVec.add_comm]

theorem chainLoop_tr (n : Nat) (s : State) :
    (chainLoop (n + 1) s).tr = (chainLoop n s).tr.setByte ((s.i + n) * s.stride + s.k)
      (chainValue s.plane s.p s.i (n + 1)) := by
  rw [chainLoop_succ, chainValue_succ]
  simp [chainTurn, State.trIndex, chainLoop_plane, chainLoop_i, chainLoop_p, chainLoop_k, chainLoop_stride,
    BitVec.add_comm]

theorem chainLoop_tr_rising {s : State} (h : s.tr.rising = true) (n : Nat) :
    (chainLoop n s).tr.rising = true := by
  induction n with
  | zero => exact h
  | succ n ih =>
    rw [chainLoop_tr]
    exact Memory.rising_setByte ih _ _

/-- The cells the chain does not write are as before. -/
theorem chainLoop_tr_other {s : State} (h : s.tr.rising = true) (n : Nat) (a : Nat)
    (ha : ∀ m, m < n → a ≠ (s.i + m) * s.stride + s.k) : (chainLoop n s).tr.byte a = s.tr.byte a := by
  induction n with
  | zero => rfl
  | succ n ih =>
    rw [chainLoop_tr, Memory.byte_setByte (chainLoop_tr_rising h n), if_neg (ha n (by omega))]
    exact ih fun m hm => ha m (by omega)

/-- The cell of each vertex holds the chain's value there. -/
theorem chainLoop_tr_cell {s : State} (h : s.tr.rising = true) (hS : 0 < s.stride) (n m : Nat) (hm : m < n) :
    (chainLoop n s).tr.byte ((s.i + m) * s.stride + s.k) = chainValue s.plane s.p s.i (m + 1) := by
  induction n with
  | zero => omega
  | succ n ih =>
    rw [chainLoop_tr, Memory.byte_setByte (chainLoop_tr_rising h n)]
    by_cases hmn : m = n
    · simp [hmn]
    · have hne : (s.i + m) * s.stride + s.k ≠ (s.i + n) * s.stride + s.k := by
        intro he
        exact hmn (by have := Nat.eq_of_mul_eq_mul_right hS (Nat.add_right_cancel he); omega)
      rw [if_neg hne]
      exact ih (by omega)

/-- The chain keeps the canonical form and, where its cells exist, the capacity. -/
theorem chainLoop_tr_wf {s : State} (h : s.tr.wf = true) (n : Nat) : (chainLoop n s).tr.wf = true := by
  induction n with
  | zero => exact h
  | succ n ih =>
    rw [chainLoop_tr]
    exact Memory.wf_setByte ih _ _

theorem chainLoop_tr_below {s : State} {c : Nat} (h : s.tr.below c = true) (n : Nat)
    (hc : n = 0 ∨ (s.i + (n - 1)) * s.stride + s.k < c) : (chainLoop n s).tr.below c = true := by
  induction n with
  | zero => exact h
  | succ n ih =>
    have hlast : (s.i + n) * s.stride + s.k < c := by simpa using hc
    rw [chainLoop_tr]
    refine Memory.below_setByte (ih ?_) hlast _
    rcases n with _ | n
    · exact .inl rfl
    · refine .inr (lt_of_le_of_lt ?_ hlast)
      exact Nat.add_le_add_right (Nat.mul_le_mul_right _ (by omega)) _

end Sys2Proof.Machine
end

