-- ==== Sys2Proof/Laws/Groups.lean ====
section
/-! SUPPORT. The lanes of a packed group in closed form: how many there are, where the overflow cursor ends, and what
each lane is; what DecodeGroup consumes at most and depends on. -/

namespace Sys2Proof.Machine

/-- How many of the `n` lanes from lane `j` on are escapes. -/
def escapesFrom (o : CodeOrder) (b : Nat) (rd : Nat → Byte) (pos j n : Nat) : Nat :=
  (List.range n).countP fun m => laneCode o b (rd (pos + (j + m) / (8 / b))) (j + m) == 2 ^ b - 1

theorem escapesFrom_succ (o : CodeOrder) (b : Nat) (rd : Nat → Byte) (pos j n : Nat) :
    escapesFrom o b rd pos j (n + 1)
      = (if laneCode o b (rd (pos + j / (8 / b))) j = 2 ^ b - 1 then 1 else 0)
        + escapesFrom o b rd pos (j + 1) n := by
  unfold escapesFrom
  rw [List.range_succ_eq_map, List.countP_cons, List.countP_map]
  have h : ((fun m => laneCode o b (rd (pos + (j + m) / (8 / b))) (j + m) == 2 ^ b - 1) ∘ Nat.succ)
      = fun m => laneCode o b (rd (pos + (j + 1 + m) / (8 / b))) (j + 1 + m) == 2 ^ b - 1 := by
    funext m
    simp only [Function.comp, Nat.succ_eq_add_one]
    rw [show j + (m + 1) = j + 1 + m by omega]
  rw [h]
  simp only [Nat.add_zero, beq_iff_eq]
  omega

theorem escapesFrom_le (o : CodeOrder) (b : Nat) (rd : Nat → Byte) (pos j n : Nat) :
    escapesFrom o b rd pos j n ≤ n := by
  simpa [escapesFrom] using
    List.countP_le_length (l := List.range n)
      (p := fun m => laneCode o b (rd (pos + (j + m) / (8 / b))) (j + m) == 2 ^ b - 1)

theorem packedLanes_length (o : CodeOrder) (b : Nat) (rd : Nat → Byte) (pos n j ov : Nat) :
    (packedLanes o b rd pos n j ov).1.length = n := by
  induction n generalizing j ov with
  | zero => rfl
  | succ n ih =>
    simp only [packedLanes]
    split_ifs <;> simp [ih]

theorem packedLanes_snd (o : CodeOrder) (b : Nat) (rd : Nat → Byte) (pos n j ov : Nat) :
    (packedLanes o b rd pos n j ov).2 = ov + escapesFrom o b rd pos j n := by
  induction n generalizing j ov with
  | zero => simp [packedLanes, escapesFrom]
  | succ n ih =>
    rw [escapesFrom_succ]
    simp only [packedLanes]
    split_ifs with h
    · simp only [ih]
      omega
    · simp [ih]

theorem packedLanes_getD (o : CodeOrder) (b : Nat) (rd : Nat → Byte) (pos n j ov m : Nat)
    (hm : m < n) :
    (packedLanes o b rd pos n j ov).1.getD m 0#8
      = if laneCode o b (rd (pos + (j + m) / (8 / b))) (j + m) = 2 ^ b - 1
        then rd (ov + escapesFrom o b rd pos j m)
        else BitVec.ofNat 8 (laneCode o b (rd (pos + (j + m) / (8 / b))) (j + m)) := by
  induction n generalizing j ov m with
  | zero => omega
  | succ n ih =>
    cases m with
    | zero =>
      simp only [packedLanes]
      split_ifs <;> simp_all [escapesFrom]
    | succ m =>
      rw [escapesFrom_succ, show j + (m + 1) = j + 1 + m by omega]
      simp only [packedLanes]
      split_ifs with h h2 h2 <;> simp only [List.getD_cons_succ] <;> rw [ih _ _ _ (by omega)] <;>
        simp [h2]
      congr 1
      omega

/-- A packed group's values, cursor and lanes. -/
theorem packedGroup_spec (o : CodeOrder) (b : CodeWidth) (rd : Nat → Byte) (pos : Nat) :
    (packedGroup o b rd pos).1.length = 16 ∧
    (packedGroup o b rd pos).2 = pos + 2 * b.bits + escapesFrom o b.bits rd pos 0 16 ∧
    ∀ j, j < 16 → (packedGroup o b rd pos).1.getD j 0#8 =
      if laneCode o b.bits (rd (pos + j / (8 / b.bits))) j = 2 ^ b.bits - 1
      then rd (pos + 2 * b.bits + escapesFrom o b.bits rd pos 0 j)
      else BitVec.ofNat 8 (laneCode o b.bits (rd (pos + j / (8 / b.bits))) j) := by
  refine ⟨packedLanes_length .., packedLanes_snd .., fun j hj => ?_⟩
  have h := packedLanes_getD o b.bits rd pos 16 0 (pos + 2 * b.bits) j hj
  simp only [Nat.zero_add] at h
  exact h

/-- A group of 2-bit codes: its lanes with the numbers of R102. -/
theorem packedGroup_two (o : CodeOrder) (rd : Nat → Byte) (pos : Nat) :
    (packedGroup o .two rd pos).1.length = 16 ∧
    (packedGroup o .two rd pos).2 = pos + 4 + escapesFrom o 2 rd pos 0 16 ∧
    ∀ j, j < 16 → (packedGroup o .two rd pos).1.getD j 0#8 =
      if laneCode o 2 (rd (pos + j / 4)) j = 3 then rd (pos + 4 + escapesFrom o 2 rd pos 0 j)
      else BitVec.ofNat 8 (laneCode o 2 (rd (pos + j / 4)) j) :=
  packedGroup_spec o .two rd pos

/-- A group of 4-bit codes: its lanes with the numbers of R103. -/
theorem packedGroup_four (o : CodeOrder) (rd : Nat → Byte) (pos : Nat) :
    (packedGroup o .four rd pos).1.length = 16 ∧
    (packedGroup o .four rd pos).2 = pos + 8 + escapesFrom o 4 rd pos 0 16 ∧
    ∀ j, j < 16 → (packedGroup o .four rd pos).1.getD j 0#8 =
      if laneCode o 4 (rd (pos + j / 2)) j = 15 then rd (pos + 8 + escapesFrom o 4 rd pos 0 j)
      else BitVec.ofNat 8 (laneCode o 4 (rd (pos + j / 2)) j) :=
  packedGroup_spec o .four rd pos

/-- What each selector decodes as. -/
theorem decodeGroup_selector (o : CodeOrder) (rd : Nat → Byte) (pos : Nat) :
    decodeGroup o 0#2 rd pos = zeroGroup pos ∧ decodeGroup o 1#2 rd pos = packedGroup o .two rd pos ∧
    decodeGroup o 2#2 rd pos = packedGroup o .four rd pos ∧ decodeGroup o 3#2 rd pos = rawGroup rd pos :=
  ⟨rfl, rfl, rfl, rfl⟩

theorem selector_cases (w : BitVec 2) : w = 0#2 ∨ w = 1#2 ∨ w = 2#2 ∨ w = 3#2 := by
  revert w
  decide

/-- The lanes depend on their code bytes and on the literals they take. -/
theorem packedLanes_congr (o : CodeOrder) (b : Nat) (rd rd' : Nat → Byte) (pos n j ov : Nat)
    (hc : ∀ m, j ≤ m → m < j + n → rd' (pos + m / (8 / b)) = rd (pos + m / (8 / b)))
    (ho : ∀ a, ov ≤ a → a < (packedLanes o b rd pos n j ov).2 → rd' a = rd a) :
    packedLanes o b rd' pos n j ov = packedLanes o b rd pos n j ov := by
  induction n generalizing j ov with
  | zero => rfl
  | succ n ih =>
    simp only [packedLanes] at ho ⊢
    rw [hc j (by omega) (by omega)]
    split_ifs at ho ⊢ with h
    · have hlt := packedLanes_snd o b rd pos n (j + 1) (ov + 1)
      rw [ih (j + 1) (ov + 1) (fun m h1 h2 => hc m (by omega) (by omega))
        (fun a h1 h2 => ho a (by omega) h2), ho ov (le_refl _) (by simp only; omega)]
    · rw [ih (j + 1) ov (fun m h1 h2 => hc m (by omega) (by omega))
        (fun a h1 h2 => ho a (by omega) h2)]

/-- DecodeGroup delivers sixteen values and consumes at most 24 bytes. -/
theorem decodeGroup_bounds (o : CodeOrder) (w : BitVec 2) (rd : Nat → Byte) (pos : Nat) :
    (decodeGroup o w rd pos).1.length = 16 ∧ pos ≤ (decodeGroup o w rd pos).2 ∧
      (decodeGroup o w rd pos).2 ≤ pos + 24 := by
  unfold decodeGroup
  split_ifs
  · simp [zeroGroup]
  · obtain ⟨h1, h2, -⟩ := packedGroup_spec o .two rd pos
    have h3 := escapesFrom_le o 2 rd pos 0 16
    simp only [CodeWidth.bits] at h2
    omega
  · obtain ⟨h1, h2, -⟩ := packedGroup_spec o .four rd pos
    have h3 := escapesFrom_le o 4 rd pos 0 16
    simp only [CodeWidth.bits] at h2
    omega
  · simp [rawGroup]

end Sys2Proof.Machine
end

