-- ==== Sys2Proof/Laws/Planes.lean ====
section
/-! SUPPORT. What a group, a plane and a plane's chain can do: what they move, that they never leave the buffer, and
where they end. -/

namespace Sys2Proof.Machine

/-- `t` is `s` with nothing moved but the working state of a plane, its array still canonical (R42, R126). -/
def PlaneMoves (s t : State) : Prop :=
  (∃ pl pos hdr ov j g, t = { s with plane := pl, pos := pos, hdr := hdr, ov := ov, j := j, g := g }) ∧
    (s.plane.wf = true → t.plane.wf = true) ∧
    (s.plane.below 256 = true → t.plane.below 256 = true)

theorem PlaneMoves.refl (s : State) : PlaneMoves s s :=
  ⟨⟨s.plane, s.pos, s.hdr, s.ov, s.j, s.g, rfl⟩, id, id⟩

theorem PlaneMoves.trans {s t u : State} (h1 : PlaneMoves s t) (h2 : PlaneMoves t u) : PlaneMoves s u := by
  obtain ⟨⟨pl, pos, hdr, ov, j, g, rfl⟩, hw, hb⟩ := h1
  obtain ⟨⟨pl', pos', hdr', ov', j', g', rfl⟩, hw', hb'⟩ := h2
  exact ⟨⟨pl', pos', hdr', ov', j', g', rfl⟩, hw' ∘ hw, hb' ∘ hb⟩

theorem PlaneMoves.memoriesOk {s t : State} (h : PlaneMoves s t) (hm : s.memoriesOk = true) :
    t.memoriesOk = true := by
  obtain ⟨⟨pl, pos, hdr, ov, j, g, rfl⟩, hw, hb⟩ := h
  rw [memoriesOk_iff] at hm ⊢
  exact ⟨hm.1, hm.2.1, hm.2.2.1, ⟨hw hm.2.2.2.1.1, hb hm.2.2.2.1.2⟩, hm.2.2.2.2⟩

/-- What a plane leaves as it was: everything of a state but its six pieces of working state. -/
theorem PlaneMoves.frame {s t : State} (h : PlaneMoves s t) :
    t = { s with plane := t.plane, pos := t.pos, hdr := t.hdr, ov := t.ov, j := t.j, g := t.g } := by
  obtain ⟨⟨pl, pos, hdr, ov, j, g, rfl⟩, -, -⟩ := h
  rfl

/-! ### Sizes -/

theorem numGroups_eq (cnt : Nat) : numGroups cnt = (cnt + 15) / 16 := by
  simp only [numGroups, alignedCount, roundUp, ceilDiv, Config.group]
  omega

theorem headerSize_eq (cnt : Nat) : headerSize cnt = (numGroups cnt + 3) / 4 := rfl

theorem numGroups_bounds {cnt : Nat} (h1 : 1 ≤ cnt) (h2 : cnt ≤ 256) :
    1 ≤ numGroups cnt ∧ numGroups cnt ≤ 16 ∧ cnt ≤ 16 * numGroups cnt := by
  rw [numGroups_eq]
  omega

/-! ### One group -/

theorem afterDecodeGroup_moves (w : BitVec 2) (s : State) (hg : 16 * s.g + 16 ≤ 256) :
    PlaneMoves s (afterDecodeGroup w s) := by
  refine ⟨⟨_, _, s.hdr, _, _, s.g, rfl⟩, fun h => ?_, fun h => ?_⟩
  · exact Memory.wf_setRun h _ _
  · refine Memory.below_setRun h _ _ ?_
    rw [(decodeGroup_bounds ..).1]
    exact hg

/-- One turn of the group loop, where the header lies behind the cursor: it decodes its group and goes on, or without
its margin it raises. -/
theorem groupTurn_cases {s : State} (hg : s.g < 16) (hh : s.hdr + s.g / 4 < s.pos) :
    (s.pos + 32 ≤ s.buflen ∧ groupTurn s = .ok { afterDecodeGroup s.selector s with g := s.g + 1 }) ∨
    (s.buflen < s.pos + 32 ∧ groupTurn s = .raised .truncation s) := by
  rcases Nat.lt_or_ge s.buflen (s.pos + 32) with h | h
  · exact .inr ⟨h, groupTurn_eq_raised.2 ⟨by omega, rfl, rfl⟩⟩
  · refine .inl ⟨h, groupTurn_eq_ok.2 ⟨h, ?_, by omega, afterDecodeGroup s.selector s, ?_, rfl⟩⟩
    · exact lt_of_lt_of_le hh (by omega)
    · exact groupUnit_eq_ok.2 ⟨⟨h, le_refl _⟩, by omega, rfl⟩

theorem groupTurn_moves {s : State} (hg : s.g < 16) :
    PlaneMoves s { afterDecodeGroup s.selector s with g := s.g + 1 } := by
  have h := afterDecodeGroup_moves s.selector s (by omega)
  exact ⟨⟨_, _, s.hdr, _, _, s.g + 1, rfl⟩, h.2.1, h.2.2⟩

/-! ### The group loop -/

/-- The group loop from group `g` on: it returns with the cursor at most 24 bytes a group further, or it raises
TruncationError; the number of the last group whose margin was tested bounds the cursor. -/
theorem groupLoop_cases (n : Nat) {s : State} (hg : s.g + n ≤ 16)
    (hh : n = 0 ∨ s.hdr + (s.g + n - 1) / 4 < s.pos) :
    (∃ t, repeatUnit n groupTurn s = .ok t ∧ PlaneMoves s t ∧ t.g = s.g + n ∧ t.hdr = s.hdr ∧
      s.pos ≤ t.pos ∧ t.pos ≤ s.pos + 24 * n ∧ (n = 0 ∨ t.pos + 8 ≤ s.buflen)) ∨
    (∃ t, repeatUnit n groupTurn s = .raised .truncation t ∧ PlaneMoves s t ∧
      s.pos ≤ t.pos ∧ t.pos + 24 ≤ s.pos + 24 * n ∧ s.buflen < t.pos + 32) := by
  induction n generalizing s with
  | zero => exact .inl ⟨s, rfl, PlaneMoves.refl s, rfl, rfl, le_refl _, by omega, .inl rfl⟩
  | succ n ih =>
    have hh' : s.hdr + (s.g + n) / 4 < s.pos := by
      rcases hh with h | h
      · omega
      · exact h
    have h0 : s.hdr + s.g / 4 < s.pos := by omega
    rcases groupTurn_cases (by omega) h0 with ⟨hm, ht⟩ | ⟨hm, ht⟩
    · have hb := decodeGroup_bounds Config.codeOrder s.selector s.inByte s.pos
      have hmv := groupTurn_moves (s := s) (by omega)
      rw [repeatUnit_succ, ht, Res.bind_ok]
      rcases ih (s := { afterDecodeGroup s.selector s with g := s.g + 1 })
          (by simp only; omega)
          (by simp only [afterDecodeGroup_hdr, afterDecodeGroup_pos]; omega) with
        ⟨t, h1, h2, h3, h4, h5, h6, h7⟩ | ⟨t, h1, h2, h3, h4, h5⟩
      · simp only [afterDecodeGroup_hdr, afterDecodeGroup_pos, afterDecodeGroup_buflen] at h3 h4 h5 h6 h7
        refine .inl ⟨t, h1, hmv.trans h2, by omega, h4, by omega, by omega, .inr ?_⟩
        rcases h7 with rfl | h7
        · omega
        · exact h7
      · simp only [afterDecodeGroup_pos, afterDecodeGroup_buflen] at h3 h4 h5
        exact .inr ⟨t, h1, hmv.trans h2, by omega, by omega, h5⟩
    · refine .inr ⟨s, ?_, PlaneMoves.refl s, le_refl _, by omega, hm⟩
      rw [repeatUnit_succ, ht, Res.bind_raised]

/-! ### A plane -/

theorem openPlane_moves (s : State) : PlaneMoves s (openPlane s) :=
  ⟨⟨s.plane, _, _, s.ov, s.j, _, rfl⟩, id, id⟩

/-- DecodeStream returns, or it raises TruncationError; it never leaves the buffer (R120, R128, R130). -/
theorem planeUnit_cases {s : State} (h1 : 1 ≤ s.cnt) (h2 : s.cnt ≤ 256) :
    (∃ t, planeUnit s = .ok t ∧ PlaneMoves s t ∧ t.g = numGroups s.cnt ∧ t.hdr = s.pos ∧
      s.pos + headerSize s.cnt ≤ t.pos ∧ t.pos ≤ s.pos + headerSize s.cnt + 24 * numGroups s.cnt ∧
      t.pos + 8 ≤ s.buflen) ∨
    (∃ t, planeUnit s = .raised .truncation t ∧ PlaneMoves s t ∧
      t.pos + 24 ≤ s.pos + headerSize s.cnt + 24 * numGroups s.cnt ∧ s.buflen < t.pos + 32) := by
  obtain ⟨hn1, hn2, -⟩ := numGroups_bounds h1 h2
  have hh := headerSize_eq s.cnt
  have hmv := openPlane_moves s
  unfold planeUnit
  rcases groupLoop_cases (numGroups s.cnt) (s := openPlane s) (by simp; omega) (by right; simp; omega) with
    ⟨t, h1, h2, h3, h4, h5, h6, h7⟩ | ⟨t, h1, h2, h3, h4, h5⟩
  · simp only [openPlane_g, openPlane_hdr, openPlane_pos, openPlane_buflen] at h3 h4 h5 h6 h7
    exact .inl ⟨t, h1, hmv.trans h2, by omega, h4, h5, h6, by omega⟩
  · simp only [openPlane_pos, openPlane_buflen] at h4 h5
    exact .inr ⟨t, h1, hmv.trans h2, h4, h5⟩

/-- A plane that returned had the margin of its first group. -/
theorem planeUnit_firstMargin {s t : State} (h1 : 1 ≤ s.cnt) (h2 : s.cnt ≤ 256) (h : planeUnit s = .ok t) :
    s.pos + headerSize s.cnt + 32 ≤ s.buflen := by
  obtain ⟨n, hn⟩ : ∃ n, numGroups s.cnt = n + 1 :=
    ⟨_, (Nat.sub_add_cancel (numGroups_bounds h1 h2).1).symm⟩
  rw [planeUnit, hn, repeatUnit_succ] at h
  obtain ⟨u, hu, -⟩ := Res.bind_eq_ok.1 h
  exact (groupTurn_eq_ok.1 hu).1

/-- Where the most the plane may consume leaves the last group its margin, the plane returns. -/
theorem planeUnit_returns {s : State} (h1 : 1 ≤ s.cnt) (h2 : s.cnt ≤ 256)
    (hroom : s.pos + headerSize s.cnt + 24 * numGroups s.cnt + 8 ≤ s.buflen) :
    ∃ t, planeUnit s = .ok t ∧ PlaneMoves s t ∧ t.g = numGroups s.cnt ∧ t.hdr = s.pos ∧
      s.pos + headerSize s.cnt ≤ t.pos ∧ t.pos ≤ s.pos + headerSize s.cnt + 24 * numGroups s.cnt := by
  rcases planeUnit_cases h1 h2 with ⟨t, h3, h4, h5, h6, h7, h8, -⟩ | ⟨t, -, -, h3, h4⟩
  · exact ⟨t, h3, h4, h5, h6, h7, h8⟩
  · omega

/-- A stop of DecodeStream is never a refusal or a fault inside a decode; a raise is TruncationError. -/
theorem planeUnit_raised {s t : State} {e : ErrorKind} (h1 : 1 ≤ s.cnt) (h2 : s.cnt ≤ 256)
    (h : planeUnit s = .raised e t) : e = .truncation ∧ PlaneMoves s t := by
  rcases planeUnit_cases h1 h2 with ⟨u, h3, -⟩ | ⟨u, h3, h4, -⟩
  · rw [h3] at h
    cases h
  · rw [h3] at h
    cases h
    exact ⟨rfl, h4⟩

/-! ### A plane and its chain -/

/-- `t` is `s` with nothing moved but the working state of a block, its arrays still canonical (R42). -/
def BlockMoves (s t : State) : Prop :=
  (∃ pl pos hdr ov j g tr p r v i k, t = { s with
    plane := pl, pos := pos, hdr := hdr, ov := ov, j := j, g := g, tr := tr, p := p, r := r, v := v, i := i
    k := k }) ∧
  (s.memoriesOk = true → t.memoriesOk = true)

theorem BlockMoves.refl (s : State) : BlockMoves s s :=
  ⟨⟨s.plane, s.pos, s.hdr, s.ov, s.j, s.g, s.tr, s.p, s.r, s.v, s.i, s.k, rfl⟩, id⟩

theorem BlockMoves.trans {s t u : State} (h1 : BlockMoves s t) (h2 : BlockMoves t u) : BlockMoves s u := by
  obtain ⟨⟨_, _, _, _, _, _, _, _, _, _, _, _, rfl⟩, hm⟩ := h1
  obtain ⟨⟨_, _, _, _, _, _, _, _, _, _, _, _, rfl⟩, hm'⟩ := h2
  exact ⟨⟨_, _, _, _, _, _, _, _, _, _, _, _, rfl⟩, hm' ∘ hm⟩

theorem PlaneMoves.blockMoves {s t : State} (h : PlaneMoves s t) : BlockMoves s t := by
  refine ⟨?_, h.memoriesOk⟩
  obtain ⟨⟨pl, pos, hdr, ov, j, g, rfl⟩, -⟩ := h
  exact ⟨pl, pos, hdr, ov, j, g, s.tr, s.p, s.r, s.v, s.i, s.k, rfl⟩

/-- The last cell of a chain lies in `tr` where the block's bytes do. -/
theorem lastCell_lt {cnt S k : Nat} (hk : k < S) (hc : cnt * S ≤ 8192) :
    cnt = 0 ∨ (cnt - 1) * S + k < 8192 := by
  rcases Nat.eq_zero_or_pos cnt with h | h
  · exact .inl h
  · have : (cnt - 1) * S + S = cnt * S := by
      rw [← Nat.succ_mul]
      congr 1
      omega
    omega

/-- A chain whose cells exist is taken whole, and moves only its own state. -/
theorem deltaUnit_returns {s : State} (hk : s.k < s.stride) (hS : s.stride ≤ 256) (hc : s.cnt ≤ 256)
    (hcS : s.cnt * s.stride ≤ 8192) :
    deltaUnit s = .ok (chainLoop s.cnt (openChain s)) ∧
      BlockMoves s (chainLoop s.cnt (openChain s)) := by
  have hlast := lastCell_lt hk hcS
  refine ⟨deltaUnit_eq_ok.2 ⟨by omega, hc, hlast, rfl⟩, ?_, fun hm => ?_⟩
  · obtain ⟨r, v, tr, p, i, h⟩ := chainLoop_frame s.cnt (openChain s)
    rw [h]
    exact ⟨s.plane, s.pos, s.hdr, s.ov, s.j, s.g, tr, p, r, v, i, s.k, rfl⟩
  · rw [memoriesOk_iff] at hm ⊢
    have hwf := chainLoop_tr_wf (s := openChain s) hm.2.2.2.2.1 s.cnt
    have hbl := chainLoop_tr_below (s := openChain s) hm.2.2.2.2.2 s.cnt (by simpa using hlast)
    obtain ⟨r, v, tr, p, i, h⟩ := chainLoop_frame s.cnt (openChain s)
    rw [h] at hwf hbl ⊢
    exact ⟨hm.1, hm.2.1, hm.2.2.1, hm.2.2.2.1, hwf, hbl⟩

/-- One turn of the plane loop: the plane and its chain, or TruncationError from the plane. -/
theorem planeTurn_cases {s : State} (h1 : 1 ≤ s.cnt) (h2 : s.cnt ≤ 256) (hk : s.k < s.stride)
    (hS : s.stride ≤ 256) (hcS : s.cnt * s.stride ≤ 8192) :
    (∃ t, planeTurn s = .ok t ∧ BlockMoves s t ∧ t.k = s.k + 1 ∧
      s.pos + headerSize s.cnt ≤ t.pos ∧ t.pos ≤ s.pos + headerSize s.cnt + 24 * numGroups s.cnt ∧
      t.pos + 8 ≤ s.buflen) ∨
    (∃ t, planeTurn s = .raised .truncation t ∧ BlockMoves s t ∧
      t.pos + 24 ≤ s.pos + headerSize s.cnt + 24 * numGroups s.cnt ∧ s.buflen < t.pos + 32) := by
  rcases planeUnit_cases h1 h2 with ⟨u, hu, hmv, -, -, h3, h4, h5⟩ | ⟨u, hu, hmv, h3, h4⟩
  · have hf := hmv.frame
    have hd := deltaUnit_returns (s := u) (by rw [hf]; exact hk) (by rw [hf]; exact hS)
      (by rw [hf]; exact h2) (by rw [hf]; exact hcS)
    obtain ⟨r, v, tr, p, i, h⟩ := chainLoop_frame u.cnt (openChain u)
    refine .inl ⟨{ chainLoop u.cnt (openChain u) with k := (chainLoop u.cnt (openChain u)).k + 1 },
      ?_, ?_, ?_, ?_⟩
    · rw [planeTurn, hu, Res.bind_ok, hd.1, Res.bind_ok]
    · refine hmv.blockMoves.trans (hd.2.trans ⟨⟨_, _, _, _, _, _, _, _, _, _, _, _, rfl⟩, id⟩)
    · rw [h]
      simp only [openChain_k]
      rw [hf]
    · rw [h]
      simp only [openChain_pos]
      exact ⟨h3, h4, h5⟩
  · refine .inr ⟨u, ?_, hmv.blockMoves, h3, h4⟩
    rw [planeTurn, hu, Res.bind_raised]

end Sys2Proof.Machine
end

