-- ==== Sys2Proof/Laws/Blocks.lean ====
section
/-! SUPPORT. What a block and a whole decode can do: what they move, that they never stop, and where they end. -/

namespace Sys2Proof.Machine

/-! ### The planes of a block -/

/-- The plane loop from plane `k` on: it returns, or a plane raises TruncationError. -/
theorem planeLoop_cases (n : Nat) {s : State} (h1 : 1 ≤ s.cnt) (h2 : s.cnt ≤ 256) (hk : s.k + n ≤ s.stride)
    (hS : s.stride ≤ 256) (hcS : s.cnt * s.stride ≤ 8192) :
    (∃ t, repeatUnit n planeTurn s = .ok t ∧ BlockMoves s t ∧ t.k = s.k + n ∧
      s.pos + n * headerSize s.cnt ≤ t.pos ∧
      t.pos ≤ s.pos + n * (headerSize s.cnt + 24 * numGroups s.cnt) ∧ (n = 0 ∨ t.pos + 8 ≤ s.buflen)) ∨
    (∃ t, repeatUnit n planeTurn s = .raised .truncation t ∧ BlockMoves s t ∧
      t.pos + 24 ≤ s.pos + n * (headerSize s.cnt + 24 * numGroups s.cnt) ∧ s.buflen < t.pos + 32) := by
  induction n generalizing s with
  | zero => exact .inl ⟨s, rfl, BlockMoves.refl s, rfl, by omega, by omega, .inl rfl⟩
  | succ n ih =>
    rw [repeatUnit_succ, Nat.succ_mul, Nat.succ_mul]
    rcases planeTurn_cases h1 h2 (by omega) hS hcS with ⟨u, hu, hmv, h3, h4, h5, h6⟩ | ⟨u, hu, hmv, h3, h4⟩
    · obtain ⟨⟨pl, pos, hdr, ov, j, g, tr, p, r, v, i, k, hf⟩, -⟩ := id hmv
      have hc : u.cnt = s.cnt := by rw [hf]
      have hs : u.stride = s.stride := by rw [hf]; rfl
      have hn : u.buflen = s.buflen := by rw [hf]
      rw [hu, Res.bind_ok]
      rcases ih (s := u) (by omega) (by omega) (by omega) (by omega) (by rw [hc, hs]; exact hcS) with
        ⟨t, h7, h8, h9, h10, h11, h12⟩ | ⟨t, h7, h8, h9, h10⟩
      · rw [hc] at h10 h11
        refine .inl ⟨t, h7, hmv.trans h8, by omega, by omega, by omega, .inr ?_⟩
        rcases h12 with rfl | h12
        · simp only [Nat.zero_mul, Nat.add_zero] at h11
          omega
        · omega
      · rw [hc] at h9
        exact .inr ⟨t, h7, hmv.trans h8, by omega, by omega⟩
    · exact .inr ⟨u, by rw [hu, Res.bind_raised], hmv, by omega, h4⟩

/-! ### A block -/

theorem commitUnit_returns {s : State} (h1 : s.cnt * s.stride ≤ 8192) (h2 : s.voff + s.cnt ≤ s.count) :
    commitUnit s = .ok { s with
      outMem := s.outMem.insertRun (s.voff * s.stride) (bytesUpTo (s.cnt * s.stride) s.tr.byte) } :=
  commitUnit_eq_ok.2 ⟨h1, Nat.mul_le_mul_right _ h2, rfl⟩

theorem carryUnit_returns {s : State} (h : s.stride ≤ 256) :
    carryUnit s = .ok { s with
      lastVertex := s.lastVertex.setRun 0
        (bytesUpTo s.stride fun k => s.tr.byte ((s.cnt - 1) * s.stride + k)) } :=
  carryUnit_eq_ok.2 ⟨h, rfl⟩

/-- The state after a block whose planes are done: the copy to OUT and the carry update (R155, R156). -/
def afterPlanes (s : State) : State :=
  { s with
    outMem := s.outMem.insertRun (s.voff * s.stride) (bytesUpTo (s.cnt * s.stride) s.tr.byte)
    lastVertex := s.lastVertex.setRun 0
      (bytesUpTo s.stride fun k => s.tr.byte ((s.cnt - 1) * s.stride + k)) }

theorem afterPlanes_memoriesOk {s : State} (h : s.memoriesOk = true) (hS : s.stride ≤ 256) :
    (afterPlanes s).memoriesOk = true := by
  rw [memoriesOk_iff] at h ⊢
  refine ⟨h.1, Memory.rising_insertRun h.2.1 _ _, ⟨Memory.wf_setRun h.2.2.1.1 _ _, ?_⟩, h.2.2.2⟩
  refine Memory.below_setRun h.2.2.1.2 _ _ ?_
  rw [bytesUpTo_length]
  omega

/-- DecodeBlock inside a decode: its planes, the copy and the carry, or TruncationError with neither. -/
theorem blockUnit_cases {s : State} (h1 : 1 ≤ s.cnt) (h2 : s.cnt ≤ 256) (hS1 : 1 ≤ s.stride)
    (hS : s.stride ≤ 256) (hcS : s.cnt * s.stride ≤ 8192) (hv : s.voff + s.cnt ≤ s.count) :
    (∃ t, repeatUnit s.stride planeTurn { s with k := 0 } = .ok t ∧ blockUnit s = .ok (afterPlanes t) ∧
      BlockMoves s t ∧ t.k = s.stride ∧ s.pos + s.stride * headerSize s.cnt ≤ t.pos ∧
      t.pos ≤ s.pos + s.stride * (headerSize s.cnt + 24 * numGroups s.cnt) ∧ t.pos + 8 ≤ s.buflen) ∨
    (∃ t, blockUnit s = .raised .truncation t ∧ BlockMoves s t ∧
      t.pos + 24 ≤ s.pos + s.stride * (headerSize s.cnt + 24 * numGroups s.cnt) ∧
      s.buflen < t.pos + 32) := by
  have hb : blockUnit s = (repeatUnit s.stride planeTurn { s with k := 0 }).bind fun t =>
      (commitUnit t).bind carryUnit := by
    unfold blockUnit
    rw [if_neg (by simp only [Config.maxBlock]; omega), if_neg (by simp only [Config.blockBytes]; omega)]
  have h0 : BlockMoves s { s with k := 0 } := ⟨⟨_, _, _, _, _, _, _, _, _, _, _, _, rfl⟩, id⟩
  have hs0 : ({ s with k := 0 } : State).stride = s.stride := rfl
  rcases planeLoop_cases s.stride (s := { s with k := 0 }) h1 h2 (by rw [hs0]; simp) hS hcS with
    ⟨t, ht, hmv, h3, h4, h5, h6⟩ | ⟨t, ht, hmv, h3, h4⟩
  · obtain ⟨⟨pl, pos, hdr, ov, j, g, tr, p, r, v, i, k, hf⟩, -⟩ := id hmv
    refine .inl ⟨t, ht, ?_, h0.trans hmv, by simpa using h3, h4, h5, by simp only at h6; omega⟩
    have hc1 : commitUnit t = .ok { t with
        outMem := t.outMem.insertRun (t.voff * t.stride) (bytesUpTo (t.cnt * t.stride) t.tr.byte) } :=
      commitUnit_returns (by rw [hf]; exact hcS) (by rw [hf]; exact hv)
    rw [hb, ht, Res.bind_ok, hc1, Res.bind_ok, carryUnit_returns (by rw [hf]; exact hS)]
    rfl
  · refine .inr ⟨t, ?_, h0.trans hmv, h3, h4⟩
    rw [hb, ht, Res.bind_raised]

/-! ### The block size -/

theorem strideOk_iff (S : Nat) : strideOk S = true ↔ 1 ≤ S ∧ S ≤ 256 ∧ S % 4 = 0 := by
  simp [strideOk, and_assoc]

/-- A block of the block size of a legal stride fits its arrays. -/
theorem blockSizeOf_fits {S : Nat} (h1 : 1 ≤ S) (h2 : S ≤ 256) :
    1 ≤ blockSizeOf S ∧ blockSizeOf S ≤ 256 ∧ blockSizeOf S * S ≤ 8192 := by
  have h32 : 32 ≤ 8192 / S := by
    rw [Nat.le_div_iff_mul_le (by omega)]
    omega
  have hmul : 8192 / S * S ≤ 8192 := Nat.div_mul_le_self 8192 S
  have hle : blockSizeOf S ≤ 8192 / S := by
    simp only [blockSizeOf, roundDown, Config.maxBlock, Config.blockBytes, Config.group]
    omega
  refine ⟨?_, ?_, le_trans (Nat.mul_le_mul_right S hle) hmul⟩
  · simp only [blockSizeOf, roundDown, Config.maxBlock, Config.blockBytes, Config.group]
    omega
  · simp only [blockSizeOf, Config.maxBlock]
    omega

/-! ### The block loop -/

/-- `t` is `s` with nothing moved but the core's working state, OUT and the carry. -/
def DecodeMoves (s t : State) : Prop :=
  (∃ pl pos hdr ov j g tr p r v i k om lv cnt voff bs, t = { s with
    plane := pl, pos := pos, hdr := hdr, ov := ov, j := j, g := g, tr := tr, p := p, r := r, v := v, i := i
    k := k, outMem := om, lastVertex := lv, cnt := cnt, voff := voff, blockSize := bs }) ∧
  (s.memoriesOk = true → t.memoriesOk = true)

theorem DecodeMoves.refl (s : State) : DecodeMoves s s :=
  ⟨⟨s.plane, s.pos, s.hdr, s.ov, s.j, s.g, s.tr, s.p, s.r, s.v, s.i, s.k, s.outMem, s.lastVertex, s.cnt,
    s.voff, s.blockSize, rfl⟩, id⟩

theorem DecodeMoves.trans {s t u : State} (h1 : DecodeMoves s t) (h2 : DecodeMoves t u) :
    DecodeMoves s u := by
  obtain ⟨⟨_, _, _, _, _, _, _, _, _, _, _, _, _, _, _, _, _, rfl⟩, hm⟩ := h1
  obtain ⟨⟨_, _, _, _, _, _, _, _, _, _, _, _, _, _, _, _, _, rfl⟩, hm'⟩ := h2
  exact ⟨⟨_, _, _, _, _, _, _, _, _, _, _, _, _, _, _, _, _, rfl⟩, hm' ∘ hm⟩

theorem BlockMoves.decodeMoves {s t : State} (h : BlockMoves s t) : DecodeMoves s t := by
  obtain ⟨⟨_, _, _, _, _, _, _, _, _, _, _, _, rfl⟩, hm⟩ := h
  exact ⟨⟨_, _, _, _, _, _, _, _, _, _, _, _, s.outMem, s.lastVertex, s.cnt, s.voff, s.blockSize, rfl⟩,
    hm⟩

theorem afterPlanes_moves {s : State} (hS : s.stride ≤ 256) : DecodeMoves s (afterPlanes s) :=
  ⟨⟨s.plane, s.pos, s.hdr, s.ov, s.j, s.g, s.tr, s.p, s.r, s.v, s.i, s.k, _, _, s.cnt, s.voff, s.blockSize,
    rfl⟩, fun h => afterPlanes_memoriesOk h hS⟩

/-- The conditions the block loop runs under: a legal stride and its block size. -/
def BlockReady (s : State) : Prop := 1 ≤ s.stride ∧ s.stride ≤ 256 ∧ s.blockSize = blockSizeOf s.stride

/-- One turn of the block loop with vertices left: the block, committed, and the offset past it, or
TruncationError. -/
theorem blockTurn_cases {s : State} (hr : BlockReady s) (hv : s.voff < s.count) :
    (∃ u t, blockTurn s = .ok t ∧ BlockMoves { s with cnt := s.nextCount } u ∧
      repeatUnit s.stride planeTurn { s with cnt := s.nextCount, k := 0 } = .ok u ∧
      t = advanceVoff (afterPlanes u) ∧ DecodeMoves s t ∧ t.voff = s.voff + s.nextCount ∧
      t.blockSize = s.blockSize ∧ s.pos ≤ t.pos ∧ t.pos ≤ s.pos + s.stride * (4 + 24 * 16) ∧
      t.pos + 8 ≤ s.buflen) ∨
    (∃ t, blockTurn s = .raised .truncation t ∧ DecodeMoves s t ∧
      t.pos + 24 ≤ s.pos + s.stride * (4 + 24 * 16) ∧ s.buflen < t.pos + 32) := by
  obtain ⟨hS1, hS2, hbs⟩ := hr
  obtain ⟨hb1, hb2, hb3⟩ := blockSizeOf_fits hS1 hS2
  have hn1 : 1 ≤ s.nextCount := by
    unfold State.nextCount
    omega
  have hn2 : s.nextCount ≤ blockSizeOf s.stride := by
    unfold State.nextCount
    omega
  have hn3 : s.voff + s.nextCount ≤ s.count := by
    unfold State.nextCount
    omega
  have hcS : s.nextCount * s.stride ≤ 8192 := le_trans (Nat.mul_le_mul_right _ hn2) hb3
  obtain ⟨hg1, hg2, -⟩ := numGroups_bounds hn1 (by omega)
  have hH := headerSize_eq s.nextCount
  have hmax : s.stride * (headerSize s.nextCount + 24 * numGroups s.nextCount)
      ≤ s.stride * (4 + 24 * 16) := Nat.mul_le_mul_left _ (by omega)
  have hc0 : DecodeMoves s { s with cnt := s.nextCount } :=
    ⟨⟨_, _, _, _, _, _, _, _, _, _, _, _, s.outMem, s.lastVertex, _, s.voff, s.blockSize, rfl⟩, id⟩
  have hturn : blockTurn s = (blockUnit { s with cnt := s.nextCount }).bind fun t => .ok (advanceVoff t) :=
    rfl
  rcases blockUnit_cases (s := { s with cnt := s.nextCount }) hn1 (le_trans hn2 hb2) hS1 hS2 hcS hn3 with
    ⟨u, hu, hb, hmv, h3, h4, h5, h6⟩ | ⟨t, hb, hmv, h3, h4⟩
  · obtain ⟨⟨pl, pos, hdr, ov, j, g, tr, p, r, v, i, k, hf⟩, -⟩ := id hmv
    have hS' : u.stride ≤ 256 := by rw [hf]; exact hS2
    refine .inl ⟨u, advanceVoff (afterPlanes u), ?_, hmv, hu, rfl, ?_, ?_, ?_, ?_, ?_, ?_⟩
    · rw [hturn, hb, Res.bind_ok]
    · refine hc0.trans (hmv.decodeMoves.trans ((afterPlanes_moves hS').trans ?_))
      exact ⟨⟨_, _, _, _, _, _, _, _, _, _, _, _, _, _, _, _, _, rfl⟩, id⟩
    · rw [hf]
      rfl
    · rw [hf]
      rfl
    · show s.pos ≤ u.pos
      exact le_trans (Nat.le_add_right _ _) h4
    · show u.pos ≤ _
      exact le_trans h5 (Nat.add_le_add_left hmax _)
    · exact h6
  · refine .inr ⟨t, ?_, hc0.trans hmv.decodeMoves, ?_, h4⟩
    · rw [hturn, hb, Res.bind_raised]
    · exact le_trans h3 (Nat.add_le_add_left hmax _)

/-- How many blocks are left (R178, R185). -/
def blocksLeft (s : State) : Nat := numBlocks (s.count - s.voff) s.blockSize

theorem ceilDiv_step {a b : Nat} (hb : 1 ≤ b) (ha : 1 ≤ a) :
    ceilDiv a b = ceilDiv (a - min b a) b + 1 := by
  unfold ceilDiv
  rcases Nat.le_total b a with h | h
  · rw [Nat.min_eq_left h, show a + b - 1 = (a - b + b - 1) + b by omega, Nat.add_div_right _ (by omega)]
  · rw [Nat.min_eq_right h, Nat.sub_self, Nat.zero_add, Nat.div_eq_of_lt (show b - 1 < b by omega)]
    exact Nat.div_eq_of_lt_le (by omega) (by omega)

theorem ceilDiv_eq_zero {a b : Nat} (hb : 1 ≤ b) : ceilDiv a b = 0 ↔ a = 0 := by
  unfold ceilDiv
  rw [Nat.div_eq_zero_iff]
  omega

/-- The block loop of a decode: it returns with all vertices produced, or a block raises TruncationError. -/
theorem blockLoop_cases (n : Nat) {s : State} (hr : BlockReady s) (hv : s.voff ≤ s.count)
    (hn : n = blocksLeft s) :
    (∃ t, repeatUnit n blockTurn s = .ok t ∧ DecodeMoves s t ∧ t.voff = s.count ∧ t.blockSize = s.blockSize ∧
      s.pos ≤ t.pos ∧ t.pos ≤ s.pos + n * (s.stride * (4 + 24 * 16)) ∧ (n = 0 ∨ t.pos + 8 ≤ s.buflen)) ∨
    (∃ t, repeatUnit n blockTurn s = .raised .truncation t ∧ DecodeMoves s t ∧
      t.pos + 24 ≤ s.pos + n * (s.stride * (4 + 24 * 16)) ∧ s.buflen < t.pos + 32) := by
  induction n generalizing s with
  | zero =>
    have hb := (blockSizeOf_fits hr.1 hr.2.1).1
    rw [blocksLeft, numBlocks, eq_comm, ceilDiv_eq_zero (by rw [hr.2.2]; exact hb)] at hn
    exact .inl ⟨s, rfl, DecodeMoves.refl s, by omega, rfl, le_refl _, by omega, .inl rfl⟩
  | succ n ih =>
    have hb := (blockSizeOf_fits hr.1 hr.2.1).1
    have hb' : 1 ≤ s.blockSize := by rw [hr.2.2]; exact hb
    have hlt : s.voff < s.count := by
      by_contra hge
      rw [blocksLeft, numBlocks, (ceilDiv_eq_zero hb').2 (by omega)] at hn
      omega
    rw [repeatUnit_succ, Nat.succ_mul]
    rcases blockTurn_cases hr hlt with ⟨u, t, ht, -, -, -, hmv, h3, h4, h5, h6, h7⟩ | ⟨t, ht, hmv, h3, h4⟩
    · obtain ⟨⟨pl, pos, hdr, ov, j, g, tr, p, r, v, i, k, om, lv, cnt, voff, bs, hf⟩, -⟩ := id hmv
      have hs : t.stride = s.stride := by rw [hf]; rfl
      have hc : t.count = s.count := by rw [hf]; rfl
      have hN : t.buflen = s.buflen := by rw [hf]
      have hleft : n = blocksLeft t := by
        rw [blocksLeft, numBlocks, ceilDiv_step hb' (by omega)] at hn
        rw [blocksLeft, numBlocks, h3, h4, hc]
        have : s.count - (s.voff + s.nextCount) = s.count - s.voff - min s.blockSize (s.count - s.voff) := by
          unfold State.nextCount
          omega
        rw [this]
        omega
      rw [ht, Res.bind_ok]
      rcases ih (s := t) ⟨by rw [hs]; exact hr.1, by rw [hs]; exact hr.2.1, by rw [h4, hs]; exact hr.2.2⟩
          (by rw [h3, hc]; unfold State.nextCount; omega) hleft with
        ⟨w, h8, h9, h10, h11, h12, h13, h14⟩ | ⟨w, h8, h9, h10, h11⟩
      · rw [hs] at h13
        refine .inl ⟨w, h8, hmv.trans h9, by rw [h10, hc], by rw [h11, h4], by omega, by omega, .inr ?_⟩
        rcases h14 with rfl | h14
        · simp only [Nat.zero_mul, Nat.add_zero] at h13
          omega
        · omega
      · rw [hs] at h10
        exact .inr ⟨w, h8, hmv.trans h9, by omega, by omega⟩
    · exact .inr ⟨t, by rw [ht, Res.bind_raised], hmv, by omega, h4⟩

/-! ### A decode -/

/-- The state the block loop starts from (R174 to R176). -/
def seeded (s : State) : State :=
  { s with
    lastVertex := s.lastVertex.setRun 0 (bytesUpTo s.stride s.trailerByte)
    blockSize := blockSizeOf s.stride
    pos := 1
    voff := 0 }

theorem seedUnit_returns {s : State} (h1 : s.stride ≤ 256) (h2 : s.stride + 1 ≤ s.buflen) :
    seedUnit s = .ok (seeded s) :=
  seedUnit_eq_ok.2 ⟨h1, h2, rfl⟩

theorem frameOk_iff (s : State) :
    s.frameOk = true ↔ strideOk s.stride = true ∧ 1 + s.stride ≤ s.buflen ∧ s.inByte 0 = 0xA0#8 := by
  simp [State.frameOk, and_assoc]

theorem seeded_moves {s : State} (hS : s.stride ≤ 256) : DecodeMoves s (seeded s) := by
  refine ⟨⟨s.plane, _, s.hdr, s.ov, s.j, s.g, s.tr, s.p, s.r, s.v, s.i, s.k, s.outMem, _, s.cnt, _, _, rfl⟩,
    fun h => ?_⟩
  rw [memoriesOk_iff] at h ⊢
  refine ⟨h.1, h.2.1, ⟨Memory.wf_setRun h.2.2.1.1 _ _, ?_⟩, h.2.2.2⟩
  refine Memory.below_setRun h.2.2.1.2 _ _ ?_
  rw [bytesUpTo_length]
  omega

/-- A decode whose operands and frame pass the checks is its block loop from the seeded state (R170). -/
theorem decodeBody_of_frameOk {s : State} (h : s.frameOk = true) :
    decodeBody s = (blockLoop (seeded s)).bind fun x => .ok (finishDone x) := by
  obtain ⟨h1, h2, h3⟩ := (frameOk_iff s).1 h
  have hS := (strideOk_iff _).1 h1
  have ht : tagUnit s = .ok { s with pos := 1 } := by
    rw [tagUnit_eq s (by omega), if_pos h3]
  have hsd : seedUnit { s with pos := 1 } = .ok (seeded s) :=
    seedUnit_returns (s := { s with pos := 1 }) hS.2.1 (by show s.stride + 1 ≤ s.buflen; omega)
  rw [decodeBody, if_pos h1, if_pos h2, ht, Res.bind_ok, hsd, Res.bind_ok]

/-- A decode whose operands or frame fail a check raises before the seeding: ArgumentError or FormatError, with nothing
moved but the consumed tag. -/
theorem decodeBody_of_not_frameOk {s : State} (h : s.frameOk = false) :
    ∃ e, decodeBody s = .raised e s ∧ e ≠ .truncation := by
  unfold decodeBody
  by_cases h1 : strideOk s.stride = true
  · by_cases h2 : 1 + s.stride ≤ s.buflen
    · have h3 : s.inByte 0 ≠ 0xA0#8 := by
        intro h3
        have := (frameOk_iff s).2 ⟨h1, h2, h3⟩
        rw [h] at this
        cases this
      refine ⟨.format, ?_, by decide⟩
      rw [if_pos h1, if_pos h2, tagUnit_eq s (by omega), if_neg h3, Res.bind_raised]
    · exact ⟨.format, by rw [if_pos h1, if_neg h2], by decide⟩
  · exact ⟨.argument, by rw [if_neg h1], by decide⟩

theorem seeded_ready {s : State} (h : strideOk s.stride = true) : BlockReady (seeded s) := by
  obtain ⟨h1, h2, -⟩ := (strideOk_iff _).1 h
  exact ⟨h1, h2, rfl⟩

/-- A decode returns with all vertices produced or raises one of the three errors; it never stops. -/
theorem decodeBody_cases (s : State) :
    (∃ t, decodeBody s = .ok (finishDone t) ∧ blockLoop (seeded s) = .ok t ∧ DecodeMoves s t ∧
      t.voff = s.count ∧ s.frameOk = true) ∨
    (∃ e t, decodeBody s = .raised e t ∧ DecodeMoves s t ∧
      (e = .truncation → s.frameOk = true ∧ s.buflen < t.pos + 32 ∧
        t.pos + 24 ≤ 1 + numBlocks s.count (blockSizeOf s.stride) * (s.stride * (4 + 24 * 16)))) := by
  rcases Bool.eq_false_or_eq_true s.frameOk with h | h
  · have h1 := ((frameOk_iff s).1 h).1
    have hS := (strideOk_iff _).1 h1
    rw [decodeBody_of_frameOk h]
    have hsm := seeded_moves (s := s) hS.2.1
    rcases blockLoop_cases _ (seeded_ready h1) (Nat.zero_le _) rfl with
      ⟨t, h2, h3, h4, -⟩ | ⟨t, h2, h3, h4, h5⟩
    · refine .inl ⟨t, ?_, h2, hsm.trans h3, h4, h⟩
      rw [show blockLoop (seeded s) = .ok t from h2, Res.bind_ok]
    · refine .inr ⟨.truncation, t, ?_, hsm.trans h3, fun _ => ⟨h, h5, h4⟩⟩
      rw [show blockLoop (seeded s) = .raised .truncation t from h2, Res.bind_raised]
  · obtain ⟨e, h1, h2⟩ := decodeBody_of_not_frameOk h
    exact .inr ⟨e, s, h1, DecodeMoves.refl s, fun he => absurd he h2⟩

end Sys2Proof.Machine
end

