-- ==== Sys2Proof/Laws/Frames.lean ====
section
/-! SUPPORT. What any unit may move, from any state, whether it returns or raises; and the three forms of the state
after an instruction. -/

namespace Sys2Proof.Machine

theorem Res.Holds.of_ok {P : State → Prop} {x : Res} {t : State} (h : x.Holds P) (hx : x = .ok t) : P t := by
  rw [hx] at h
  exact h

theorem Res.Holds.of_raised {P : State → Prop} {x : Res} {t : State} {e : ErrorKind} (h : x.Holds P)
    (hx : x = .raised e t) : P t := by
  rw [hx] at h
  exact h

theorem Res.Holds.mono {P Q : State → Prop} {x : Res} (h : x.Holds P) (hpq : ∀ t, P t → Q t) : x.Holds Q := by
  cases x with
  | ok s => exact hpq s h
  | raised e s => exact hpq s h
  | fault _ => trivial
  | refused _ => trivial

/-- A relation that is reflexive and transitive holds across a bind where it holds across both parts. -/
theorem Res.Holds.seq {R : State → State → Prop} (htr : ∀ a b c, R a b → R b c → R a c) {s : State}
    {x : Res} {f : State → Res} (hx : x.Holds (R s)) (hf : ∀ t, (f t).Holds (R t)) :
    (x.bind f).Holds (R s) :=
  hx.bind (fun t ht => (hf t).mono fun _ hu => htr _ _ _ ht hu) fun _ h => h

theorem repeatUnit_rel {R : State → State → Prop} (hrefl : ∀ s, R s s)
    (htr : ∀ a b c, R a b → R b c → R a c) {f : State → Res} (hf : ∀ s, (f s).Holds (R s)) (n : Nat)
    (s : State) : (repeatUnit n f s).Holds (R s) :=
  repeatUnit_holds (P := R s) (fun t ht => (hf t).mono fun _ hu => htr _ _ _ ht hu) n (hrefl s)

/-! ### Each unit's moves -/

theorem writeLane_moves (x : Byte) (s : State) : (writeLane x s).Holds (PlaneMoves s) := by
  unfold writeLane
  split_ifs with h
  · exact ⟨⟨_, s.pos, s.hdr, s.ov, s.j, s.g, rfl⟩, fun hw => Memory.wf_setByte hw _ _,
      fun hb => Memory.below_setByte hb h _⟩
  · trivial

theorem escapeLane_moves (s : State) : (escapeLane s).Holds (PlaneMoves s) := by
  unfold escapeLane
  split_ifs
  · exact Res.Holds.seq (R := PlaneMoves) (fun _ _ _ => PlaneMoves.trans) (writeLane_moves _ s)
      fun t => ⟨⟨t.plane, t.pos, t.hdr, _, t.j, t.g, rfl⟩, id, id⟩
  · trivial

theorem groupUnit_moves (w : BitVec 2) (s : State) : (groupUnit w s).Holds (PlaneMoves s) := by
  unfold groupUnit
  split_ifs with h1 h2
  · exact afterDecodeGroup_moves w s h2
  · trivial
  · trivial

theorem groupTurn_holds (s : State) : (groupTurn s).Holds (PlaneMoves s) := by
  unfold groupTurn
  split_ifs
  · exact Res.Holds.seq (R := PlaneMoves) (fun _ _ _ => PlaneMoves.trans) (groupUnit_moves _ s)
      fun t => ⟨⟨t.plane, t.pos, t.hdr, t.ov, t.j, _, rfl⟩, id, id⟩
  · trivial
  · exact PlaneMoves.refl s

theorem planeUnit_moves (s : State) : (planeUnit s).Holds (PlaneMoves s) :=
  (repeatUnit_rel PlaneMoves.refl (fun _ _ _ => PlaneMoves.trans) groupTurn_holds _ _).mono
    fun _ => (openPlane_moves s).trans

theorem deltaUnit_moves (s : State) : (deltaUnit s).Holds (BlockMoves s) := by
  unfold deltaUnit
  split_ifs with h1 h2 h3
  · refine ⟨?_, fun hm => ?_⟩
    · obtain ⟨r, v, tr, p, i, h⟩ := chainLoop_frame s.cnt (openChain s)
      rw [h]
      exact ⟨s.plane, s.pos, s.hdr, s.ov, s.j, s.g, tr, p, r, v, i, s.k, rfl⟩
    · rw [memoriesOk_iff] at hm ⊢
      have hwf := chainLoop_tr_wf (s := openChain s) hm.2.2.2.2.1 s.cnt
      have hbl := chainLoop_tr_below (s := openChain s) hm.2.2.2.2.2 s.cnt (by simpa using h3)
      obtain ⟨r, v, tr, p, i, h⟩ := chainLoop_frame s.cnt (openChain s)
      rw [h] at hwf hbl ⊢
      exact ⟨hm.1, hm.2.1, hm.2.2.1, hm.2.2.2.1, hwf, hbl⟩
  · trivial
  · trivial
  · trivial

theorem planeTurn_moves (s : State) : (planeTurn s).Holds (BlockMoves s) := by
  refine Res.Holds.seq (R := BlockMoves) (fun _ _ _ => BlockMoves.trans)
    ((planeUnit_moves s).mono fun _ => PlaneMoves.blockMoves) fun t => ?_
  refine Res.Holds.seq (R := BlockMoves) (fun _ _ _ => BlockMoves.trans) (deltaUnit_moves t) fun u => ?_
  exact ⟨⟨_, _, _, _, _, _, _, _, _, _, _, _, rfl⟩, id⟩

theorem commitUnit_moves (s : State) : (commitUnit s).Holds (DecodeMoves s) := by
  unfold commitUnit
  split_ifs
  · refine ⟨⟨s.plane, s.pos, s.hdr, s.ov, s.j, s.g, s.tr, s.p, s.r, s.v, s.i, s.k, _, s.lastVertex, s.cnt, s.voff,
      s.blockSize, rfl⟩, fun hm => ?_⟩
    rw [memoriesOk_iff] at hm ⊢
    exact ⟨hm.1, Memory.rising_insertRun hm.2.1 _ _, hm.2.2⟩
  · trivial
  · trivial

theorem carryUnit_moves (s : State) : (carryUnit s).Holds (DecodeMoves s) := by
  unfold carryUnit
  split_ifs with h
  · refine ⟨⟨s.plane, s.pos, s.hdr, s.ov, s.j, s.g, s.tr, s.p, s.r, s.v, s.i, s.k, s.outMem, _, s.cnt, s.voff,
      s.blockSize, rfl⟩, fun hm => ?_⟩
    rw [memoriesOk_iff] at hm ⊢
    refine ⟨hm.1, hm.2.1, ⟨Memory.wf_setRun hm.2.2.1.1 _ _, Memory.below_setRun hm.2.2.1.2 _ _ ?_⟩, hm.2.2.2⟩
    rw [bytesUpTo_length]
    simpa using h
  · trivial

theorem blockUnit_moves (s : State) : (blockUnit s).Holds (DecodeMoves s) := by
  unfold blockUnit
  split_ifs
  · exact DecodeMoves.refl s
  · trivial
  · refine Res.Holds.seq (R := DecodeMoves) (fun _ _ _ => DecodeMoves.trans) ?_ fun t =>
      Res.Holds.seq (R := DecodeMoves) (fun _ _ _ => DecodeMoves.trans) (commitUnit_moves t) carryUnit_moves
    refine (repeatUnit_rel BlockMoves.refl (fun _ _ _ => BlockMoves.trans) planeTurn_moves _ _).mono
      fun t ht => ?_
    have h0 : BlockMoves s { s with k := 0 } := ⟨⟨_, _, _, _, _, _, _, _, _, _, _, _, rfl⟩, id⟩
    exact (h0.trans ht).decodeMoves

theorem tagUnit_moves (s : State) : (tagUnit s).Holds (DecodeMoves s) := by
  unfold tagUnit
  split_ifs
  · split
    · exact ⟨⟨_, _, _, _, _, _, _, _, _, _, _, _, s.outMem, s.lastVertex, s.cnt, s.voff, s.blockSize, rfl⟩, id⟩
    · exact DecodeMoves.refl s
  · trivial

theorem seedUnit_moves (s : State) : (seedUnit s).Holds (DecodeMoves s) := by
  unfold seedUnit
  split_ifs with h1 h2
  · exact seeded_moves (s := s) h1
  · trivial
  · trivial

theorem advanceVoff_moves (s : State) : DecodeMoves s (advanceVoff s) :=
  ⟨⟨s.plane, s.pos, s.hdr, s.ov, s.j, s.g, s.tr, s.p, s.r, s.v, s.i, s.k, s.outMem, s.lastVertex, s.cnt, _,
    s.blockSize, rfl⟩, id⟩

theorem blockTurn_moves (s : State) : (blockTurn s).Holds (DecodeMoves s) := by
  refine Res.Holds.seq (R := DecodeMoves) (fun _ _ _ => DecodeMoves.trans) ?_ advanceVoff_moves
  refine (blockUnit_moves _).mono fun _ => DecodeMoves.trans ?_
  exact ⟨⟨_, _, _, _, _, _, _, _, _, _, _, _, s.outMem, s.lastVertex, _, s.voff, s.blockSize, rfl⟩, id⟩

theorem blockLoop_moves (s : State) : (blockLoop s).Holds (DecodeMoves s) :=
  repeatUnit_rel DecodeMoves.refl (fun _ _ _ => DecodeMoves.trans) blockTurn_moves _ _

/-- The instruction a selector names is its group unit. -/
theorem exec_selector (w : BitVec 2) :
    ∃ i, decode (.selector w) = .ok i ∧ ∀ s, exec i s = (groupUnit w s).outcome := by
  rcases selector_cases w with rfl | rfl | rfl | rfl
  · exact ⟨.grpZero, rfl, fun _ => rfl⟩
  · exact ⟨.grpPack2, rfl, fun _ => rfl⟩
  · exact ⟨.grpPack4, rfl, fun _ => rfl⟩
  · exact ⟨.grpRaw, rfl, fun _ => rfl⟩

/-! ### A block that raises -/

/-- A block that raises did so at its count, or in a plane with TruncationError; neither copy nor carry was made. -/
theorem blockUnit_raised {s t : State} {e : ErrorKind} (h : blockUnit s = .raised e t) :
    BlockMoves s t ∧ (e = .argument ∧ (s.cnt = 0 ∨ s.cnt > 256) ∨ e = .truncation) := by
  have hturn : ∀ {s t : State} {e : ErrorKind}, planeTurn s = .raised e t → e = .truncation := by
    intro s t e ht
    have hg : ∀ (n : Nat) {s t : State} {e : ErrorKind}, repeatUnit n groupTurn s = .raised e t →
        e = .truncation := by
      intro n
      induction n with
      | zero => intro s t e h; cases h
      | succ n ih =>
        intro s t e h
        rcases Res.bind_eq_raised.1 h with h | ⟨u, -, h⟩
        · exact (groupTurn_eq_raised.1 h).2.1
        · exact ih h
    rcases Res.bind_eq_raised.1 ht with h | ⟨u, -, h⟩
    · exact hg _ h
    · rcases Res.bind_eq_raised.1 h with h | ⟨w, -, h⟩
      · exact absurd h deltaUnit_not_raised
      · cases h
  have hloop : ∀ (n : Nat) {s t : State} {e : ErrorKind}, repeatUnit n planeTurn s = .raised e t →
      e = .truncation := by
    intro n
    induction n with
    | zero => intro s t e h; cases h
    | succ n ih =>
      intro s t e h
      rcases Res.bind_eq_raised.1 h with h | ⟨u, -, h⟩
      · exact hturn h
      · exact ih h
  unfold blockUnit at h
  split_ifs at h with h1
  · cases h
    exact ⟨BlockMoves.refl s, .inl ⟨rfl, h1⟩⟩
  · rcases Res.bind_eq_raised.1 h with h | ⟨u, -, h⟩
    · have h0 : BlockMoves s { s with k := 0 } := ⟨⟨_, _, _, _, _, _, _, _, _, _, _, _, rfl⟩, id⟩
      have hm := (repeatUnit_rel BlockMoves.refl (fun _ _ _ => BlockMoves.trans) planeTurn_moves _ _).of_raised h
      exact ⟨h0.trans hm, .inr (hloop _ h)⟩
    · rcases Res.bind_eq_raised.1 h with h | ⟨w, -, h⟩
      · exact absurd h commitUnit_not_raised
      · exact absurd h carryUnit_not_raised

/-! ### A decode, from any state -/

theorem decodeBody_moves (s : State) :
    (∃ t, decodeBody s = .ok (finishDone t) ∧ DecodeMoves s t) ∨
    (∃ e t, decodeBody s = .raised e t ∧ DecodeMoves s t) := by
  rcases decodeBody_cases s with ⟨t, h, -, hm, -⟩ | ⟨e, t, h, hm, -⟩
  · exact .inl ⟨t, h, hm⟩
  · exact .inr ⟨e, t, h, hm⟩

/-- The three forms of the state after an instruction: the working state moved, a failure was taken after it moved, or a
decode ended DONE. -/
inductive ExecForm (s t : State) : Prop where
  | moved (h : DecodeMoves s t)
  | failed (e : ErrorKind) (u : State) (h : DecodeMoves s u ∨ DecodeMoves (beginBusy s) u)
      (ht : t = takeError e u)
  | done (u : State) (h : DecodeMoves (beginBusy s) u) (ht : t = finishDone u)

theorem ExecForm.of_holds {s t : State} {x : Res} (hx : x.Holds (DecodeMoves s)) (h : x.outcome = .next t) :
    ExecForm s t := by
  rcases Res.outcome_eq_next.1 h with h' | ⟨e, u, h', rfl⟩
  · exact .moved (hx.of_ok h')
  · exact .failed e u (.inl (hx.of_raised h')) rfl

theorem PlaneMoves.decodeMoves {s t : State} (h : PlaneMoves s t) : DecodeMoves s t :=
  h.blockMoves.decodeMoves

/-- Whatever the instruction, the state after it has one of the three forms. -/
theorem exec_form {i : Instr} {s t : State} (h : exec i s = .next t) : ExecForm s t := by
  have hp : ∀ {x : Res}, x.Holds (PlaneMoves s) → x.outcome = .next t → ExecForm s t :=
    fun hx => ExecForm.of_holds (hx.mono fun _ => PlaneMoves.decodeMoves)
  cases i with
  | frameTag => exact ExecForm.of_holds (tagUnit_moves s) h
  | grpZero => exact hp (groupUnit_moves _ s) h
  | grpPack2 => exact hp (groupUnit_moves _ s) h
  | grpPack4 => exact hp (groupUnit_moves _ s) h
  | grpRaw => exact hp (groupUnit_moves _ s) h
  | c2Lit v => exact hp (writeLane_moves _ s) h
  | c2Esc => exact hp (escapeLane_moves s) h
  | c4Lit v => exact hp (writeLane_moves _ s) h
  | c4Esc => exact hp (escapeLane_moves s) h
  | plane => exact hp (planeUnit_moves s) h
  | unzigzag =>
    simp only [exec, execUnzigzag] at h
    split_ifs at h
    cases h
    exact .moved (BlockMoves.decodeMoves ⟨⟨s.plane, s.pos, s.hdr, s.ov, s.j, s.g, s.tr, s.p, _, s.v, s.i, s.k, rfl⟩, id⟩)
  | delta => exact ExecForm.of_holds ((deltaUnit_moves s).mono fun _ => BlockMoves.decodeMoves) h
  | transpose =>
    simp only [exec, execTranspose] at h
    split_ifs at h with hi
    cases h
    refine .moved (BlockMoves.decodeMoves
      ⟨⟨s.plane, s.pos, s.hdr, s.ov, s.j, s.g, _, s.p, s.r, s.v, s.i, s.k, rfl⟩, fun hm => ?_⟩)
    rw [memoriesOk_iff] at hm ⊢
    exact ⟨hm.1, hm.2.1, hm.2.2.1, hm.2.2.2.1, Memory.wf_setByte hm.2.2.2.2.1 _ _,
      Memory.below_setByte hm.2.2.2.2.2 hi _⟩
  | commit => exact ExecForm.of_holds (commitUnit_moves s) h
  | block => exact ExecForm.of_holds (blockUnit_moves s) h
  | decode =>
    simp only [exec, execDecode, decodeUnit] at h
    split_ifs at h
    · cases h
      exact .moved (DecodeMoves.refl s)
    · split at h
      · cases h
      · rcases decodeBody_moves (beginBusy s) with ⟨u, hu, hm⟩ | ⟨e, u, hu, hm⟩
        · rw [hu] at h
          cases h
          exact .done u hm rfl
        · rw [hu] at h
          cases h
          exact .failed e u (.inr hm) rfl

end Sys2Proof.Machine
end

