-- ==== Sys2Proof/Laws/Steps.lean ====
section
/-! SUPPORT. What stands next at each position, and the parts of the invariant by name. -/

namespace Sys2Proof.Machine

/-! ### What stands next -/

theorem fetch_rest {s : State} (h : s.phase = .rest) : fetch s = fetchRest s := by
  unfold fetch
  rw [h]

theorem fetch_vStride {s : State} (h : s.phase = .vStride) :
    fetch s = .moved (if strideOk s.stride then .next (s.goto .vLen) else .next (takeError .argument s)) := by
  unfold fetch
  rw [h]

theorem fetch_vLen {s : State} (h : s.phase = .vLen) :
    fetch s = .moved (if 1 + s.stride ≤ s.buflen then .next (s.goto .vTag)
      else .next (takeError .format s)) := by
  unfold fetch
  rw [h]

theorem fetch_vTag {s : State} (h : s.phase = .vTag) :
    fetch s = if 0 < s.buflen then fetchUnit (.tag (s.inByte 0)) s
      else .moved (.fault (.inOutOfRange 0)) := by
  unfold fetch
  rw [h]

theorem fetch_seed {s : State} (h : s.phase = .seed) :
    fetch s = .moved ((seedUnit s).bind fun t => .ok (t.goto .blk)).outcome := by
  unfold fetch
  rw [h]

theorem fetch_blk {s : State} (h : s.phase = .blk) : fetch s = .moved (.next (blkMove s)) := by
  unfold fetch
  rw [h]

theorem fetch_block {s : State} (h : s.phase = .block) : fetch s = .run .block s := by
  unfold fetch
  rw [h]
  rfl

theorem fetch_plane {s : State} (h : s.phase = .plane) : fetch s = .run .plane s := by
  unfold fetch
  rw [h]
  rfl

theorem fetch_plHdr {s : State} (h : s.phase = .plHdr) :
    fetch s = .moved (.next ((openPlane s).goto .grChk)) := by
  unfold fetch
  rw [h]

theorem fetch_grChk {s : State} (h : s.phase = .grChk) :
    fetch s = .moved (if s.marginHolds then .next (s.goto .grDec) else .next (takeError .truncation s)) := by
  unfold fetch
  rw [h]

theorem fetch_grDec {s : State} (h : s.phase = .grDec) : fetch s = fetchGroup s := by
  unfold fetch
  rw [h]

theorem fetch_code {s : State} {b : CodeWidth} (h : s.phase = .code b) : fetch s = fetchCode b s := by
  unfold fetch
  rw [h]

theorem fetch_delta {s : State} (h : s.phase = .delta) : fetch s = fetchChain s := by
  unfold fetch
  rw [h]

theorem fetch_unzigzag {s : State} (h : s.phase = .unzigzag) : fetch s = .run .unzigzag s := by
  unfold fetch
  rw [h]
  rfl

theorem fetch_transpose {s : State} (h : s.phase = .transpose) : fetch s = .run .transpose s := by
  unfold fetch
  rw [h]
  rfl

theorem fetch_commit {s : State} (h : s.phase = .commit) : fetch s = .run .commit s := by
  unfold fetch
  rw [h]
  rfl

/-- What stands next at a group position, its selector's instruction or the group opened to be taken code by code. -/
theorem fetchGroup_eq {s : State} (hb : s.selectorOffset < s.buflen) :
    (s.grain = .lane ∧ isPacked s.selector = true ∧
      fetchGroup s = .moved (.next (openCodes (selectorWidth s.selector) s))) ∨
    (¬ (s.grain = .lane ∧ isPacked s.selector = true) ∧
      ∃ i, decode (.selector s.selector) = .ok i ∧ fetchGroup s = .run i s) := by
  unfold fetchGroup
  rw [if_pos hb]
  split_ifs with h
  · exact .inl ⟨h.1, h.2, rfl⟩
  · obtain ⟨i, hi, -⟩ := exec_selector s.selector
    exact .inr ⟨h, i, hi, by simp [fetchUnit, hi]⟩

/-- What a unit's bits fetch is never DECODE, which is the host's. -/
theorem fetchUnit_cases {r : Raw} (hr : ∀ w, r ≠ .ctrl w) (s : State) :
    (∃ i, i ≠ .decode ∧ decode r = .ok i ∧ fetchUnit r s = .run i s) ∨
    fetchUnit r s = .moved (.next (takeError .format s)) := by
  unfold fetchUnit
  cases h : decode r with
  | error e => exact .inr rfl
  | ok i =>
    refine .inl ⟨i, ?_, rfl, rfl⟩
    rintro rfl
    cases r with
    | ctrl w => exact hr w rfl
    | tag b => simp only [decode] at h; split_ifs at h; cases h
    | selector w => simp only [decode] at h; split_ifs at h <;> cases h
    | code2 c => simp only [decode] at h; split_ifs at h <;> cases h
    | code4 c => simp only [decode] at h; split_ifs at h <;> cases h
    | planePosition => cases h
    | unzigzagPosition => cases h
    | deltaPosition => cases h
    | transposePosition => cases h
    | commitPosition => cases h
    | blockPosition => cases h

/-! ### Going on -/

theorem step_of_moved {s : State} {o : Out} (h : fetch s = .moved o) : step s = o := by
  simp [step, h]

theorem step_of_run {s t : State} {i : Instr} (h : fetch s = .run i t) : step s = resume (exec i t) := by
  simp [step, h]

theorem resume_next {t : State} (h : t.phase ≠ .rest) : resume (.next t) = advance t := by
  simp [resume, h]

theorem resume_rest {t : State} (h : t.phase = .rest) : resume (.next t) = .next t := by
  simp [resume, h]

theorem DecodeMoves.phase {s t : State} (h : DecodeMoves s t) : t.phase = s.phase := by
  obtain ⟨⟨_, _, _, _, _, _, _, _, _, _, _, _, _, _, _, _, _, rfl⟩, -⟩ := h
  rfl

theorem DecodeMoves.status {s t : State} (h : DecodeMoves s t) : t.status = s.status := by
  obtain ⟨⟨_, _, _, _, _, _, _, _, _, _, _, _, _, _, _, _, _, rfl⟩, -⟩ := h
  rfl

/-! ### The invariant -/

/-- The parts of the invariant, by name. -/
theorem inv_iff (s : State) :
    s.Inv = true ↔ s.memoriesOk = true ∧ s.status.legal = true ∧ (s.status.state = .busy ↔ s.phase ≠ .rest) ∧
      (s.status.state = .error → s.outMem = .empty) := by
  simp only [State.Inv, Bool.and_eq_true, and_assoc, beq_iff_eq, decide_eq_decide, Bool.or_eq_true,
    decide_eq_true_eq]
  constructor <;> rintro ⟨a, b, c, d⟩ <;> refine ⟨a, b, c, ?_⟩ <;> tauto

theorem takeError_inv {s : State} (h : s.memoriesOk = true) (e : ErrorKind) : (takeError e s).Inv = true := by
  rw [memoriesOk_iff] at h
  rw [inv_iff, memoriesOk_iff]
  exact ⟨⟨h.1, rfl, h.2.2⟩, rfl, by simp, by simp⟩

theorem finishDone_inv {s : State} (h : s.memoriesOk = true) : (finishDone s).Inv = true := by
  rw [memoriesOk_iff] at h
  rw [inv_iff, memoriesOk_iff]
  exact ⟨h, rfl, by simp, by simp⟩

end Sys2Proof.Machine
end

