-- ==== Sys2Proof/Laws/Notation.lean ====
section
/-! SUPPORT. Fields against their encodings: header bytes, code bytes and lanes; the bit cursor against the index
formula; the code units by their code. -/

namespace Sys2Proof.Machine

/-! ### Header bytes (R74) -/

theorem selectorField_headerByte (s0 s1 s2 s3 : BitVec 2) :
    selectorField (headerByte s0 s1 s2 s3) 0 = s0 ∧ selectorField (headerByte s0 s1 s2 s3) 1 = s1 ∧
    selectorField (headerByte s0 s1 s2 s3) 2 = s2 ∧ selectorField (headerByte s0 s1 s2 s3) 3 = s3 := by
  revert s0 s1 s2 s3
  decide +kernel

theorem selectorField_add_four (b : Byte) (g : Nat) : selectorField b (g + 4) = selectorField b g := by
  simp [selectorField]

/-! ### Code bytes (R80, R81) -/

theorem laneCode_lt (o : CodeOrder) (b : Nat) (x : Byte) (j : Nat) : laneCode o b x j < 2 ^ b :=
  Nat.mod_lt _ (Nat.two_pow_pos b)

theorem laneNote_code_lt {b : CodeWidth} {l : LaneNote} (h : l.wellFormed b = true) :
    l.code b < 2 ^ b.bits := by
  cases l with
  | lit c =>
    simp only [LaneNote.wellFormed, decide_eq_true_eq] at h
    simp only [LaneNote.code]
    omega
  | esc x => cases b <;> simp [LaneNote.code]

theorem groupNote_values_length {n : GroupNote} (h : n.wellFormed = true) : n.values.length = 16 := by
  cases n with
  | zero => simp [GroupNote.values]
  | packed b l =>
    simp only [GroupNote.wellFormed, Bool.and_eq_true, beq_iff_eq] at h
    simpa [GroupNote.values] using h.1
  | raw l =>
    simp only [GroupNote.wellFormed, beq_iff_eq] at h
    simpa [GroupNote.values] using h

/-- The lanes whose codes and literals stand in the bytes read are the values of the notation. -/
theorem packedLanes_notes (o : CodeOrder) (b : CodeWidth) (rd : Nat → Byte) (pos : Nat)
    (ls : List LaneNote) (j ov : Nat) (hw : ls.all (LaneNote.wellFormed b) = true)
    (hc : ∀ m, m < ls.length →
      laneCode o b.bits (rd (pos + (j + m) / (8 / b.bits))) (j + m) = (ls.getD m (.lit 0)).code b)
    (ho : ∀ m, m < (ls.flatMap LaneNote.overflow).length →
      rd (ov + m) = (ls.flatMap LaneNote.overflow).getD m 0) :
    packedLanes o b.bits rd pos ls.length j ov
      = (ls.map LaneNote.value, ov + (ls.flatMap LaneNote.overflow).length) := by
  induction ls generalizing j ov with
  | nil => rfl
  | cons l rest ih =>
    have h0 := hc 0 (by simp)
    simp only [Nat.add_zero, List.getD_cons_zero] at h0
    have hc' : ∀ m, m < rest.length → laneCode o b.bits (rd (pos + (j + 1 + m) / (8 / b.bits))) (j + 1 + m)
        = (rest.getD m (.lit 0)).code b := by
      intro m hm
      have := hc (m + 1) (by simpa using hm)
      rw [show j + (m + 1) = j + 1 + m by omega] at this
      simpa using this
    simp only [List.all_cons, Bool.and_eq_true] at hw
    simp only [List.length_cons, packedLanes, h0]
    cases l with
    | lit c =>
      have hne : ¬ (LaneNote.lit c).code b = 2 ^ b.bits - 1 := by
        have := hw.1
        simp only [LaneNote.wellFormed, decide_eq_true_eq] at this
        exact Nat.ne_of_lt this
      rw [if_neg hne]
      simp only [List.flatMap_cons, LaneNote.overflow, List.nil_append] at ho ⊢
      rw [ih (j + 1) ov hw.2 hc' ho]
      rfl
    | esc x =>
      rw [if_pos (show (LaneNote.esc x).code b = 2 ^ b.bits - 1 from rfl)]
      simp only [List.flatMap_cons, LaneNote.overflow, List.singleton_append, List.length_cons] at ho ⊢
      have hx := ho 0 (by omega)
      rw [ih (j + 1) (ov + 1) hw.2 hc' fun m hm => by
        have := ho (m + 1) (by omega)
        rw [show ov + 1 + m = ov + (m + 1) by omega, this]
        rfl]
      simp only [Nat.add_zero, List.getD_cons_zero] at hx
      simp only [hx, List.map_cons, LaneNote.value, Prod.mk.injEq, true_and]
      omega

/-! ### The bit cursor (R110) -/

theorem front_eq_laneCode (x : Byte) :
    (∀ f, f < 4 → (x <<< (2 * f)).toNat >>> 6 = laneCode .msbFirst 2 x f) ∧
    (∀ f, f < 2 → (x <<< (4 * f)).toNat >>> 4 = laneCode .msbFirst 4 x f) := by
  revert x
  decide +kernel

theorem laneCode_mod (o : CodeOrder) (b : Nat) (x : Byte) {j j' : Nat} (h : j % (8 / b) = j' % (8 / b)) :
    laneCode o b x j = laneCode o b x j' := by
  simp [laneCode, h]

/-- The code unit of a code: which unit its bits are, and what it does. -/
theorem rawCode_unit (b : CodeWidth) (code : Nat) (hc : code < 2 ^ b.bits) :
    ∃ i, decode (rawCode b code) = .ok i ∧ ∀ t, exec i t =
      (if code = 2 ^ b.bits - 1 then escapeLane t else writeLane (BitVec.ofNat 8 code) t).outcome := by
  cases b with
  | two =>
    simp only [CodeWidth.bits] at hc
    rcases (by omega : code = 0 ∨ code = 1 ∨ code = 2 ∨ code = 3) with rfl | rfl | rfl | rfl
    · exact ⟨.c2Lit 0, rfl, fun _ => rfl⟩
    · exact ⟨.c2Lit 1, rfl, fun _ => rfl⟩
    · exact ⟨.c2Lit 2, rfl, fun _ => rfl⟩
    · exact ⟨.c2Esc, rfl, fun _ => rfl⟩
  | four =>
    simp only [CodeWidth.bits] at hc
    by_cases h : code = 15
    · subst h
      exact ⟨.c4Esc, rfl, fun _ => rfl⟩
    · refine ⟨.c4Lit (BitVec.ofNat 4 code), if_neg fun h' => ?_, fun t => ?_⟩
      · have := congrArg BitVec.toNat h'
        simp only [BitVec.toNat_ofNat] at this
        omega
      · show (writeLane ((BitVec.ofNat 4 code).setWidth 8) t).outcome = _
        rw [if_neg (by simpa using h)]
        congr 2
        apply BitVec.eq_of_toNat_eq
        simp
        omega

end Sys2Proof.Machine
end

