-- ==== Sys2Proof/Laws/PerInstr.lean ====
section
/-! SUPPORT. Statements made per instruction: the bits of every instruction's encoding are those of its row in the
opcode table. -/

namespace Sys2Proof.Laws

/-- The length of the `encoding` string of each row of `spec/opcode_table.json`. -/
def tableBits : Instr → Nat
  | .frameTag => 8
  | .grpZero | .grpPack2 | .grpPack4 | .grpRaw => 2
  | .c2Lit _ | .c2Esc => 2
  | .c4Lit _ | .c4Esc => 4
  | .plane | .unzigzag | .delta | .transpose | .commit | .block => 0
  | .decode => 32

namespace EncodedWidth

/-- An instruction's encoding has the bits its row has. -/
def Statement (i : Instr) : Prop := (encode i).bits = tableBits i

theorem frameTag : Statement .frameTag := rfl
theorem grpZero : Statement .grpZero := rfl
theorem grpPack2 : Statement .grpPack2 := rfl
theorem grpPack4 : Statement .grpPack4 := rfl
theorem grpRaw : Statement .grpRaw := rfl
theorem c2Lit (v : BitVec 2) : Statement (.c2Lit v) := rfl
theorem c2Esc : Statement .c2Esc := rfl
theorem c4Lit (v : BitVec 4) : Statement (.c4Lit v) := rfl
theorem c4Esc : Statement .c4Esc := rfl
theorem plane : Statement .plane := rfl
theorem unzigzag : Statement .unzigzag := rfl
theorem delta : Statement .delta := rfl
theorem transpose : Statement .transpose := rfl
theorem commit : Statement .commit := rfl
theorem block : Statement .block := rfl
theorem decode : Statement .decode := rfl

end EncodedWidth

end Sys2Proof.Laws
end

