-- ==== Sys2Proof/Laws/Runs.lean ====
section
/-! SUPPORT. Runs of several steps; two ways to compare units: the results of one unit on two states, and what a run of
steps reaches against the result of a unit. -/

namespace Sys2Proof.Machine

/-! ### Runs -/

/-- `n` steps of this machine, in its own types. -/
def runSteps : Nat → State → Out
  | 0, s => .next s
  | n + 1, s =>
    match step s with
    | .next t => runSteps n t
    | .fault x => .fault x
    | .refused x => .refused x

theorem hostRun_next (M : Host.Core) (n : Nat) {s t : M.State} (h : M.step s = .next t) :
    M.run (n + 1) s = M.run n t := by
  simp [Host.Core.run, h]

theorem hostRun_fault (M : Host.Core) (n : Nat) {s : M.State} {x : M.Fault} (h : M.step s = .fault x) :
    M.run (n + 1) s = .fault x := by
  simp [Host.Core.run, h]

theorem hostRun_refused (M : Host.Core) (n : Nat) {s : M.State} {x : M.Refusal}
    (h : M.step s = .refused x) : M.run (n + 1) s = .refused x := by
  simp [Host.Core.run, h]

/-- The host's run of the machine is `runSteps`. -/
theorem core_run (n : Nat) (s : State) : Host.Core.run Sys2Proof.core n s = runSteps n s := by
  induction n generalizing s with
  | zero => rfl
  | succ n ih =>
    unfold runSteps
    cases h : step s with
    | next t => exact (hostRun_next Sys2Proof.core n h).trans (ih t)
    | fault x => exact hostRun_fault Sys2Proof.core n h
    | refused x => exact hostRun_refused Sys2Proof.core n h

theorem runSteps_succ (n : Nat) {s t : State} (h : step s = .next t) :
    runSteps (n + 1) s = runSteps n t := by
  simp [runSteps, h]

theorem runSteps_add (m n : Nat) {s t : State} (h : runSteps m s = .next t) :
    runSteps (m + n) s = runSteps n t := by
  induction m generalizing s with
  | zero =>
    cases h
    simp
  | succ m ih =>
    rw [Nat.succ_add]
    simp only [runSteps] at h ⊢
    cases hs : step s with
    | next u =>
      rw [hs] at h
      exact ih h
    | fault r =>
      rw [hs] at h
      cases h
    | refused r =>
      rw [hs] at h
      cases h

/-- Some run of steps leads from one state to the other. -/
def Reaches (s t : State) : Prop := ∃ n, runSteps n s = .next t

theorem Reaches.refl (s : State) : Reaches s s := ⟨0, rfl⟩

theorem Reaches.one {s t : State} (h : step s = .next t) : Reaches s t := ⟨1, (runSteps_succ 0 h).trans rfl⟩

theorem Reaches.trans {s t u : State} (h1 : Reaches s t) (h2 : Reaches t u) : Reaches s u := by
  obtain ⟨m, hm⟩ := h1
  obtain ⟨n, hn⟩ := h2
  exact ⟨m + n, (runSteps_add m n hm).trans hn⟩

/-! ### The steps of a value (R231) -/

theorem step_unzigzag {s : State} (hp : s.phase = .unzigzag) (hi : s.i < 256) :
    step s = .next ((addDelta (unzigzagRead s)).goto .transpose) := by
  rw [step_of_run (fetch_unzigzag hp)]
  show resume (execUnzigzag s) = _
  rw [execUnzigzag, if_pos hi, resume_next (by show s.phase ≠ .rest; rw [hp]; decide)]
  unfold advance
  rw [show (unzigzagRead s).phase = .unzigzag from hp]

theorem step_transpose {s : State} (hp : s.phase = .transpose) (hi : s.trIndex < 8192) :
    step s = .next (afterVertex (transposeWrite s)) := by
  rw [step_of_run (fetch_transpose hp)]
  show resume (execTranspose s) = _
  rw [execTranspose, if_pos hi, resume_next (by show s.phase ≠ .rest; rw [hp]; decide)]
  unfold advance
  rw [show (transposeWrite s).phase = .transpose from hp]

/-! ### One unit on two states -/

/-- Two results of a unit that end the same way: both return, with related states, or both raise the same error. -/
def SameEnd (R : State → State → Prop) : Res → Res → Prop
  | .ok s, .ok t => R s t
  | .raised e _, .raised f _ => e = f
  | .fault _, .fault _ => True
  | .refused _, .refused _ => True
  | _, _ => False

theorem SameEnd.bind {P Q : State → State → Prop} {x y : Res} {f g : State → Res} (h : SameEnd P x y)
    (hf : ∀ s t, x = .ok s → y = .ok t → P s t → SameEnd Q (f s) (g t)) :
    SameEnd Q (x.bind f) (y.bind g) := by
  cases x <;> cases y <;> simp only [SameEnd] at h <;> try exact h.elim
  · exact hf _ _ rfl rfl h
  · exact h
  · trivial
  · trivial

theorem SameEnd.loop {P : Nat → State → State → Prop} {f : State → Res} (n : Nat) {s t : State}
    (h0 : P 0 s t) (h : ∀ m, m < n → ∀ s t, P m s t → SameEnd (P (m + 1)) (f s) (f t)) :
    SameEnd (P n) (repeatUnit n f s) (repeatUnit n f t) := by
  induction n generalizing P s t with
  | zero => exact h0
  | succ n ih =>
    rw [repeatUnit_succ, repeatUnit_succ]
    exact SameEnd.bind (h 0 (by omega) _ _ h0) fun u v _ _ huv =>
      ih (P := fun m => P (m + 1)) huv fun m hm => h (m + 1) (by omega)

/-! ### A run of steps against a unit -/

/-- Where the unit returns, the run reaches a related state; where it raises, the run reaches the failure. -/
def Follows (R : State → State → Prop) (x : State) : Res → Prop
  | .ok y => ∃ x', Reaches x x' ∧ R x' y
  | .raised e _ => ∃ x', Reaches x x' ∧ x'.phase = .rest ∧ x'.status = ⟨.error, some e⟩ ∧ x'.outMem = .empty
  | .fault _ => True
  | .refused _ => True

theorem Follows.reach {R : State → State → Prop} {x x' : State} {r : Res} (h : Reaches x x')
    (hf : Follows R x' r) : Follows R x r := by
  cases r with
  | ok y =>
    obtain ⟨z, hz, hr⟩ := hf
    exact ⟨z, h.trans hz, hr⟩
  | raised e y =>
    obtain ⟨z, hz, hr⟩ := hf
    exact ⟨z, h.trans hz, hr⟩
  | fault _ => trivial
  | refused _ => trivial

theorem Follows.bind {P Q : State → State → Prop} {x : State} {r : Res} {f : State → Res}
    (h : Follows P x r) (hf : ∀ x' y, r = .ok y → P x' y → Follows Q x' (f y)) :
    Follows Q x (r.bind f) := by
  cases r with
  | ok y =>
    obtain ⟨z, hz, hr⟩ := h
    exact Follows.reach hz (hf z y rfl hr)
  | raised e y => exact h
  | fault _ => trivial
  | refused _ => trivial

theorem Follows.loop {P : Nat → State → State → Prop} {f : State → Res} (n : Nat) {x y : State}
    (h0 : P 0 x y) (h : ∀ m, m < n → ∀ x y, P m x y → Follows (P (m + 1)) x (f y)) :
    Follows (P n) x (repeatUnit n f y) := by
  induction n generalizing P x y with
  | zero => exact ⟨x, Reaches.refl x, h0⟩
  | succ n ih =>
    rw [repeatUnit_succ]
    exact Follows.bind (h 0 (by omega) _ _ h0) fun u v _ huv =>
      ih (P := fun m => P (m + 1)) huv fun m hm => h (m + 1) (by omega)

/-- A step that runs the whole unit on the stepped side. -/
theorem Follows.of_unit {P R : State → State → Prop} {x : State} {rx ry : Res} (h : SameEnd P rx ry)
    (hx : step x = resume rx.outcome)
    (hn : ∀ x' y, rx = .ok x' → ry = .ok y → P x' y → ∃ x'', resume (.next x') = .next x'' ∧ R x'' y) :
    Follows R x ry := by
  cases rx <;> cases ry <;> simp only [SameEnd] at h <;> try exact h.elim
  · obtain ⟨x'', h1, h2⟩ := hn _ _ rfl rfl h
    exact ⟨x'', Reaches.one (hx.trans h1), h2⟩
  · subst h
    exact ⟨_, Reaches.one (hx.trans (resume_rest rfl)), rfl, rfl, rfl⟩
  · trivial
  · trivial

theorem Follows.mono {P Q : State → State → Prop} {x : State} {r : Res} (h : Follows P x r)
    (hpq : ∀ x y, r = .ok y → P x y → Q x y) : Follows Q x r := by
  cases r with
  | ok y =>
    obtain ⟨z, hz, hr⟩ := h
    exact ⟨z, hz, hpq _ _ rfl hr⟩
  | raised e y => exact h
  | fault _ => trivial
  | refused _ => trivial

end Sys2Proof.Machine
end

