-- ==== Sys2Proof/Tests/Slice0.lean ====
section
/-! SUPPORT. The model's own tests. Expected results are the spec's own vectors (`95_test_vectors.md`: G, H, Z, T, E, P)
or bits written out from its encoding rules; the witnesses at the end show states and operands that meet the
hypotheses of each statement. -/

namespace Sys2Proof.Tests

open Sys2Proof Sys2Proof.Machine Sys2Proof.Spec

/-! ### Helpers -/

/-- The state a step went on with. -/
def stateOf : Out → Option State
  | .next s => some s
  | .fault _ => none
  | .refused _ => none

/-- The refusal a step stopped with. -/
def refusalOf : Out → Option Refusal
  | .refused x => some x
  | .next _ => none
  | .fault _ => none

theorem next_of_any {o : Out} {P : State → Bool} (h : (stateOf o).any P = true) :
    ∃ t, o = .next t ∧ P t = true := by
  cases o with
  | next s => exact ⟨s, rfl, by simpa [stateOf] using h⟩
  | fault x => simp [stateOf] at h
  | refused x => simp [stateOf] at h

/-- A resting core whose host has placed a buffer and written the operands. -/
def loaded (count S : Nat) (bytes : List Byte) : State :=
  { State.reset with
    vcount := BitVec.ofNat 32 count
    vstride := BitVec.ofNat 32 S
    buflen := bytes.length
    vcountWritten := true
    vstrideWritten := true
    buflenWritten := true
    inMem := Memory.empty.setRun 0 bytes
    inLen := bytes.length }

/-- A core inside a decode, at a position of the stream. -/
def inside (ph : Phase) (s : State) : State := { s with status := ⟨.busy, none⟩, phase := ph }

/-- A core at the start of a plane of `cnt` values, the buffer being the bytes of the plane. -/
def atPlane (cnt : Nat) (bytes : List Byte) : State :=
  { inside .plane (loaded cnt 4 bytes) with cnt := cnt }

/-- The values of a plane and the cursor after it. -/
def planeResult (n : Nat) (o : Out) : Option (List Byte × Nat) :=
  (stateOf o).map fun t => (bytesUpTo n t.plane.byte, t.pos)

/-- STATUS and cursor after a step. -/
def ending (o : Out) : Option (Status × Nat) := (stateOf o).map fun t => (t.status, t.pos)

/-- The first bytes of OUT after a step, where they have values. -/
def outBytes (n : Nat) (o : Out) : Option (List (Option Byte)) :=
  (stateOf o).map fun t => (List.range n).map t.outMem.find

/-- Program P1 of the spec's vectors. -/
def p1 : FrameNote where
  blocks := [[⟨[.zero], 0⟩, ⟨[.zero], 0⟩, ⟨[.zero], 0⟩, ⟨[.zero], 0⟩]]
  filler := List.replicate 27 0xEE#8
  trailer := [0x11, 0x22, 0x33, 0x44]
  last := 0x99

/-- Program P2 of the spec's vectors. -/
def p2 : FrameNote where
  blocks := [[
    ⟨[.packed .two ([.lit 0, .lit 2, .esc 0x03] ++ List.replicate 13 (.lit 0))], 0⟩,
    ⟨[.packed .four ([.lit 14, .lit 13, .esc 0xFF] ++ List.replicate 13 (.lit 0))], 0⟩,
    ⟨[.raw ([0x02, 0x01, 0xFE] ++ List.replicate 13 0xAA)], 0⟩,
    ⟨[.zero], 0xFC⟩]]
  filler := List.replicate 27 0xEE#8
  trailer := [0x10, 0x80, 0xFF, 0x55]
  last := 0x99

/-- The 37 bytes of P1. -/
def p1buf : List Byte :=
  [0xA0, 0x00, 0x00, 0x00, 0x00] ++ List.replicate 27 0xEE ++ [0x11, 0x22, 0x33, 0x44, 0x99]

/-- The 67 bytes of P2. -/
def p2buf : List Byte :=
  [0xA0, 0x01, 0x2C, 0x00, 0x00, 0x00, 0x03]
    ++ [0x02, 0xED, 0xF0, 0x00, 0x00, 0x00, 0x00, 0x00, 0x00, 0xFF]
    ++ [0x03, 0x02, 0x01, 0xFE] ++ List.replicate 13 0xAA ++ [0xFC]
    ++ List.replicate 27 0xEE ++ [0x10, 0x80, 0xFF, 0x55, 0x99]

/-! ### Well-formedness: one ill-formed term for each check, refused (R73, R77 to R79, R81, R105) -/

theorem test_wf_c2Lit_sentinel : (Instr.c2Lit 3#2).wellFormed = false := by decide
theorem test_wf_c4Lit_sentinel : (Instr.c4Lit 15#4).wellFormed = false := by decide
theorem test_wf_lane_sentinel :
    LaneNote.wellFormed .two (.lit 3) = false ∧ LaneNote.wellFormed .four (.lit 15) = false ∧
      LaneNote.wellFormed .four (.lit 3) = true := by decide
theorem test_wf_fifteen_lanes :
    (GroupNote.packed .two (List.replicate 15 (.lit 0))).wellFormed = false := by decide
theorem test_wf_lane_in_group :
    (GroupNote.packed .two (List.replicate 16 (.lit 7))).wellFormed = false := by decide
theorem test_wf_seventeen_raw : (GroupNote.raw (List.replicate 17 0)).wellFormed = false := by decide
theorem test_wf_plane_counts :
    (PlaneNote.wellFormed ⟨[], 0⟩) = false ∧
      (PlaneNote.wellFormed ⟨List.replicate 17 .zero, 0⟩) = false ∧
      (PlaneNote.wellFormed ⟨List.replicate 16 .zero, 0⟩) = true := by decide
theorem test_wf_group_in_plane : (PlaneNote.wellFormed ⟨[.zero, .raw [0]], 0⟩) = false := by decide

/-! ### Decoding: every constructor from bits written out from the spec (R71, R75, R77, R78, R84, R89, R91) -/

theorem test_decode_frameTag : decode (.tag 0b10100000#8) = .ok .frameTag := by decide
theorem test_decode_badTag :
    decode (.tag 0x0A#8) = .error (.badTag 0x0A#8) ∧ decode (.tag 0xA8#8) = .error (.badTag 0xA8#8) := by
  decide
theorem test_decode_grpZero : decode (.selector 0b00#2) = .ok .grpZero := by decide
theorem test_decode_grpPack2 : decode (.selector 0b01#2) = .ok .grpPack2 := by decide
theorem test_decode_grpPack4 : decode (.selector 0b10#2) = .ok .grpPack4 := by decide
theorem test_decode_grpRaw : decode (.selector 0b11#2) = .ok .grpRaw := by decide
theorem test_decode_c2Lit :
    decode (.code2 0b00#2) = .ok (.c2Lit 0) ∧ decode (.code2 0b01#2) = .ok (.c2Lit 1) ∧
      decode (.code2 0b10#2) = .ok (.c2Lit 2) := by decide
theorem test_decode_c2Esc : decode (.code2 0b11#2) = .ok .c2Esc := by decide
theorem test_decode_c4Lit :
    decode (.code4 0b0000#4) = .ok (.c4Lit 0) ∧ decode (.code4 0b0011#4) = .ok (.c4Lit 3) ∧
      decode (.code4 0b1110#4) = .ok (.c4Lit 14) := by decide
theorem test_decode_c4Esc : decode (.code4 0b1111#4) = .ok .c4Esc := by decide
theorem test_decode_positions :
    decode .planePosition = .ok .plane ∧ decode .unzigzagPosition = .ok .unzigzag ∧
      decode .deltaPosition = .ok .delta ∧ decode .transposePosition = .ok .transpose ∧
      decode .commitPosition = .ok .commit ∧ decode .blockPosition = .ok .block := by decide
theorem test_decode_start :
    decode (.ctrl 0x00000001#32) = .ok .decode ∧ decode (.ctrl 0x80000003#32) = .ok .decode ∧
      decode (.ctrl 0x00000002#32) = .error .startClear := by decide

/-- Header byte `B1` holds the selectors 1, 0, 3, 2 and `E4` holds 0, 1, 2, 3 (H5, H6). -/
theorem test_header_fields :
    (List.range 4).map (selectorField 0xB1#8) = [1, 0, 3, 2] ∧
      (List.range 4).map (selectorField 0xE4#8) = [0, 1, 2, 3] ∧
      encodeHeader 0xFC [1, 0, 3, 2, 1] = [0xB1, 0xFD] := by decide

/-- The first code stands in the top bits: `1B` holds 0, 1, 2, 3 and `01 23` holds 0, 1, 2, 3 (R77, R78). -/
theorem test_code_fields :
    (List.range 4).map (laneCode .msbFirst 2 0x1B#8) = [0, 1, 2, 3] ∧
      (List.range 2).map (laneCode .msbFirst 4 0x23#8) = [2, 3] ∧
      (List.range 4).map (laneCode .lsbFirst 2 0x1B#8) = [3, 2, 1, 0] := by decide

/-- The table's bits with no position: the tag, the selectors, the last code and the command (log 17). -/
theorem test_table_words :
    decodeTableWord 8 0xA0 = some .frameTag ∧ decodeTableWord 8 0 = some .grpZero ∧
      decodeTableWord 8 1 = some .grpPack2 ∧ decodeTableWord 8 2 = some .grpPack4 ∧
      decodeTableWord 8 3 = some .grpRaw ∧ decodeTableWord 8 14 = some (.c4Lit 14) ∧
      decodeTableWord 8 15 = some .c4Esc ∧ decodeTableWord 0 0 = some .plane ∧
      decodeTableWord 32 1 = some .decode ∧ decodeTableWord 8 0xA1 = none ∧
      decodeTableWord 32 2 = none := by decide

/-! ### Encoding: the spec's own example and programs (R90, P1, P2) -/

theorem test_encode_example :
    encodeGroup .msbFirst (.packed .two ([.lit 0, .lit 1, .lit 2, .esc 0x7F] ++ List.replicate 12 (.lit 0)))
      = [0x1B, 0x00, 0x00, 0x00, 0x7F] := by decide
theorem test_encode_p1 : encodeFrame .msbFirst p1 = p1buf := by decide +kernel
theorem test_encode_p2 : encodeFrame .msbFirst p2 = p2buf := by decide +kernel

/-! ### U1: the group vectors G1 to G12 -/

/-- DecodeGroup on bytes that start at offset 0. -/
def group (o : CodeOrder) (w : BitVec 2) (bytes : List Byte) : List Byte × Nat :=
  decodeGroup o w (fun a => bytes.getD a 0xEE#8) 0

theorem test_group_zero_and_raw :
    group .msbFirst 0 [] = (List.replicate 16 0, 0) ∧
      group .msbFirst 3 (List.replicate 16 0xFF) = (List.replicate 16 0xFF, 16) ∧
      group .msbFirst 3 ((List.range 16).map (BitVec.ofNat 8)) = ((List.range 16).map (BitVec.ofNat 8), 16) := by
  decide +kernel
theorem test_group_G2 :
    group .msbFirst 1 [0x1B, 0x00, 0x00, 0x00, 0x7F]
      = ([0x00, 0x01, 0x02, 0x7F, 0, 0, 0, 0, 0, 0, 0, 0, 0, 0, 0, 0], 5) ∧
    group .lsbFirst 1 [0x1B, 0x00, 0x00, 0x00, 0x7F]
      = ([0x7F, 0x02, 0x01, 0x00, 0, 0, 0, 0, 0, 0, 0, 0, 0, 0, 0, 0], 5) := by decide +kernel
theorem test_group_G4_G5 :
    group .msbFirst 1 [0xAA, 0xAA, 0xAA, 0xAA] = (List.replicate 16 0x02, 4) ∧
    group .msbFirst 1 ([0xFF, 0xFF, 0xFF, 0xFF] ++ (List.range 16).map (BitVec.ofNat 8))
      = ((List.range 16).map (BitVec.ofNat 8), 20) := by decide +kernel
theorem test_group_G6 :
    group .msbFirst 1 [0xCD, 0xAA, 0xF0, 0x57, 0xAA, 0x00, 0xFF, 0x03, 0x01]
      = ([0xAA, 0x00, 0x00, 0x01, 0x02, 0x02, 0x02, 0x02, 0xFF, 0x03, 0x00, 0x00, 0x01, 0x01, 0x01, 0x01], 9) := by
  decide +kernel
theorem test_group_G7 :
    group .msbFirst 2 [0x01, 0x23, 0x45, 0x67, 0x89, 0xAB, 0xCD, 0xEF, 0xF0]
      = ([0x00, 0x01, 0x02, 0x03, 0x04, 0x05, 0x06, 0x07, 0x08, 0x09, 0x0A, 0x0B, 0x0C, 0x0D, 0x0E, 0xF0], 9) ∧
    group .lsbFirst 2 [0x01, 0x23, 0x45, 0x67, 0x89, 0xAB, 0xCD, 0xEF, 0xF0]
      = ([0x01, 0x00, 0x03, 0x02, 0x05, 0x04, 0x07, 0x06, 0x09, 0x08, 0x0B, 0x0A, 0x0D, 0x0C, 0xF0, 0x0E], 9) := by
  decide +kernel
theorem test_group_G9 :
    group .msbFirst 2 (List.replicate 8 0xFF ++ (List.range 16).map fun n => BitVec.ofNat 8 (0xA0 + n))
      = ((List.range 16).map (fun n => BitVec.ofNat 8 (0xA0 + n)), 24) := by decide +kernel
theorem test_group_G10 :
    group .msbFirst 2 [0xF0, 0x1F, 0xEF, 0x78, 0x00, 0x00, 0x00, 0x0F, 0x10, 0x0F, 0x20, 0xFF]
      = ([0x10, 0x00, 0x01, 0x0F, 0x0E, 0x20, 0x07, 0x08, 0, 0, 0, 0, 0, 0, 0, 0xFF], 12) := by decide +kernel

/-- GRP.PACK2 in its place: group 15 of the plane, vector G2, the margin exactly 32 (R124, R125). -/
theorem test_exec_grpPack2 :
    (stateOf (exec .grpPack2 { atPlane 256 ([0x1B, 0x00, 0x00, 0x00, 0x7F] ++ List.replicate 27 0xEE)
      with g := 15 })).map (fun t => (t.plane.byte 243, t.plane.byte 242, t.plane.byte 227, t.pos, t.ov, t.g))
      = some (0x7F, 0x02, 0x00, 5, 5, 15) := by decide +kernel
/-- GRP.ZERO overwrites the sixteen cells and consumes nothing (R101). -/
theorem test_exec_grpZero :
    (stateOf (exec .grpZero { atPlane 16 (List.replicate 32 0xEE) with
      plane := Memory.empty.setRun 0 (List.replicate 17 0x77#8) })).map
      (fun t => (t.plane.byte 0, t.plane.byte 15, t.plane.byte 16, t.pos)) = some (0x00, 0x00, 0x77, 0) := by
  decide +kernel
/-- C2.LIT and C4.LIT write their lane and leave the overflow cursor (R105). -/
theorem test_exec_literals :
    (stateOf (exec (.c2Lit 2) { atPlane 32 [] with g := 1, j := 3, ov := 9 })).map
        (fun t => (t.plane.byte 19, t.ov)) = some (0x02, 9) ∧
      (stateOf (exec (.c4Lit 14) { atPlane 32 [] with g := 1, j := 3, ov := 9 })).map
        (fun t => (t.plane.byte 19, t.ov)) = some (0x0E, 9) := by decide +kernel
/-- C2.ESC and C4.ESC take the literal at the overflow cursor, even one below the sentinel (R106, R86). -/
theorem test_exec_escapes :
    (stateOf (exec .c2Esc { atPlane 32 [0xEE, 0x01] with g := 1, j := 3, ov := 1 })).map
        (fun t => (t.plane.byte 19, t.ov)) = some (0x01, 2) ∧
      (stateOf (exec .c4Esc { atPlane 32 [0xEE, 0x01] with g := 1, j := 3, ov := 1 })).map
        (fun t => (t.plane.byte 19, t.ov)) = some (0x01, 2) := by decide +kernel

/-! ### U2: the plane vectors H1 to H9 -/

theorem test_plane_H1_H2_H3 :
    planeResult 16 (exec .plane (atPlane 16 ([0x00] ++ List.replicate 32 0xEE))) = some (List.replicate 16 0, 1) ∧
      (stateOf (exec .plane (atPlane 16 ([0x00] ++ List.replicate 31 0xEE)))).map (fun t => t.status)
        = some ⟨.error, some .truncation⟩ ∧
      planeResult 16 (exec .plane (atPlane 16 ([0xFC] ++ List.replicate 32 0xEE)))
        = some (List.replicate 16 0, 1) := by decide +kernel
theorem test_plane_H4_H5 :
    planeResult 32 (exec .plane (atPlane 32 ([0x0D, 0x1B, 0x00, 0x00, 0x00, 0x7F]
        ++ (List.range 16).map (fun n => BitVec.ofNat 8 (0x10 + n)) ++ List.replicate 16 0xEE)))
      = some ([0x00, 0x01, 0x02, 0x7F] ++ List.replicate 12 0x00
          ++ (List.range 16).map (fun n => BitVec.ofNat 8 (0x10 + n)), 22) ∧
    planeResult 80 (exec .plane (atPlane 80 ([0xB1, 0xFD, 0xAA, 0xAA, 0xAA, 0xAA]
        ++ (List.range 16).map (fun n => BitVec.ofNat 8 (0x20 + n)) ++ List.replicate 8 0x11
        ++ List.replicate 4 0x55 ++ List.replicate 28 0xEE)))
      = some (List.replicate 16 0x02 ++ List.replicate 16 0x00
          ++ (List.range 16).map (fun n => BitVec.ofNat 8 (0x20 + n)) ++ List.replicate 32 0x01, 34) := by
  decide +kernel

/-! ### U3 and U4: the zig-zag points, the chains Z1 to Z5, and T1 -/

theorem test_unzigzag_points :
    (List.range 16).map (fun n => unzigzagByte (BitVec.ofNat 8 n))
        = [0x00, 0xFF, 0x01, 0xFE, 0x02, 0xFD, 0x03, 0xFC, 0x04, 0xFB, 0x05, 0xFA, 0x06, 0xF9, 0x07, 0xF8] ∧
      [0x7E#8, 0x7F, 0x80, 0x81, 0xFD, 0xFE, 0xFF].map unzigzagByte
        = [0x3F, 0xC0, 0x40, 0xBF, 0x81, 0x7F, 0x80] := by decide
theorem test_exec_unzigzag :
    (stateOf (exec .unzigzag { inside .unzigzag State.reset with
      i := 255, plane := Memory.empty.setByte 255 0xFF })).map (fun t => t.r) = some 0x80 := by decide +kernel

/-- The values a chain writes at offset `k` of records of 4 bytes. -/
def chainOut (seed : Byte) (values : List Byte) : Option (List Byte) :=
  (stateOf (exec .delta { inside .delta State.reset with
    vstride := 4
    cnt := values.length
    k := 1
    lastVertex := Memory.empty.setByte 1 seed
    plane := Memory.empty.setRun 0 values })).map fun t =>
      bytesUpTo values.length fun n => t.tr.byte (n * 4 + 1)

theorem test_delta_Z1_Z2 :
    chainOut 0xFE [0x02, 0x02, 0x02, 0x01] = some [0xFF, 0x00, 0x01, 0x00] ∧
      chainOut 0x00 [0x01, 0xFF, 0xFF, 0xFE, 0x00] = some [0xFF, 0x7F, 0xFF, 0x7E, 0x7E] := by decide +kernel
theorem test_delta_Z3_Z4_Z5 :
    chainOut 0x7F [0x02, 0xFE, 0xFD] = some [0x80, 0xFF, 0x80] ∧
      chainOut 0x55 [0x00, 0x00, 0x00] = some [0x55, 0x55, 0x55] ∧
      chainOut 0x10 [0x00, 0x02, 0x03] = some [0x10, 0x11, 0x0F] := by decide +kernel
theorem test_exec_transpose :
    (stateOf (exec .transpose { inside .transpose State.reset with
      vstride := 256, i := 31, k := 255, v := 0x5A })).map (fun t => (t.tr.byte 8191, t.tr.byte 8190))
      = some (0x5A, 0x00) := by decide +kernel

/-- P2 inside BLOCK: three vertices at the block's start. -/
def p2block : State :=
  { inside .block (loaded 3 4 p2buf) with
    cnt := 3
    pos := 1
    blockSize := 256
    lastVertex := Memory.empty.setRun 0 [0x10, 0x80, 0xFF, 0x55] }

theorem test_exec_commit :
    outBytes 5 (exec .commit { inside .commit (loaded 3 4 p2buf) with
      cnt := 1, voff := 0, tr := Memory.empty.setRun 0 [0x10, 0x87, 0x00, 0x55, 0x77] })
      = some [some 0x10, some 0x87, some 0x00, some 0x55, none] := by decide +kernel
theorem test_block_T1 :
    outBytes 12 (exec .block p2block)
      = some ([0x10, 0x87, 0x00, 0x55, 0x11, 0x80, 0xFF, 0x55, 0x0F, 0x00, 0x7E, 0x55].map some) ∧
      (stateOf (exec .block p2block)).map (fun t => bytesUpTo 4 t.lastVertex.byte)
        = some [0x0F, 0x00, 0x7E, 0x55] := by decide +kernel
theorem test_block_T2_T3 :
    ending (exec .block { p2block with cnt := 0 }) = some (⟨.error, some .argument⟩, 1) ∧
      ending (exec .block { p2block with cnt := 257 }) = some (⟨.error, some .argument⟩, 1) := by decide +kernel

/-! ### U5: whole decodes -/

theorem test_decode_P1_E14 :
    ending (exec .decode (loaded 1 4 p1buf)) = some (⟨.done, none⟩, 5) ∧
      outBytes 5 (exec .decode (loaded 1 4 p1buf))
        = some [some 0x11, some 0x22, some 0x33, some 0x44, none] ∧
      ending (exec .decode (loaded 17 4 p1buf)) = some (⟨.done, none⟩, 5) ∧
      outBytes 68 (exec .decode (loaded 17 4 p1buf))
        = some ((List.replicate 17 [0x11, 0x22, 0x33, 0x44]).flatten.map some) := by decide +kernel
theorem test_decode_P2 :
    ending (exec .decode (loaded 3 4 p2buf)) = some (⟨.done, none⟩, 35) ∧
      outBytes 12 (exec .decode (loaded 3 4 p2buf))
        = some ([0x10, 0x87, 0x00, 0x55, 0x11, 0x80, 0xFF, 0x55, 0x0F, 0x00, 0x7E, 0x55].map some) := by
  decide +kernel

/-- The error a decode ends with. -/
def errorOf (count S : Nat) (bytes : List Byte) : Option (Option ErrorKind) :=
  (stateOf (exec .decode (loaded count S bytes))).map fun t => t.status.err

theorem test_argument_errors :
    [5, 260, 0, 2].map (fun S => errorOf 1 S p1buf) = List.replicate 4 (some (some .argument)) ∧
      errorOf 1 5 (0xA1 :: p1buf.tail) = some (some .argument) ∧
      errorOf 3 6 (0x0A :: p2buf.tail) = some (some .argument) := by decide +kernel
theorem test_format_errors :
    errorOf 1 40 p1buf = some (some .format) ∧ errorOf 1 4 (0xA1 :: p1buf.tail) = some (some .format) ∧
      errorOf 1 4 [] = some (some .format) ∧ errorOf 1 4 [0xA0, 0, 0, 0] = some (some .format) ∧
      errorOf 3 68 p2buf = some (some .format) := by decide +kernel
theorem test_truncation_errors :
    errorOf 1 4 (p1buf.eraseIdx 5) = some (some .truncation) ∧
      ending (exec .decode (loaded 65 4 p1buf)) = some (⟨.error, some .truncation⟩, 7) ∧
      errorOf 1 36 (0xA0 :: List.replicate 36 0) = some (some .truncation) ∧
      errorOf 3 4 (p2buf.take 66) = some (some .truncation) := by decide +kernel
theorem test_no_vertices_E9_E10 :
    errorOf 0 4 p1buf = some none ∧
      (stateOf (exec .decode (loaded 0 36 (0xA0 :: List.replicate 36 0x77)))).map
        (fun t => (t.status, bytesUpTo 2 t.lastVertex.byte)) = some (⟨.done, none⟩, [0xA0, 0x77]) := by
  decide +kernel
theorem test_exec_frameTag :
    ending (exec .frameTag (inside .vTag (loaded 1 4 p1buf))) = some (⟨.busy, none⟩, 1) ∧
      ending (exec .frameTag (inside .vTag (loaded 1 4 [0x20]))) = some (⟨.error, some .format⟩, 0) := by
  decide +kernel

/-! ### Steps -/

/-- Table words placed after reset are what the next step runs. -/
theorem test_fetch_words :
    ending (step (State.reset.withFetchWord 8 0xA0)) = some (⟨.busy, none⟩, 1) ∧
      ending (step (State.reset.withFetchWord 8 1)) = some (⟨.busy, none⟩, 5) ∧
      ending (step (State.reset.withFetchWord 8 2)) = some (⟨.busy, none⟩, 9) ∧
      ending (step (State.reset.withFetchWord 8 3)) = some (⟨.busy, none⟩, 17) ∧
      ending (step (State.reset.withFetchWord 32 1)) = some (⟨.error, some .argument⟩, 0) := by decide +kernel

/-- The instruction a table word placed after reset makes the next step run. -/
def fetchedAt (nbits w : Nat) : Option Instr :=
  match fetch (State.reset.withFetchWord nbits w) with
  | .run i _ => some i
  | .moved _ => none

theorem test_fetched_words :
    fetchedAt 8 0xA0 = some .frameTag ∧ fetchedAt 8 0 = some .grpZero ∧ fetchedAt 8 3 = some .grpRaw ∧
      fetchedAt 8 14 = some (.c4Lit 14) ∧ fetchedAt 8 15 = some .c4Esc ∧ fetchedAt 0 0 = some .plane ∧
      fetchedAt 32 1 = some .decode := by decide +kernel

/-! ### Witnesses: states and operands that meet the hypotheses of each statement -/

/-- The bytes of a list from an offset on, others `EE`. -/
def bytesAt (pos : Nat) (l : List Byte) (a : Nat) : Byte := l.getD (a - pos) 0xEE

/-- A packed group of fifteen literals and one escape. -/
def oneEscape (b : CodeWidth) (code : Nat) : GroupNote :=
  .packed b (List.replicate 15 (.lit code) ++ [.esc 0x80])

theorem witness_EncodeAndDecodeAgree :
    (Instr.c2Lit 2#2).wellFormed = true ∧ (Instr.c4Lit 14#4).wellFormed = true ∧
      decode (.ctrl 0xFFFFFFFF#32) = .ok .decode ∧ decode (.code4 14#4) = .ok (.c4Lit 14#4) := by decide

theorem witness_GroupNotationRoundTrip :
    ∀ n ∈ [GroupNote.zero, oneEscape .two 2, oneEscape .four 14, .raw (List.replicate 16 0xFF)],
      n.wellFormed = true ∧ ∀ o ∈ [CodeOrder.msbFirst, .lsbFirst], ∀ m, m < (encodeGroup o n).length →
        bytesAt 7 (encodeGroup o n) (7 + m) = (encodeGroup o n).getD m 0 := by decide +kernel

theorem witness_HeaderHoldsItsSelectors :
    (0 : Nat) < ([3#2] : List (BitVec 2)).length ∧ 15 < (List.replicate 16 2#2).length := by decide

/-- A plane of three groups, spare selector bits set. -/
def threeGroups : PlaneNote := ⟨[oneEscape .two 1, .raw (List.replicate 16 0x7F), .zero], 0xFF⟩

theorem witness_PlaneNotationIsDecoded :
    ∀ c ∈ [(33, threeGroups), (48, threeGroups), (1, ⟨[.zero], 0⟩), (256, ⟨List.replicate 16 .zero, 0⟩)],
      let s := atPlane c.1 (encodePlane .msbFirst c.2 ++ List.replicate 32 0xEE)
      s.memoriesOk = true ∧ c.2.wellFormed = true ∧ numGroups s.cnt = c.2.groups.length ∧
        (∀ n, n < (encodePlane .msbFirst c.2).length →
          s.inByte (s.pos + n) = (encodePlane .msbFirst c.2).getD n 0) ∧
        s.pos + (encodePlane .msbFirst c.2).length + 32
          ≤ s.buflen + ((c.2.groups.getLast?.map (encodeGroup .msbFirst)).getD []).length := by
  decide +kernel

/-- A frame whose last group reads sixteen bytes, with the 11 bytes of filler its margin asks for beside them. -/
def rawLast : FrameNote where
  blocks := [[⟨[.zero], 0⟩, ⟨[.zero], 0⟩, ⟨[.zero], 0⟩, ⟨[.raw (List.replicate 16 0x7F)], 0⟩]]
  filler := List.replicate 11 0xEE#8
  trailer := [0x11, 0x22, 0x33, 0x44]
  last := 0x99

/-- The frame of a decode of no vertices: nothing but tag, trailer and last byte. -/
def noBlocks : FrameNote := ⟨[], [], [0x11, 0x22, 0x33, 0x44], 0x99⟩

theorem witness_FrameNotationIsDecoded_bounds :
    ∀ c ∈ [(16, rawLast), (0, noBlocks)],
      let s := loaded c.1 4 (encodeFrame .msbFirst c.2)
      s.startable = true ∧ s.memoriesOk = true ∧ strideOk s.stride = true ∧ FrameFits s c.2 ∧
        s.buflen = (encodeFrame .msbFirst c.2).length ∧ InHolds s 0 (encodeFrame .msbFirst c.2) := by
  unfold FrameFits InHolds
  decide +kernel
theorem witness_FrameNotationIsDecoded :
    let s := loaded 3 4 p2buf
    s.startable = true ∧ s.memoriesOk = true ∧ strideOk s.stride = true ∧ FrameFits s p2 ∧
      s.buflen = (encodeFrame .msbFirst p2).length ∧ InHolds s 0 (encodeFrame .msbFirst p2) ∧
      2 < s.count ∧ 3 < s.stride := by
  unfold FrameFits InHolds
  decide +kernel

/-- A core before the last group of a plane, its margin exactly 32. -/
def lastGroup : State := { atPlane 256 (List.replicate 33 0x1B) with g := 15, pos := 1 }

theorem witness_groups :
    lastGroup.memoriesOk = true ∧ lastGroup.pos + 32 ≤ lastGroup.buflen ∧ 16 * lastGroup.g + 16 ≤ 256 := by
  decide +kernel
theorem witness_GrpZeroWritesSixteenZeros :
    lastGroup.memoriesOk = true ∧ lastGroup.pos + 32 ≤ lastGroup.buflen ∧ 16 * lastGroup.g + 16 ≤ 256 :=
  witness_groups
theorem witness_GrpPack2DecodesItsLanes :
    lastGroup.memoriesOk = true ∧ lastGroup.pos + 32 ≤ lastGroup.buflen ∧ 16 * lastGroup.g + 16 ≤ 256 :=
  witness_groups
theorem witness_GrpPack4DecodesItsLanes :
    lastGroup.memoriesOk = true ∧ lastGroup.pos + 32 ≤ lastGroup.buflen ∧ 16 * lastGroup.g + 16 ≤ 256 :=
  witness_groups
theorem witness_GrpRawCopiesSixteenBytes :
    lastGroup.memoriesOk = true ∧ lastGroup.pos + 32 ≤ lastGroup.buflen ∧ 16 * lastGroup.g + 16 ≤ 256 :=
  witness_groups

theorem witness_GroupReadsOnlyWhatItConsumes :
    ∀ w ∈ [0#2, 1#2, 2#2, 3#2], ∀ a, 7 ≤ a →
      a < (decodeGroup .msbFirst w (fun a => bytesAt 7 (List.replicate 24 0xFF) a) 7).2 →
      bytesAt 7 (List.replicate 24 0xFF ++ [0x11]) a = bytesAt 7 (List.replicate 24 0xFF) a := by
  decide +kernel

theorem witness_GroupLengthIsItsCodesAndEscapes :
    [0#2, 1#2, 2#2, 3#2].map (fun w => (decodeGroup .msbFirst w (fun _ => 0xFF) 0).2) = [0, 20, 24, 16] ∧
      [1#2, 2#2].map (fun w => (decodeGroup .msbFirst w (fun _ => 0x00) 0).2) = [4, 8] := by decide +kernel

theorem witness_GroupWithoutMarginIsRefused :
    decode (.selector 3#2) = .ok .grpRaw ∧ ({ lastGroup with pos := 2 } : State).buflen < 2 + 32 := by
  decide +kernel

/-- A core at the last lane of the last group. -/
def lastLane : State := { lastGroup with j := 15, ov := 32 }

theorem witness_LiteralCodeIsTheLaneValue :
    lastLane.memoriesOk = true ∧ 2#2 ≠ 3#2 ∧ 14#4 ≠ 15#4 ∧ 16 * lastLane.g + lastLane.j < 256 := by
  decide +kernel
theorem witness_EscapeCodeTakesTheNextLiteral :
    lastLane.memoriesOk = true ∧ lastLane.ov < lastLane.buflen ∧ 16 * lastLane.g + lastLane.j < 256 := by
  decide +kernel
theorem witness_BitCursorYieldsTheLaneCodes :
    ∀ b ∈ [CodeWidth.two, .four],
      lastGroup.bitsConsumed = 0 ∧
        ({ lastGroup with codeCursor := 25 } : State).codeCursor + 2 * b.bits ≤ lastGroup.buflen := by
  decide +kernel

/-- A core that takes the codes of the last group one by one, at either width. -/
def laneGroup (header : Byte) : State :=
  { inside .grDec (atPlane 256 (header :: List.replicate 32 0x1B)) with
    grain := .lane, cnt := 256, hdr := 0, pos := 1, g := 0 }

theorem witness_CodeStepsEndAsTheGroup :
    ∀ h ∈ [0x01#8, 0x02#8],
      let s := laneGroup h
      s.memoriesOk = true ∧ s.status.state = .busy ∧ s.phase = .grDec ∧ s.grain = .lane ∧
        isPacked s.selector = true ∧ s.selectorOffset < s.buflen ∧ s.pos + 32 ≤ s.buflen ∧
        16 * s.g + 16 ≤ 256 := by decide +kernel

theorem witness_PlaneSizesFollowTheCount :
    (1 ≤ 1 ∧ 1 ≤ 256) ∧ (1 ≤ 256 ∧ 256 ≤ 256) ∧ numGroups 256 = 16 ∧ headerSize 256 = 4 ∧ numGroups 1 = 1 := by
  decide

theorem witness_PlaneRunsItsGroupsInOrder :
    ∀ cnt ∈ [1, 256],
      let s := atPlane cnt (List.replicate 396 0)
      s.memoriesOk = true ∧ 1 ≤ s.cnt ∧ s.cnt ≤ 256 ∧
        s.pos + headerSize s.cnt + 24 * (numGroups s.cnt - 1) + 32 ≤ s.buflen := by decide +kernel
theorem witness_PlaneWithoutMarginTruncates :
    ∀ cnt ∈ [1, 256],
      let s := atPlane cnt (List.replicate 32 0)
      1 ≤ s.cnt ∧ s.cnt ≤ 256 ∧ s.buflen < s.pos + headerSize s.cnt + 32 := by decide +kernel
theorem witness_PlaneTestsTheMarginBeforeEveryGroup :
    ∀ c ∈ [(1, 32), (1, 33), (256, 35), (256, 36)],
      let s := atPlane c.1 (List.replicate c.2 0)
      1 ≤ s.cnt ∧ s.cnt ≤ 256 := by decide +kernel
theorem witness_PlaneEndsInBounds :
    ∀ cnt ∈ [1, 256],
      let s := atPlane cnt (List.replicate 36 0)
      s.memoriesOk = true ∧ 1 ≤ s.cnt ∧ s.cnt ≤ 256 := by decide +kernel

theorem witness_UnzigzagReadsTheCurrentValue : ({ State.reset with i := 255 } : State).i < 256 := by decide

/-- A core before the chain of the last plane of the largest record. -/
def lastChain (cnt : Nat) : State :=
  { inside .delta State.reset with
    vstride := 256, cnt := cnt, k := 255, plane := Memory.empty.setRun 0 [0x02, 0x03, 0x80]
    lastVertex := Memory.empty.setByte 255 0xFE }

theorem witness_DeltaIsThePrefixSum :
    ∀ cnt ∈ [0, 32],
      let s := lastChain cnt
      s.memoriesOk = true ∧ s.k < s.stride ∧ s.stride ≤ 256 ∧ s.cnt ≤ 256 ∧ s.cnt * s.stride ≤ 8192 := by
  decide +kernel
theorem witness_DeltaIgnoresPaddingLanes :
    (∀ a, a < (lastChain 2).cnt →
      (Memory.empty.setRun 0 [0x02, 0x03, 0x77]).byte a = (lastChain 2).plane.byte a) ∧
      ∃ t, exec .delta (lastChain 2) = .next t ∧ decide (t.i = 2) = true :=
  ⟨by decide +kernel, next_of_any (P := fun t => decide (t.i = 2)) (by decide +kernel)⟩
theorem witness_ValueStepsEndAsTheChain :
    ∀ k ∈ [0, 255],
      let s := { lastChain 32 with grain := .lane, k := k }
      s.memoriesOk = true ∧ s.status.state = .busy ∧ s.phase = .delta ∧ s.grain = .lane ∧ s.k < s.stride ∧
        s.stride ≤ 256 ∧ 1 ≤ s.cnt ∧ s.cnt ≤ 256 ∧ s.cnt * s.stride ≤ 8192 := by decide +kernel
theorem witness_TransposeWritesOneCell :
    let s := { lastChain 32 with i := 31 }
    s.memoriesOk = true ∧ s.i * s.stride + s.k < 8192 := by decide +kernel

theorem witness_CommitCopiesTheBlock :
    let s := { loaded 64 256 [] with cnt := 32, voff := 32 }
    s.cnt * s.stride ≤ 8192 ∧ s.voff + s.cnt ≤ s.count := by decide +kernel
theorem witness_BlockChecksItsCountFirst :
    (({ p2block with cnt := 0 } : State).cnt = 0 ∨ ({ p2block with cnt := 0 } : State).cnt > 256) ∧
      (({ p2block with cnt := 257 } : State).cnt = 0 ∨ ({ p2block with cnt := 257 } : State).cnt > 256) := by
  decide
theorem witness_BlockRunsItsPlanesThenCommits :
    let s := { p2block with buflen := 200, voff := 0 }
    s.memoriesOk = true ∧ strideOk s.stride = true ∧ 1 ≤ s.cnt ∧ s.cnt ≤ 256 ∧ s.cnt * s.stride ≤ 8192 ∧
      s.voff + s.cnt ≤ s.count ∧
      s.pos + s.stride * (headerSize s.cnt + 24 * numGroups s.cnt) + 32 ≤ s.buflen := by decide +kernel
theorem witness_FailedBlockCommitsNothing :
    let s := { p2block with buflen := 66 }
    s.status.state ≠ .error ∧ 1 ≤ s.cnt ∧ s.cnt ≤ 256 ∧
      ∃ t, exec .block s = .next t ∧ decide (t.status.state = .error) = true :=
  ⟨by decide, by decide, by decide,
    next_of_any (P := fun t => decide (t.status.state = .error)) (by decide +kernel)⟩

theorem witness_FrameTagIsComparedAndConsumed :
    (0 < (loaded 1 4 [0xA0]).buflen ∧ (loaded 1 4 [0xA0]).inByte 0 = 0xA0#8) ∧
      (0 < (loaded 1 4 [0xA1]).buflen ∧ (loaded 1 4 [0xA1]).inByte 0 ≠ 0xA0#8) := by decide +kernel
theorem witness_OnlyAnIllegalStrideIsAnArgumentError :
    (∀ S ∈ [0, 2, 5, 257, 260],
      let s := loaded 1 S p1buf
      s.startable = true ∧ (s.stride < 1 ∨ s.stride > 256 ∨ s.stride % 4 ≠ 0)) ∧
    (let s := loaded 1 256 p1buf
     s.startable = true ∧ 1 ≤ s.stride ∧ s.stride ≤ 256 ∧ s.stride % 4 = 0) ∧
    ∃ t, exec .decode (loaded 1 256 p1buf) = .next t ∧ decide (t.status.err = some .format) = true :=
  ⟨by decide +kernel, by decide +kernel,
    next_of_any (P := fun t => decide (t.status.err = some .format)) (by decide +kernel)⟩
theorem witness_ShortBufferIsAFormatError :
    ∀ c ∈ [(4, 4), (256, 256), (4, 0)],
      let s := loaded 1 c.1 (List.replicate c.2 0xA0)
      s.startable = true ∧ 1 ≤ s.stride ∧ s.stride ≤ 256 ∧ s.stride % 4 = 0 ∧ s.buflen < 1 + s.stride := by
  decide +kernel
theorem witness_WrongTagIsAFormatError :
    let s := loaded 1 4 [0x00, 1, 2, 3, 4]
    s.startable = true ∧ 1 ≤ s.stride ∧ s.stride ≤ 256 ∧ s.stride % 4 = 0 ∧ 1 + s.stride ≤ s.buflen ∧
      s.inByte 0 ≠ 0xA0#8 := by decide +kernel
theorem witness_NoVerticesDecodeToNothing :
    let s := loaded 0 4 [0xA0, 1, 2, 3, 4]
    s.startable = true ∧ s.memoriesOk = true ∧ s.frameOk = true ∧ s.count = 0 := by decide +kernel
theorem witness_BlockSizeOfEveryStride : strideOk 4 = true ∧ strideOk 40 = true ∧ strideOk 256 = true := by
  decide
theorem witness_TooShortForAVertexTruncates :
    let s := loaded 1 4 (0xA0 :: List.replicate 35 0)
    s.startable = true ∧ s.memoriesOk = true ∧ s.frameOk = true ∧ 1 ≤ s.count ∧
      s.buflen ≤ s.stride + 32 := by decide +kernel
theorem witness_DecodeAlwaysEnds :
    (loaded 3 4 p2buf).startable = true ∧ (loaded 3 4 p2buf).memoriesOk = true ∧
      (loaded 3 4 p2buf).phase = .rest := by decide +kernel
theorem witness_DecodeWithRoomSucceeds :
    let s := { loaded 1 4 [0xA0] with buflen := 1585, inLen := 1585 }
    s.startable = true ∧ s.memoriesOk = true ∧ s.frameOk = true ∧ mostConsumed s + 32 ≤ s.buflen := by
  decide +kernel
theorem witness_DoneDecodeWritesExactlyItsOutput :
    let s := loaded 1 4 p1buf
    s.startable = true ∧ s.memoriesOk = true ∧
      ∃ t, exec .decode s = .next t ∧ decide (t.status.state = .done) = true :=
  ⟨by decide +kernel, by decide +kernel,
    next_of_any (P := fun t => decide (t.status.state = .done)) (by decide +kernel)⟩
theorem witness_DecodeIsAFunctionOfItsInputs :
    let s := loaded 1 4 p1buf
    let s' := { s with
      pos := 9, tr := Memory.empty.setByte 0 0x77, outMem := Memory.empty.insert 3 0x12, status := ⟨.done, none⟩
      inMem := s.inMem.setByte 50 0x33 }
    s.startable = true ∧ s'.startable = true ∧ s.memoriesOk = true ∧ s'.memoriesOk = true ∧
      s'.vcount = s.vcount ∧ s'.vstride = s.vstride ∧ s'.buflen = s.buflen ∧
      (∀ a, a < s.buflen → s'.inByte a = s.inByte a) ∧
      (∃ t, exec .decode s = .next t ∧ decide (t.status.state = .done) = true) ∧
      ∃ t, exec .decode s' = .next t ∧ decide (t.status.state = .done) = true :=
  ⟨by decide +kernel, by decide +kernel, by decide +kernel, by decide +kernel, rfl, rfl, rfl,
    by decide +kernel, next_of_any (P := fun t => decide (t.status.state = .done)) (by decide +kernel),
    next_of_any (P := fun t => decide (t.status.state = .done)) (by decide +kernel)⟩

theorem witness_StartBeforeOperandsIsRefused :
    (State.reset.status.state ≠ .busy ∧ State.reset.vcountWritten = false) ∧
      ({ loaded 1 4 p1buf with vstrideWritten := false } : State).vstrideWritten = false ∧
      ({ loaded 1 4 p1buf with buflenWritten := false } : State).buflenWritten = false := by decide
theorem witness_StartOnBadSpacesIsRefused :
    (∃ s : State, s.status.state ≠ .busy ∧ s.vcountWritten = true ∧ s.vstrideWritten = true ∧
      s.buflenWritten = true ∧ s.overlap = true) ∧
    ∃ s : State, s.status.state ≠ .busy ∧ s.vcountWritten = true ∧ s.vstrideWritten = true ∧
      s.buflenWritten = true ∧ s.overlap = false ∧ s.buflen ≠ s.inLen :=
  ⟨⟨{ loaded 1 4 p1buf with overlap := true }, by decide⟩, ⟨{ loaded 1 4 p1buf with buflen := 36 }, by decide⟩⟩
theorem witness_StartWhileBusyIsIgnored : (inside .blk State.reset).status.state = .busy := by decide

theorem witness_EveryFailureIsTheOneEntry :
    ∃ t, exec .decode (loaded 1 5 p1buf) = .next t ∧
      decide ((loaded 1 5 p1buf).status.state ≠ .error ∧ t.status.state = .error) = true :=
  next_of_any (P := fun t => decide ((loaded 1 5 p1buf).status.state ≠ .error ∧ t.status.state = .error))
    (by decide +kernel)

/-- A resting core with one host transaction pending. -/
def pending (c : HostCmd) : State := { loaded 1 4 p1buf with cmds := [c] }

theorem witness_ResetLeavesTheCoreIdle :
    (pending .reset).phase = .rest ∧ (pending .reset).cmds = .reset :: [] := by decide
theorem witness_HostWritesSetTheOperands :
    ∀ c ∈ [HostCmd.writeVcount 7, .writeVstride 0xFFFFFFFF, .writeBuflen 0, .writeCtrl 0xFFFFFFFE],
      (pending c).phase = .rest ∧ (pending c).status.state ≠ .busy ∧ (pending c).cmds = c :: [] ∧
        (0xFFFFFFFE#32).getLsbD 0 = false := by decide
theorem witness_HostReadsHaveNoSideEffect :
    ∀ r ∈ [HostReg.ctrl, .status, .vcount, .vstride, .buflen],
      (pending (.readReg r)).phase = .rest ∧ (pending (.readReg r)).status.state ≠ .busy ∧
        (pending (.readReg r)).cmds = .readReg r :: [] := by decide
theorem witness_OutReadsReturnValueOrDraw :
    let s := { pending (.readOut 3) with outMem := Memory.empty.insert 3 0x12 }
    let s' := pending (.readOut 3)
    (s.phase = .rest ∧ s.status.state ≠ .busy ∧ s.cmds = [.readOut 3] ∧ s.outMem.find 3 = some 0x12) ∧
      s'.phase = .rest ∧ s'.status.state ≠ .busy ∧ s'.cmds = [.readOut 3] ∧ s'.outMem.find 3 = none := by
  decide
theorem witness_LoadedBufferReadsBack :
    (pending (.loadIn p1buf)).phase = .rest ∧ (pending (.loadIn p1buf)).status.state ≠ .busy ∧
      (pending (.loadIn p1buf)).cmds = [.loadIn p1buf] := by decide

theorem witness_StepRunsTheDecodedInstruction :
    (∃ s : State, s.phase = .rest ∧ s.cmds = [.writeCtrl 1#32] ∧ s.grain = .whole ∧
      decode (.ctrl 1#32) = .ok .decode) ∧
    (∃ s : State, s.phase = .vTag ∧ 0 < s.buflen ∧ decode (.tag (s.inByte 0)) = .ok .frameTag) ∧
    (∃ s : State, s.phase = .grDec ∧ s.hdr + s.g / 4 < s.buflen ∧
      ¬ (s.grain = .lane ∧ isPacked s.selector = true) ∧
      decode (.selector (selectorField (s.inByte (s.hdr + s.g / 4)) s.g)) = .ok .grpPack2) ∧
    (∃ s t : State, s.phase = .code .four ∧ loadCodeByte s = .ok t ∧
      decode (rawCode .four (t.frontCode .four)) = .ok (.c4Lit 1#4)) ∧
    (inside .block State.reset).phase = .block ∧ (inside .plane State.reset).phase = .plane ∧
    ((inside .delta State.reset).phase = .delta ∧ (inside .delta State.reset).grain ≠ .lane) ∧
    (inside .unzigzag State.reset).phase = .unzigzag ∧ (inside .transpose State.reset).phase = .transpose ∧
    (inside .commit State.reset).phase = .commit :=
  ⟨⟨pending (.writeCtrl 1#32), by decide⟩, ⟨inside .vTag (loaded 1 4 p1buf), by decide +kernel⟩,
    ⟨{ laneGroup 0x01 with grain := .group }, by decide +kernel⟩,
    ⟨{ laneGroup 0x02 with phase := .code .four, codeCursor := 1 },
      { laneGroup 0x02 with phase := .code .four, codeCursor := 2, inputByte := 0x1B }, by decide +kernel⟩,
    rfl, rfl, ⟨rfl, by decide⟩, rfl, rfl, rfl⟩

theorem witness_LoopsGoOnAfterTheirUnits :
    State.reset.phase = .rest ∧ (∃ t : State, t.phase = .code .two ∧ t.j < 15) ∧
      (∃ t : State, t.phase = .code .four ∧ t.j = 15) ∧
      (∃ t : State, t.phase = .delta ∧ t.k + 1 = t.stride) ∧
      (∃ t : State, t.phase = .delta ∧ t.k + 1 < t.stride) ∧
      (∃ t : State, t.phase = .transpose ∧ t.i + 1 < t.cnt) ∧
      (∃ t : State, t.phase = .transpose ∧ t.i + 1 = t.cnt) ∧
      ∃ t : State, t.phase = .commit ∧ t.memoriesOk = true ∧ t.stride ≤ 256 :=
  ⟨rfl, ⟨{ inside (.code .two) State.reset with j := 14 }, by decide⟩,
    ⟨{ inside (.code .four) State.reset with j := 15 }, by decide⟩,
    ⟨{ inside .delta (loaded 1 4 []) with k := 3 }, by decide⟩,
    ⟨{ inside .delta (loaded 1 4 []) with k := 2 }, by decide⟩,
    ⟨{ inside .transpose State.reset with cnt := 2 }, by decide⟩,
    ⟨{ inside .transpose State.reset with cnt := 1 }, by decide⟩,
    ⟨inside .commit (loaded 1 256 []), by decide +kernel⟩⟩

theorem witness_EveryStepKeepsTheInvariant :
    let s := pending (.writeCtrl 1#32)
    s.Inv = true ∧ ∃ t, step s = .next t ∧ decide (t.status.state = .done) = true :=
  ⟨by decide +kernel, next_of_any (P := fun t => decide (t.status.state = .done)) (by decide +kernel)⟩
theorem witness_NoInstructionWritesItsInput :
    ∃ t, exec .decode (loaded 1 4 p1buf) = .next t ∧ decide (t.status.state = .done) = true :=
  next_of_any (P := fun t => decide (t.status.state = .done)) (by decide +kernel)
theorem witness_OnlyCommitWritesOut :
    Instr.plane ≠ .commit ∧ Instr.plane ≠ .block ∧ Instr.plane ≠ .decode ∧
      ∃ t, exec .plane (atPlane 16 (List.replicate 33 0)) = .next t ∧ decide (t.pos = 1) = true :=
  ⟨by decide, by decide, by decide, next_of_any (P := fun t => decide (t.pos = 1)) (by decide +kernel)⟩
theorem witness_SteppedDecodeEndsAsTheAtomicOne :
    ∀ gr ∈ [Grain.block, .plane, .group, .lane],
      let s := { loaded 3 4 p2buf with grain := gr, cmds := [.writeCtrl 1#32] }
      s.startable = true ∧ s.Inv = true ∧ s.phase = .rest ∧ s.grain ≠ .whole ∧
        s.cmds = [.writeCtrl 1#32] ∧ (1#32).getLsbD 0 = true := by decide +kernel

end Sys2Proof.Tests
end

section
/-! SUPPORT. What an instruction leaves alone: its inputs (R21 to R23, R42, R50), and OUT but for COMMIT (R51, R155). -/

namespace Sys2Proof.Machine

/-- `t` has the operands, IN and the host's side of the interface that `s` has (R42). -/
structure KeepsInputs (s t : State) : Prop where
  inMem : t.inMem = s.inMem
  inLen : t.inLen = s.inLen
  overlap : t.overlap = s.overlap
  vcount : t.vcount = s.vcount
  vstride : t.vstride = s.vstride
  buflen : t.buflen = s.buflen
  vcountWritten : t.vcountWritten = s.vcountWritten
  vstrideWritten : t.vstrideWritten = s.vstrideWritten
  buflenWritten : t.buflenWritten = s.buflenWritten
  cmds : t.cmds = s.cmds
  rdata : t.rdata = s.rdata
  draws : t.draws = s.draws
  grain : t.grain = s.grain

theorem DecodeMoves.keepsInputs {s t : State} (h : DecodeMoves s t) : KeepsInputs s t := by
  obtain ⟨⟨_, _, _, _, _, _, _, _, _, _, _, _, _, _, _, _, _, rfl⟩, -⟩ := h
  constructor <;> rfl

theorem KeepsInputs.of_beginBusy {s t : State} (h : KeepsInputs (beginBusy s) t) : KeepsInputs s t :=
  { h with }

theorem KeepsInputs.takeError {s t : State} (h : KeepsInputs s t) (e : ErrorKind) :
    KeepsInputs s (takeError e t) :=
  { h with }

theorem KeepsInputs.finishDone {s t : State} (h : KeepsInputs s t) : KeepsInputs s (finishDone t) :=
  { h with }

/-- The working state is all an instruction moves, and neither a failure nor the end of a decode writes an input. -/
theorem exec_keepsInputs {i : Instr} {s t : State} (h : exec i s = .next t) : KeepsInputs s t := by
  have hbusy : ∀ {u}, DecodeMoves (beginBusy s) u → KeepsInputs s u := fun hm => hm.keepsInputs.of_beginBusy
  rcases exec_form h with hm | ⟨e, u, hm, rfl⟩ | ⟨u, hm, rfl⟩
  · exact hm.keepsInputs
  · exact (hm.elim DecodeMoves.keepsInputs hbusy).takeError e
  · exact (hbusy hm).finishDone

/-- Settles O58, by the three forms of the state after an instruction. -/
theorem noInstructionWritesItsInput : Obligations.NoInstructionWritesItsInput := by
  intro i s t h
  have hk := exec_keepsInputs h
  exact ⟨hk.inMem, hk.inLen, hk.overlap, hk.vcount, hk.vstride, hk.buflen, hk.vcountWritten, hk.vstrideWritten,
    hk.buflenWritten, hk.cmds, hk.rdata, hk.draws, hk.grain⟩

/-! ### OUT -/

/-- `t` has the OUT that `s` has (R51). -/
def KeepsOut (s t : State) : Prop := t.outMem = s.outMem

theorem BlockMoves.keepsOut {s t : State} (h : BlockMoves s t) : KeepsOut s t := by
  obtain ⟨⟨_, _, _, _, _, _, _, _, _, _, _, _, rfl⟩, -⟩ := h
  rfl

theorem PlaneMoves.keepsOut {s t : State} (h : PlaneMoves s t) : KeepsOut s t :=
  h.blockMoves.keepsOut

theorem tagUnit_keepsOut (s : State) : (tagUnit s).Holds (KeepsOut s) := by
  by_cases hb : 0 < s.buflen
  · rw [tagUnit_eq s hb]
    split_ifs
    · rfl
    · rfl
  · rw [tagUnit, if_neg hb]
    trivial

/-- A unit that keeps OUT, kept it as an instruction or failed and left no value in it (R199). -/
theorem Res.Holds.outcome_out {x : Res} {s t : State} (hx : x.Holds (KeepsOut s)) (h : x.outcome = .next t) :
    t.outMem = s.outMem ∨ (t.status.state = .error ∧ t.outMem = .empty) := by
  rcases Res.outcome_eq_next.1 h with hok | ⟨e, u, -, rfl⟩
  · exact .inl (hx.of_ok hok)
  · exact .inr ⟨rfl, rfl⟩

/-- Settles O59: the units of planes and codes move the working state of a plane or a block, which OUT is no part
of. -/
theorem onlyCommitWritesOut : Obligations.OnlyCommitWritesOut := by
  intro i s t hcommit hblock hdecode h
  have hplane : ∀ {x : Res}, x.Holds (PlaneMoves s) → x.outcome = .next t →
      t.outMem = s.outMem ∨ (t.status.state = .error ∧ t.outMem = .empty) :=
    fun hx => (hx.mono fun _ => PlaneMoves.keepsOut).outcome_out
  cases i with
  | frameTag => exact (tagUnit_keepsOut s).outcome_out h
  | grpZero | grpPack2 | grpPack4 | grpRaw => exact hplane (groupUnit_moves _ s) h
  | c2Lit v | c4Lit v => exact hplane (writeLane_moves _ s) h
  | c2Esc | c4Esc => exact hplane (escapeLane_moves s) h
  | plane => exact hplane (planeUnit_moves s) h
  | unzigzag =>
    simp only [exec, execUnzigzag] at h
    split_ifs at h
    cases h
    exact .inl rfl
  | delta => exact ((deltaUnit_moves s).mono fun _ => BlockMoves.keepsOut).outcome_out h
  | transpose =>
    simp only [exec, execTranspose] at h
    split_ifs at h
    cases h
    exact .inl rfl
  | commit => exact absurd rfl hcommit
  | block => exact absurd rfl hblock
  | decode => exact absurd rfl hdecode

end Sys2Proof.Machine
end

section
/-! SUPPORT. The host's side of a step (R21 to R25, R204, R220): at rest a step serves the oldest transaction. -/

namespace Sys2Proof.Machine

/-- At rest the oldest transaction stands next (R231, REST). -/
theorem fetch_command {s : State} {c : HostCmd} {rest : List HostCmd} (hp : s.phase = .rest)
    (hc : s.cmds = c :: rest) : fetch s = fetchCommand c { s with cmds := rest } := by
  rw [fetch_rest hp, fetchRest, hc]

/-- With no transaction pending the core waits (R231, REST). -/
theorem step_waits {s : State} (hp : s.phase = .rest) (hc : s.cmds = []) : step s = .next s :=
  step_of_moved (by rw [fetch_rest hp, fetchRest, hc])

/-- A transaction that writes no CTRL word is served by the host's port. -/
theorem fetchCommand_access {c : HostCmd} (hw : ∀ w, c ≠ .writeCtrl w) (s : State) :
    fetchCommand c s = .moved (hostAccess c s) := by
  cases c with
  | writeCtrl w => exact absurd rfl (hw w)
  | _ => rfl

theorem step_hostAccess {s : State} {c : HostCmd} {rest : List HostCmd} (hp : s.phase = .rest)
    (hc : s.cmds = c :: rest) (hw : ∀ w, c ≠ .writeCtrl w) :
    step s = hostAccess c { s with cmds := rest } :=
  step_of_moved ((fetch_command hp hc).trans (fetchCommand_access hw _))

/-- A CTRL word with START clear does nothing, whatever its other bits (R24). -/
theorem fetchCommand_startClear {w : Word32} (hw : w.getLsbD 0 = false) (s : State) :
    fetchCommand (.writeCtrl w) s = .moved (.next s) := by
  simp only [fetchCommand, Sys2Proof.decode, hw]
  rfl

theorem step_ctrlWithoutStart {s : State} {w : Word32} {rest : List HostCmd} (hp : s.phase = .rest)
    (hc : s.cmds = .writeCtrl w :: rest) (hw : w.getLsbD 0 = false) :
    step s = .next { s with cmds := rest } :=
  step_of_moved ((fetch_command hp hc).trans (fetchCommand_startClear hw _))

/-- A CTRL word with START set is DECODE, whole or in steps (R24, R91; log 1). -/
theorem fetchCommand_start {w : Word32} (hw : w.getLsbD 0 = true) (s : State) :
    fetchCommand (.writeCtrl w) s = if s.grain = .whole then .run .decode s else .moved (beginSteps s) := by
  simp only [fetchCommand, Sys2Proof.decode, hw]
  rfl

theorem whenNotBusy_next {s : State} (h : s.status.state ≠ .busy) (t : State) :
    whenNotBusy s t = .next t := if_neg h

end Sys2Proof.Machine
end

section
/-! SUPPORT. The invariant along one step: what is kept inside a decode, at each position, and by each transaction of
the host. -/

namespace Sys2Proof.Machine

/-- `P` holds of the state a step leads to; a stop is no state. -/
def OutHolds (P : State → Prop) : Out → Prop
  | .next s => P s
  | .fault _ => True
  | .refused _ => True

theorem OutHolds.of_next {P : State → Prop} {o : Out} {t : State} (h : OutHolds P o) (ho : o = .next t) :
    P t := by
  rw [ho] at h
  exact h

/-- The invariant of a state inside a decode, its position apart: canonical memories and STATUS busy with no error. -/
def InDecode (s : State) : Prop := s.memoriesOk = true ∧ s.status = ⟨.busy, none⟩

theorem inDecode_of_inv {s : State} (h : s.Inv = true) (hp : s.phase ≠ .rest) : InDecode s := by
  obtain ⟨hm, hl, hb, -⟩ := (inv_iff s).1 h
  have hs : s.status.state = .busy := hb.2 hp
  obtain ⟨⟨st, err⟩, hst⟩ : ∃ x, s.status = x := ⟨_, rfl⟩
  rw [hst] at hl hs
  subst hs
  cases err with
  | none => exact ⟨hm, hst⟩
  | some e => simp [Status.legal] at hl

theorem InDecode.inv {s : State} (h : InDecode s) (hp : s.phase ≠ .rest) : s.Inv = true := by
  obtain ⟨hm, hs⟩ := h
  rw [inv_iff, hs]
  exact ⟨hm, rfl, by simp [hp], by simp⟩

theorem InDecode.moves {s t : State} (h : InDecode s) (hm : DecodeMoves s t) : InDecode t :=
  ⟨hm.2 h.1, hm.status.trans h.2⟩

theorem InDecode.goto_inv {s : State} (h : InDecode s) {ph : Phase} (hp : ph ≠ .rest) :
    (s.goto ph).Inv = true :=
  InDecode.inv (s := s.goto ph) h hp

theorem InDecode.takeError_inv {s : State} (h : InDecode s) (e : ErrorKind) : (takeError e s).Inv = true :=
  Machine.takeError_inv h.1 e

theorem InDecode.finishDone_inv {s : State} (h : InDecode s) : (finishDone s).Inv = true :=
  Machine.finishDone_inv h.1

/-! ### After a unit -/

theorem planeStart_ne_rest (gr : Grain) : planeStart gr ≠ .rest := by cases gr <;> decide

theorem blockStart_ne_rest (gr : Grain) : blockStart gr ≠ .rest := by cases gr <;> decide

theorem InDecode.afterGroup_inv {s : State} (h : InDecode s) : (afterGroup s).Inv = true := by
  unfold afterGroup
  split_ifs
  · exact h.goto_inv (by decide)
  · exact h.goto_inv (by decide)

theorem InDecode.afterChain_inv {s : State} (h : InDecode s) : (afterChain s).Inv = true := by
  unfold afterChain
  split_ifs
  · exact InDecode.inv h (planeStart_ne_rest _)
  · exact InDecode.inv h (by simp)

theorem InDecode.afterLane_inv {s : State} (h : InDecode s) (hp : s.phase ≠ .rest) :
    (afterLane s).Inv = true := by
  unfold afterLane
  split_ifs
  · exact InDecode.inv h hp
  · exact InDecode.afterGroup_inv h

theorem InDecode.afterVertex_inv {s : State} (h : InDecode s) : (afterVertex s).Inv = true := by
  unfold afterVertex
  split_ifs
  · exact InDecode.goto_inv (s := nextVertex s) h (by decide)
  · exact InDecode.afterChain_inv (s := nextVertex s) h

/-- A unit and a move after it, where the move restores the invariant. -/
theorem InDecode.thenMove_inv {x : Res} (hx : x.Holds InDecode) {f : State → State}
    (hf : ∀ t, InDecode t → (f t).Inv = true) :
    OutHolds (·.Inv = true) (x.bind fun t => .ok (f t)).outcome := by
  cases x with
  | ok t => exact hf t hx
  | raised e t => exact InDecode.takeError_inv hx e
  | fault _ => trivial
  | refused _ => trivial

/-- A unit's loop goes on inside the decode, or ends it (R231). -/
theorem InDecode.advance_inv {s : State} (h : InDecode s) (hp : s.phase ≠ .rest) :
    OutHolds (·.Inv = true) (advance s) := by
  unfold advance
  cases hph : s.phase with
  | vTag => exact h.goto_inv (by decide)
  | block => exact InDecode.goto_inv (s := advanceVoff s) h (by decide)
  | plane => exact h.goto_inv (by decide)
  | grDec => exact InDecode.afterGroup_inv h
  | code b => exact h.afterLane_inv hp
  | delta => exact h.afterChain_inv
  | unzigzag => exact InDecode.goto_inv (s := addDelta s) h (by decide)
  | transpose => exact h.afterVertex_inv
  | commit =>
    exact InDecode.thenMove_inv ((carryUnit_moves s).mono fun _ => h.moves) fun t ht =>
      InDecode.goto_inv (s := advanceVoff t) ht (by decide)
  | rest => exact absurd hph hp
  | _ => exact h.inv hp

/-- An instruction run inside a decode, and its loop after it, keep the invariant: the working state moved, or the
instruction ended the decode. -/
theorem InDecode.resume_exec_inv {s : State} (h : InDecode s) (hp : s.phase ≠ .rest) (i : Instr) :
    OutHolds (·.Inv = true) (resume (exec i s)) := by
  have hb : InDecode (beginBusy s) := ⟨h.1, rfl⟩
  cases he : exec i s with
  | next t =>
    rcases exec_form he with hm | ⟨e, u, hm, rfl⟩ | ⟨u, hm, rfl⟩
    · have hpt : t.phase ≠ .rest := by rw [hm.phase]; exact hp
      rw [resume_next hpt]
      exact (h.moves hm).advance_inv hpt
    · rw [resume_rest rfl]
      exact (hm.elim h.moves hb.moves).takeError_inv e
    · rw [resume_rest rfl]
      exact (hb.moves hm).finishDone_inv
  | fault _ => trivial
  | refused _ => trivial

/-! ### What stands next inside a decode -/

/-- What a step makes of what it fetched. -/
def Fetched.outcome : Fetched → Out
  | .run i s => resume (exec i s)
  | .moved o => o

theorem step_eq_outcome (s : State) : step s = (fetch s).outcome := by
  unfold step
  cases fetch s <;> rfl

theorem InDecode.fetchUnit_inv {s : State} (h : InDecode s) (hp : s.phase ≠ .rest) (r : Raw) :
    OutHolds (·.Inv = true) (fetchUnit r s).outcome := by
  unfold fetchUnit
  split
  · exact h.resume_exec_inv hp _
  · exact h.takeError_inv .format

theorem InDecode.fetchGroup_inv {s : State} (h : InDecode s) (hp : s.phase ≠ .rest) :
    OutHolds (·.Inv = true) (fetchGroup s).outcome := by
  unfold fetchGroup
  split_ifs
  · exact InDecode.inv (s := openCodes (selectorWidth s.selector) s) h (by simp)
  · exact h.fetchUnit_inv hp _
  · trivial

theorem InDecode.loadCodeByte_holds {s : State} (h : InDecode s) (hp : s.phase ≠ .rest) :
    (loadCodeByte s).Holds fun t => InDecode t ∧ t.phase ≠ .rest := by
  rcases loadCodeByte_cases s with ⟨-, -, hl⟩ | ⟨-, hl⟩ | ⟨-, hl⟩ <;> rw [hl]
  · exact ⟨h, hp⟩
  · exact ⟨h, hp⟩
  · trivial

theorem InDecode.fetchCode_inv {s : State} (h : InDecode s) (hp : s.phase ≠ .rest) (b : CodeWidth) :
    OutHolds (·.Inv = true) (fetchCode b s).outcome := by
  have hl := h.loadCodeByte_holds hp
  unfold fetchCode
  cases hs : loadCodeByte s with
  | ok t =>
    obtain ⟨ht, htp⟩ := hl.of_ok hs
    exact InDecode.fetchUnit_inv (s := dropCode b t) ht htp _
  | raised e t => exact (hl.of_raised hs).1.takeError_inv e
  | fault _ => trivial
  | refused _ => trivial

theorem InDecode.fetchChain_inv {s : State} (h : InDecode s) (hp : s.phase ≠ .rest) :
    OutHolds (·.Inv = true) (fetchChain s).outcome := by
  unfold fetchChain
  split_ifs
  · exact InDecode.goto_inv (s := openChain s) h (by decide)
  · exact InDecode.afterChain_inv (s := openChain s) h
  · trivial
  · exact h.fetchUnit_inv hp _

theorem InDecode.blkMove_inv {s : State} (h : InDecode s) : (blkMove s).Inv = true := by
  unfold blkMove
  split_ifs
  · exact InDecode.inv h (blockStart_ne_rest _)
  · exact h.finishDone_inv

/-- Whatever the position inside a decode, what stands next keeps the invariant. -/
theorem InDecode.fetch_inv {s : State} (h : InDecode s) (hp : s.phase ≠ .rest) :
    OutHolds (·.Inv = true) (fetch s).outcome := by
  cases hph : s.phase with
  | rest => exact absurd hph hp
  | vStride =>
    rw [fetch_vStride hph]
    split_ifs
    · exact h.goto_inv (by decide)
    · exact h.takeError_inv .argument
  | vLen =>
    rw [fetch_vLen hph]
    split_ifs
    · exact h.goto_inv (by decide)
    · exact h.takeError_inv .format
  | vTag =>
    rw [fetch_vTag hph]
    split_ifs
    · exact h.fetchUnit_inv hp _
    · trivial
  | seed =>
    rw [fetch_seed hph]
    exact InDecode.thenMove_inv ((seedUnit_moves s).mono fun _ => h.moves) fun t ht =>
      ht.goto_inv (by decide)
  | blk => rw [fetch_blk hph]; exact h.blkMove_inv
  | block => rw [fetch_block hph]; exact h.resume_exec_inv hp _
  | plane => rw [fetch_plane hph]; exact h.resume_exec_inv hp _
  | plHdr => rw [fetch_plHdr hph]; exact InDecode.goto_inv (s := openPlane s) h (by decide)
  | grChk =>
    rw [fetch_grChk hph]
    split_ifs
    · exact h.goto_inv (by decide)
    · exact h.takeError_inv .truncation
  | grDec => rw [fetch_grDec hph]; exact h.fetchGroup_inv hp
  | code b => rw [fetch_code hph]; exact h.fetchCode_inv hp b
  | delta => rw [fetch_delta hph]; exact h.fetchChain_inv hp
  | unzigzag => rw [fetch_unzigzag hph]; exact h.resume_exec_inv hp _
  | transpose => rw [fetch_transpose hph]; exact h.resume_exec_inv hp _
  | commit => rw [fetch_commit hph]; exact h.resume_exec_inv hp _

/-! ### At rest -/

theorem beginBusy_inDecode {s : State} (h : s.Inv = true) : InDecode (beginBusy s) :=
  ⟨((inv_iff s).1 h).1, rfl⟩

/-- DECODE from a resting state ends DONE or in a failure (R170, R204). -/
theorem resume_decode_inv {s : State} (h : s.Inv = true) (hp : s.phase = .rest) :
    OutHolds (·.Inv = true) (resume (exec .decode s)) := by
  show OutHolds _ (resume (decodeUnit s).outcome)
  unfold decodeUnit
  split_ifs
  · rw [Res.outcome_ok, resume_rest hp]
    exact h
  · split
    · trivial
    · rcases decodeBody_moves (beginBusy s) with ⟨u, hu, hm⟩ | ⟨e, u, hu, hm⟩ <;> rw [hu]
      · exact ((beginBusy_inDecode h).moves hm).finishDone_inv
      · exact ((beginBusy_inDecode h).moves hm).takeError_inv e

theorem beginSteps_inv {s : State} (h : s.Inv = true) : OutHolds (·.Inv = true) (beginSteps s) := by
  unfold beginSteps
  split_ifs
  · exact h
  · split
    · trivial
    · exact (beginBusy_inDecode h).goto_inv (by decide)

theorem whenNotBusy_holds {P : State → Prop} {s t : State} (ht : P t) : OutHolds P (whenNotBusy s t) := by
  unfold whenNotBusy
  split_ifs
  · trivial
  · exact ht

theorem readOutByte_inv {s : State} (h : s.Inv = true) (a : Nat) : (readOutByte a s).Inv = true := by
  unfold readOutByte
  split <;> exact h

theorem hostReset_inv {s : State} (h : s.Inv = true) : (hostReset s).Inv = true := by
  have hin : s.inMem.wf = true := ((memoriesOk_iff s).1 ((inv_iff s).1 h).1).1
  rw [inv_iff, memoriesOk_iff]
  exact ⟨⟨hin, rfl, ⟨rfl, rfl⟩, ⟨rfl, rfl⟩, rfl, rfl⟩, rfl, by simp [hostReset, State.reset], fun _ => rfl⟩

/-- Every host transaction keeps the invariant (R204 to R206, R220). -/
theorem hostAccess_inv {s : State} (h : s.Inv = true) (c : HostCmd) :
    OutHolds (·.Inv = true) (hostAccess c s) := by
  obtain ⟨hm, hl, hb, he⟩ := (inv_iff s).1 h
  obtain ⟨hin, hout, harr⟩ := (memoriesOk_iff s).1 hm
  cases c with
  | writeCtrl w => exact h
  | readReg r => cases r with
    | ctrl | status => exact h
    | vcount | vstride | buflen => exact whenNotBusy_holds h
  | readOut a => exact whenNotBusy_holds (readOutByte_inv h a)
  | loadIn bytes =>
    refine whenNotBusy_holds ((inv_iff _).2 ⟨(memoriesOk_iff _).2 ⟨?_, hout, harr⟩, hl, hb, he⟩)
    exact Memory.wf_setRun Memory.wf_empty 0 bytes
  | provideOut b =>
    exact whenNotBusy_holds ((inv_iff _).2 ⟨(memoriesOk_iff _).2 ⟨hin, rfl, harr⟩, hl, hb, fun _ => rfl⟩)
  | reset => exact hostReset_inv h
  | writeVcount n | writeVstride n | writeBuflen n => exact whenNotBusy_holds h

theorem fetchCommand_inv {s : State} (h : s.Inv = true) (hp : s.phase = .rest) (c : HostCmd) :
    OutHolds (·.Inv = true) (fetchCommand c s).outcome := by
  by_cases hc : ∃ w, c = .writeCtrl w
  · obtain ⟨w, rfl⟩ := hc
    cases hw : w.getLsbD 0 with
    | false => rw [fetchCommand_startClear hw]; exact h
    | true =>
      rw [fetchCommand_start hw]
      split_ifs
      · exact resume_decode_inv h hp
      · exact beginSteps_inv h
  · rw [fetchCommand_access fun w hw => hc ⟨w, hw⟩]
    exact hostAccess_inv h c

theorem fetchRest_inv {s : State} (h : s.Inv = true) (hp : s.phase = .rest) :
    OutHolds (·.Inv = true) (fetchRest s).outcome := by
  unfold fetchRest
  cases s.cmds with
  | nil => exact h
  | cons c rest => exact fetchCommand_inv (s := { s with cmds := rest }) h hp c

/-- What stands next keeps the invariant, at rest and inside a decode. -/
theorem step_inv {s : State} (h : s.Inv = true) : OutHolds (·.Inv = true) (step s) := by
  rw [step_eq_outcome]
  by_cases hp : s.phase = .rest
  · rw [fetch_rest hp]
    exact fetchRest_inv h hp
  · exact (inDecode_of_inv h hp).fetch_inv hp

/-- Settles O57: at rest every host transaction keeps the invariant, DECODE included, and inside a decode every unit
and every move does. -/
theorem everyStepKeepsTheInvariant : Obligations.EveryStepKeepsTheInvariant :=
  fun _ _ h hs => (step_inv h).of_next hs

/-- Settles O56: after reset nothing is listed and STATUS is IDLE, at rest. -/
theorem invariantHoldsAtReset : Obligations.InvariantHoldsAtReset :=
  (inv_iff State.reset).2 ⟨rfl, rfl, by decide, by decide⟩

end Sys2Proof.Machine
end

section
/-! SUPPORT. Encoding and decoding of the instructions at their positions (R75, R81, R89, R91). -/

namespace Sys2Proof

/-- An instruction that can stand in the stream is decoded from its own bits (R75, R81, R105). -/
theorem decode_encode {i : Instr} (h : i.wellFormed = true) : decode (encode i) = .ok i := by
  cases i with
  | c2Lit v => exact if_neg (by simpa [Instr.wellFormed] using h)
  | c4Lit v => exact if_neg (by simpa [Instr.wellFormed] using h)
  | _ => rfl

/-- What bits decode to is well formed and is encoded by these bits; of a CTRL word only START is kept (R24). -/
theorem encode_of_decode {r : Raw} {i : Instr} (h : decode r = .ok i) :
    i.wellFormed = true ∧
      (encode i = r ∨ ∃ w : Word32, r = .ctrl w ∧ w.getLsbD 0 = true ∧ i = .decode) := by
  cases r with
  | ctrl w =>
    simp only [decode] at h
    split_ifs at h with hw
    cases h
    exact ⟨rfl, .inr ⟨w, rfl, hw, rfl⟩⟩
  | tag b =>
    simp only [decode] at h
    split_ifs at h with hb
    cases h
    exact ⟨rfl, .inl (congrArg Raw.tag hb.symm)⟩
  | selector w =>
    rcases Machine.selector_cases w with rfl | rfl | rfl | rfl <;> cases h <;> exact ⟨rfl, .inl rfl⟩
  | code2 c =>
    simp only [decode] at h
    split_ifs at h with hc <;> cases h
    · exact ⟨rfl, .inl (congrArg Raw.code2 hc.symm)⟩
    · exact ⟨by simpa [Instr.wellFormed] using hc, .inl rfl⟩
  | code4 c =>
    simp only [decode] at h
    split_ifs at h with hc <;> cases h
    · exact ⟨rfl, .inl (congrArg Raw.code4 hc.symm)⟩
    · exact ⟨by simpa [Instr.wellFormed] using hc, .inl rfl⟩
  | planePosition | unzigzagPosition | deltaPosition | transposePosition | commitPosition | blockPosition =>
    cases h
    exact ⟨rfl, .inl rfl⟩

/-- Settles O2: the two directions, each by the kind of unit. -/
theorem encodeAndDecodeAgree : Obligations.EncodeAndDecodeAgree :=
  ⟨fun _ => decode_encode, fun _ _ => encode_of_decode⟩

end Sys2Proof
end

section
/-! SUPPORT. The bit cursor of R110 against the index formula of R80. -/

namespace Sys2Proof.Machine

/-- In `u` the code byte of code `j` is loaded, and code `j` is at its front; the codes are those of the bytes from the
code cursor of `s` on (R110). -/
def CodeLoaded (b : CodeWidth) (s : State) (j : Nat) (u : State) : Prop :=
  u.inMem = s.inMem ∧ u.buflen = s.buflen ∧ u.codeCursor = s.codeCursor + j / (8 / b.bits) + 1 ∧
    u.bitsConsumed = b.bits * (j % (8 / b.bits)) ∧
    u.inputByte = s.inByte (s.codeCursor + j / (8 / b.bits)) <<< (b.bits * (j % (8 / b.bits)))

/-- The bit cursor of `t` stands before code `j`: in the middle of a loaded code byte, or before a code byte that is not
loaded yet (R110). -/
def CursorAt (b : CodeWidth) (s : State) (j : Nat) (t : State) : Prop :=
  (j % (8 / b.bits) ≠ 0 ∧ CodeLoaded b s j t) ∨
  (j % (8 / b.bits) = 0 ∧ (t.bitsConsumed = 0 ∨ t.bitsConsumed = 8) ∧ t.inMem = s.inMem ∧
    t.buflen = s.buflen ∧ t.codeCursor = s.codeCursor + j / (8 / b.bits))

theorem CursorAt.start {b : CodeWidth} {s : State} (h : s.bitsConsumed = 0) : CursorAt b s 0 s :=
  .inr ⟨Nat.zero_mod _, .inl h, rfl, rfl, by simp⟩

/-- Before a code whose byte lies in the buffer, the load succeeds. -/
theorem CursorAt.load {b : CodeWidth} {s t : State} {j : Nat} (h : CursorAt b s j t)
    (hlt : s.codeCursor + j / (8 / b.bits) < s.buflen) : ∃ u, loadCodeByte t = .ok u ∧ CodeLoaded b s j u := by
  rcases h with ⟨hj, hu⟩ | ⟨hj, hbits, hmem, hlen, hcur⟩
  · refine ⟨t, if_neg ?_, hu⟩
    obtain ⟨-, -, -, hbits, -⟩ := hu
    rw [hbits]
    cases b <;> simp only [CodeWidth.bits] at hj ⊢ <;> omega
  · rw [loadCodeByte, if_pos hbits, if_pos (by omega)]
    refine ⟨_, rfl, hmem, hlen, congrArg (· + 1) hcur, ?_, ?_⟩
    · rw [hj, Nat.mul_zero]
    · rw [hj, Nat.mul_zero, BitVec.shiftLeft_zero, State.inByte, hmem, hcur]
      rfl

/-- The front of the bit cursor is the code the index formula gives (R80, R110). -/
theorem CodeLoaded.frontCode {b : CodeWidth} {s u : State} {j : Nat} (h : CodeLoaded b s j u) :
    u.frontCode b = laneCode .msbFirst b.bits (s.inByte (s.codeCursor + j / (8 / b.bits))) j := by
  obtain ⟨-, -, -, -, hbyte⟩ := h
  rw [laneCode_mod _ _ _ (Nat.mod_mod j (8 / b.bits)).symm]
  show u.inputByte.toNat >>> (8 - b.bits) = _
  rw [hbyte]
  cases b with
  | two => exact (front_eq_laneCode _).1 _ (Nat.mod_lt _ (by decide))
  | four => exact (front_eq_laneCode _).2 _ (Nat.mod_lt _ (by decide))

/-- The field after that of code `j` is the first of the next code byte or the next of the same one (R80). -/
theorem nextField (b : CodeWidth) (j : Nat) :
    ((j + 1) % (8 / b.bits) = 0 ∧ (j + 1) / (8 / b.bits) = j / (8 / b.bits) + 1 ∧
      b.bits * (j % (8 / b.bits)) + b.bits = 8) ∨
    ((j + 1) % (8 / b.bits) ≠ 0 ∧ (j + 1) / (8 / b.bits) = j / (8 / b.bits) ∧
      b.bits * (j % (8 / b.bits)) + b.bits = b.bits * ((j + 1) % (8 / b.bits))) := by
  cases b with
  | two => simp only [CodeWidth.bits]; omega
  | four => simp only [CodeWidth.bits]; omega

/-- Handing out code `j` leaves the cursor before code `j + 1`. -/
theorem CodeLoaded.drop {b : CodeWidth} {s u : State} {j : Nat} (h : CodeLoaded b s j u) :
    CursorAt b s (j + 1) (dropCode b u) := by
  obtain ⟨hmem, hlen, hcur, hbits, hbyte⟩ := h
  rcases nextField b j with ⟨hmod, hdiv, hnext⟩ | ⟨hmod, hdiv, hnext⟩
  · refine .inr ⟨hmod, .inr ?_, hmem, hlen, ?_⟩
    · rw [dropCode_bitsConsumed, hbits, hnext]
    · rw [dropCode_codeCursor, hcur, hdiv, Nat.add_assoc]
  · refine .inl ⟨hmod, hmem, hlen, ?_, ?_, ?_⟩
    · rw [dropCode_codeCursor, hcur, hdiv]
    · rw [dropCode_bitsConsumed, hbits, hnext]
    · rw [dropCode_inputByte, hbyte, hdiv, ← BitVec.shiftLeft_add, hnext]

/-- The next `n` codes from code `j` on are those of the index formula. -/
theorem CursorAt.codesTaken {b : CodeWidth} {s : State} (n : Nat) {j : Nat} {t : State} (h : CursorAt b s j t)
    (hlt : ∀ m, m < n → s.codeCursor + (j + m) / (8 / b.bits) < s.buflen) :
    Spec.codesTaken b n t = some ((List.range n).map fun m =>
      laneCode .msbFirst b.bits (s.inByte (s.codeCursor + (j + m) / (8 / b.bits))) (j + m)) := by
  induction n generalizing j t with
  | zero => rfl
  | succ n ih =>
    obtain ⟨u, hload, hu⟩ := h.load (hlt 0 (by omega))
    have hrest := ih hu.drop fun m hm => by
      have := hlt (m + 1) (by omega)
      rwa [show j + (m + 1) = j + 1 + m by omega] at this
    simp only [Spec.codesTaken, hload, hrest, hu.frontCode, List.range_succ_eq_map, List.map_cons, List.map_map,
      Option.map_some, Nat.add_zero]
    congr 3
    funext m
    simp only [Function.comp, Nat.succ_eq_add_one, show j + (m + 1) = j + 1 + m by omega]

/-- Settles O16: the cursor stands before code 0 and every code's byte lies in the buffer. -/
theorem bitCursorYieldsTheLaneCodes : Obligations.BitCursorYieldsTheLaneCodes := by
  intro b s hbits hlen
  have h := (CursorAt.start (b := b) hbits).codesTaken 16 fun m hm => by
    cases b <;> simp only [CodeWidth.bits] at hlen ⊢ <;> omega
  simpa only [Nat.zero_add] using h

end Sys2Proof.Machine
end

section
/-! SUPPORT. The statements about one host transaction. -/

namespace Sys2Proof.Machine

/-- Settles O46: the first check of DECODE (R24). -/
theorem startWhileBusyIsIgnored : Obligations.StartWhileBusyIsIgnored := by
  intro s h
  show (decodeUnit s).outcome = .next s
  rw [decodeUnit, if_pos h, Res.outcome_ok]

/-- Settles O48: nothing is pending after reset; a reset transaction leaves the reset values but for what is not the
core's. -/
theorem resetLeavesTheCoreIdle : Obligations.ResetLeavesTheCoreIdle := by
  refine ⟨rfl, by decide, rfl, rfl, rfl, rfl, step_waits rfl rfl, fun s rest hp hc => ?_⟩
  refine ⟨hostReset { s with cmds := rest }, ?_, rfl, rfl, rfl, rfl, rfl, rfl, rfl, rfl⟩
  exact step_hostAccess hp hc (by simp)

/-- Settles O49: sixteen words, one for each state and kind. -/
theorem statusWordLayout : Obligations.StatusWordLayout := by
  rintro ⟨st, err⟩
  cases st <;> rcases err with _ | _ | _ | _ <;> decide

/-- Settles O50: the port takes each write while no decode runs. -/
theorem hostWritesSetTheOperands : Obligations.HostWritesSetTheOperands := by
  intro s rest hp hb
  refine ⟨fun n hc => ?_, fun n hc => ?_, fun n hc => ?_, fun w hc hw => step_ctrlWithoutStart hp hc hw⟩
  all_goals
    rw [step_hostAccess hp hc (by simp)]
    exact whenNotBusy_next hb _

/-- Settles O51: the port answers each read while no decode runs; CTRL and STATUS it answers always. -/
theorem hostReadsHaveNoSideEffect : Obligations.HostReadsHaveNoSideEffect := by
  intro s rest hp hb
  have hread : ∀ {r : HostReg}, s.cmds = .readReg r :: rest →
      step s = hostAccess (.readReg r) { s with cmds := rest } := fun hc => step_hostAccess hp hc (by simp)
  refine ⟨hread, hread, fun hc => ?_, fun hc => ?_, fun hc => ?_⟩
  all_goals exact (hread hc).trans (whenNotBusy_next hb _)

end Sys2Proof.Machine
end

section
/-! SUPPORT. OUT in a decode that goes on: what COMMIT copies (R155), and how far the blocks done so far have written it
(R59, R156, R178). -/

namespace Sys2Proof.Machine

/-- OUT after the copy of a block: the block's bytes from `voff*S` on, and what was there elsewhere (R59, R155). -/
theorem afterPlanes_find (s : State) (a : Nat) :
    (afterPlanes s).outMem.find a =
      if s.voff * s.stride ≤ a ∧ a < (s.voff + s.cnt) * s.stride then some (s.tr.byte (a - s.voff * s.stride))
      else s.outMem.find a := by
  simp only [afterPlanes, Memory.find_insertRun, bytesUpTo_length, Nat.add_mul]
  split_ifs with h
  · rw [bytesUpTo_getD _ _ _ (by omega)]
  · rfl

/-- The carry after a block is its last record (R156). -/
theorem afterPlanes_carry {s : State} (h : s.lastVertex.rising = true) {k : Nat} (hk : k < s.stride) :
    (afterPlanes s).lastVertex.byte k = s.tr.byte ((s.cnt - 1) * s.stride + k) := by
  rw [afterPlanes, Memory.byte_setRun h, if_pos (by simpa using hk), Nat.sub_zero, bytesUpTo_getD _ _ _ hk]

/-- A block that returns has vertices, ran its planes, and then made the copy and the carry update (R151, R155, R156). -/
theorem blockUnit_returned {s t : State} (h : blockUnit s = .ok t) :
    1 ≤ s.cnt ∧ ∃ u, BlockMoves s u ∧ t = afterPlanes u := by
  obtain ⟨hcnt, -, -, u, w, hloop, hcommit, hcarry⟩ := blockUnit_eq_ok.1 h
  obtain ⟨-, -, rfl⟩ := commitUnit_eq_ok.1 hcommit
  obtain ⟨-, rfl⟩ := carryUnit_eq_ok.1 hcarry
  have h0 : BlockMoves s { s with k := 0 } := ⟨⟨_, _, _, _, _, _, _, _, _, _, _, _, rfl⟩, id⟩
  have hplanes := (repeatUnit_rel BlockMoves.refl (fun _ _ _ => BlockMoves.trans) planeTurn_moves _ _).of_ok hloop
  exact ⟨Nat.pos_of_ne_zero hcnt, u, h0.trans hplanes, rfl⟩

/-- The blocks done so far have given every byte below `voff*S` of OUT a value and left the rest of it as it was in `m0`,
and the carry, an array in canonical form, is the last record they wrote (R59, R156). -/
structure Produced (m0 : Memory) (s : State) : Prop where
  rising : s.lastVertex.rising = true
  written : ∀ a, a < s.voff * s.stride → (s.outMem.find a).isSome = true
  kept : ∀ a, s.voff * s.stride ≤ a → s.outMem.find a = m0.find a
  carry : 1 ≤ s.voff → ∀ k, k < s.stride →
    s.outMem.find ((s.voff - 1) * s.stride + k) = some (s.lastVertex.byte k)

/-- At the start of the block loop nothing is produced. -/
theorem produced_start {s : State} (hm : s.memoriesOk = true) (hv : s.voff = 0) : Produced s.outMem s :=
  ⟨lastVertex_rising hm, fun a ha => absurd ha (by simp [hv]), fun _ _ => rfl, fun h1 => absurd h1 (by simp [hv])⟩

/-- The planes of a block move nothing of it. -/
theorem Produced.moves {m0 : Memory} {s t : State} (h : Produced m0 s) (hm : BlockMoves s t) : Produced m0 t := by
  obtain ⟨⟨_, _, _, _, _, _, _, _, _, _, _, _, rfl⟩, -⟩ := hm
  exact { h with }

/-- The copy and the carry update take it to the vertex offset after the block (R155, R156, R178). -/
theorem Produced.afterBlock {m0 : Memory} {s : State} (h : Produced m0 s) (hcnt : 1 ≤ s.cnt) :
    Produced m0 (advanceVoff (afterPlanes s)) := by
  have hend : (s.voff + s.cnt) * s.stride = s.voff * s.stride + s.cnt * s.stride := Nat.add_mul ..
  refine ⟨Memory.rising_setRun h.rising _ _, fun a (ha : a < (s.voff + s.cnt) * s.stride) => ?_,
    fun a (ha : (s.voff + s.cnt) * s.stride ≤ a) => ?_, fun _ k (hk : k < s.stride) => ?_⟩
  · change ((afterPlanes s).outMem.find a).isSome = true
    rw [afterPlanes_find]
    split_ifs with hin
    · rfl
    · exact h.written a (by omega)
  · change (afterPlanes s).outMem.find a = m0.find a
    rw [afterPlanes_find, if_neg (by omega), h.kept a (by omega)]
  · change (afterPlanes s).outMem.find ((s.voff + s.cnt - 1) * s.stride + k) =
      some ((afterPlanes s).lastVertex.byte k)
    have hlast : (s.voff + s.cnt - 1) * s.stride = s.voff * s.stride + (s.cnt - 1) * s.stride := by
      rw [Nat.add_sub_assoc hcnt, Nat.add_mul]
    have hrecord : (s.cnt - 1) * s.stride + s.stride = s.cnt * s.stride := by
      rw [← Nat.succ_mul, Nat.succ_eq_add_one, Nat.sub_add_cancel hcnt]
    rw [afterPlanes_find, afterPlanes_carry h.rising hk, if_pos (by omega), hlast, Nat.add_assoc,
      Nat.add_sub_cancel_left]

/-- One turn of the block loop keeps it, and a block that raises has copied nothing (R160, R178). -/
theorem Produced.blockTurn_holds {m0 : Memory} {s : State} (h : Produced m0 s) :
    (blockTurn s).Holds (Produced m0) := by
  have hstart : Produced m0 { s with cnt := s.nextCount } := { h with }
  cases hr : blockTurn s with
  | ok t =>
    obtain ⟨w, hw, rfl⟩ := blockTurn_eq_ok.1 hr
    obtain ⟨hcnt, u, hu, rfl⟩ := blockUnit_returned hw
    refine (hstart.moves hu).afterBlock ?_
    obtain ⟨⟨_, _, _, _, _, _, _, _, _, _, _, _, rfl⟩, -⟩ := hu
    exact hcnt
  | raised e t =>
    rcases Res.bind_eq_raised.1 hr with hb | ⟨_, -, hb⟩
    · exact hstart.moves (blockUnit_raised hb).1
    · cases hb
  | fault _ | refused _ => trivial

/-- What the block loop has produced, by induction over its turns (R178). -/
theorem blockLoop_produced {s : State} (hm : s.memoriesOk = true) (hv : s.voff = 0) :
    (blockLoop s).Holds (Produced s.outMem) :=
  repeatUnit_holds (fun _ => Produced.blockTurn_holds) _ (produced_start hm hv)

/-- DECODE that ends DONE is a block loop from the seeded state that returned with all vertices produced (R170, R178). -/
theorem decode_done {s t : State} (hs : s.startable = true) (h : exec .decode s = .next t)
    (hdone : t.status.state = .done) :
    ∃ u, blockLoop (seeded (beginBusy s)) = .ok u ∧ DecodeMoves (beginBusy s) u ∧ u.voff = s.count ∧
      s.stride ≤ 256 ∧ t = finishDone u := by
  change (decodeUnit s).outcome = .next t at h
  rw [decodeUnit_of_startable hs] at h
  rcases decodeBody_cases (beginBusy s) with ⟨u, hb, hloop, hmv, hvoff, hf⟩ | ⟨e, u, hb, -⟩
  · rw [hb] at h
    cases h
    have hstride := ((frameOk_iff _).1 hf).1
    exact ⟨u, hloop, hmv, hvoff, ((strideOk_iff _).1 hstride).2.1, rfl⟩
  · rw [hb] at h
    cases h
    cases hdone

/-- Settles O42: the block loop returned with `voff` at the vertex count, and what it has produced up to there is the
output. -/
theorem doneDecodeWritesExactlyItsOutput : Obligations.DoneDecodeWritesExactlyItsOutput := by
  intro s t hs hm h hdone
  obtain ⟨u, hloop, hmv, hvoff, hS, rfl⟩ := decode_done hs h hdone
  have hp : Produced s.outMem u := (blockLoop_produced ((seeded_moves (s := beginBusy s) hS).2 hm) rfl).of_ok hloop
  have hin := hmv.keepsInputs
  have hstride : u.stride = s.stride := congrArg BitVec.toNat hin.vstride
  obtain ⟨-, hwritten, hkept, hcarry⟩ := hp
  rw [hvoff, hstride] at hwritten hkept hcarry
  exact ⟨hwritten, hkept, hcarry, hin.vcount, hin.vstride, hin.buflen, hin.inMem⟩

/-- Settles O29: the block's cells and offsets exist, so the copy is made. -/
theorem commitCopiesTheBlock : Obligations.CommitCopiesTheBlock := fun s htr hout =>
  ⟨(afterPlanes s).outMem, congrArg Res.outcome (commitUnit_returns htr hout), afterPlanes_find s⟩

end Sys2Proof.Machine
end

section
/-! SUPPORT. What START refuses (R65, R204, R222), and the buffer the host places in IN (R50). -/

namespace Sys2Proof.Machine

/-- A START that has no meaning is refused, from any state that is not BUSY (R204). -/
theorem decode_refused {s : State} {x : Refusal} (hb : s.status.state ≠ .busy) (h : startRefusal s = some x) :
    exec .decode s = .refused x := by
  change (decodeUnit s).outcome = _
  rw [decodeUnit, if_neg hb, h]
  rfl

/-- Settles O45: with the operands written the overlap flag is looked at first, then the count of placed bytes. -/
theorem startOnBadSpacesIsRefused : Obligations.StartOnBadSpacesIsRefused := by
  intro s hb h1 h2 h3
  refine ⟨fun hov => decode_refused hb ?_, fun hov hlen => decode_refused hb ?_⟩
  · simp [startRefusal, h1, h2, h3, hov]
  · simp [startRefusal, h1, h2, h3, hov, hlen]

/-- A buffer placed from offset 0 on reads back, and beyond it 00 (R50; log 5). -/
theorem byte_loaded (bytes : List Byte) (a : Nat) :
    (Memory.empty.setRun 0 bytes).byte a = bytes.getD a 0 := by
  rw [Memory.byte_setRun Memory.rising_empty]
  split_ifs with h
  · rfl
  · exact (List.getD_eq_default _ _ (by omega)).symm

/-- Settles O53: the port places the buffer while no decode runs. -/
theorem loadedBufferReadsBack : Obligations.LoadedBufferReadsBack := by
  intro s rest bytes hp hb hc
  refine ⟨Memory.empty.setRun 0 bytes, ?_, byte_loaded bytes⟩
  rw [step_hostAccess hp hc (by simp)]
  exact whenNotBusy_next hb _

end Sys2Proof.Machine
end

section
/-! SUPPORT. Lists written one after the other: where the part of each entry starts, and what stands there. -/

namespace Sys2Proof

variable {α β : Type}

/-- Where the part of entry `m` starts in the parts of all entries written one after the other. -/
def partStart (f : α → List β) (l : List α) (m : Nat) : Nat := ((l.take m).flatMap f).length

@[simp] theorem partStart_zero (f : α → List β) (l : List α) : partStart f l 0 = 0 := by simp [partStart]

theorem partStart_length (f : α → List β) (l : List α) : partStart f l l.length = (l.flatMap f).length := by
  rw [partStart, List.take_length]

theorem partStart_succ (f : α → List β) {l : List α} {m : Nat} (hm : m < l.length) :
    partStart f l (m + 1) = partStart f l m + (f l[m]).length := by
  rw [partStart, ← List.take_concat_get' l m hm, List.flatMap_append, List.length_append, List.flatMap_singleton]
  rfl

/-- The parts before entry `m`, its own, and the parts after it. -/
theorem flatMap_split (f : α → List β) {l : List α} {m : Nat} (hm : m < l.length) :
    l.flatMap f = (l.take m).flatMap f ++ (f l[m] ++ (l.drop (m + 1)).flatMap f) := by
  rw [← List.flatMap_cons, List.getElem_cons_drop, ← List.flatMap_append, List.take_append_drop]

theorem partStart_add_le (f : α → List β) {l : List α} {m : Nat} (hm : m < l.length) :
    partStart f l m + (f l[m]).length ≤ (l.flatMap f).length := by
  rw [flatMap_split f hm, List.length_append, List.length_append, ← Nat.add_assoc]
  exact Nat.le_add_right _ _

/-- Entry `m`'s part is read from its start on. -/
theorem getD_flatMap (f : α → List β) {l : List α} {m x : Nat} (hm : m < l.length) (hx : x < (f l[m]).length)
    (d : β) :
    (l.flatMap f).getD (partStart f l m + x) d = (f l[m]).getD x d := by
  rw [flatMap_split f hm, partStart, List.getD_append_right _ _ _ _ (Nat.le_add_right _ _), Nat.add_sub_cancel_left,
    List.getD_append _ _ _ _ hx]

/-- Where all parts have one length, the starts are its multiples. -/
theorem partStart_of_length {f : α → List β} {l : List α} {c : Nat} (h : ∀ x ∈ l, (f x).length = c) {m : Nat}
    (hm : m ≤ l.length) : partStart f l m = m * c := by
  induction m with
  | zero => simp
  | succ m ih => rw [partStart_succ f hm, ih (by omega), h _ (List.getElem_mem hm), Nat.succ_mul]

theorem partStart_mono (f : α → List β) (l : List α) : Monotone (partStart f l) := by
  have h : partStart f l = fun m => ((l.map fun x => (f x).length).take m).sum := by
    funext m
    rw [partStart, List.length_flatMap, List.map_take]
  rw [h]
  exact List.monotone_sum_take _

/-- The part of the last entry. -/
def lastPart (f : α → List β) (l : List α) : List β := (l.getLast?.map f).getD []

/-- The last part stands at the end, after the start of every entry. -/
theorem partStart_add_lastPart_le (f : α → List β) {l : List α} {m : Nat} (hm : m < l.length) :
    partStart f l m + (lastPart f l).length ≤ (l.flatMap f).length := by
  have hn : l.length - 1 < l.length := by omega
  have hlast : lastPart f l = f l[l.length - 1] := by
    rw [lastPart, List.getLast?_eq_getElem?, List.getElem?_eq_getElem hn, Option.map_some, Option.getD_some]
  rw [hlast]
  exact le_trans (Nat.add_le_add_right (partStart_mono f l (by omega)) _) (partStart_add_le f hn)

end Sys2Proof
end

section
/-! SUPPORT. A group's note (R90) against DecodeGroup (R76 to R82), and a plane's header (R74). -/

namespace Sys2Proof.Machine

/-! ### Code bytes -/

/-- Codes added up, each shifted to its field, are read back from their fields, at both code orders: they are the digits
of the byte in base `2^b` (R80). -/
theorem laneCode_of_fields (o : CodeOrder) (b : CodeWidth) {c : Nat → Nat} {f : Nat} (hc : ∀ j, c j < 2 ^ b.bits)
    (hf : f < 8 / b.bits) :
    laneCode o b.bits
      (BitVec.ofNat 8 ((List.range (8 / b.bits)).foldl (fun acc f => acc + c f <<< codeShift o b.bits f) 0)) f
      = c f := by
  have h0 := hc 0
  have h1 := hc 1
  cases b with
  | two =>
    have h2 := hc 2
    have h3 := hc 3
    simp only [CodeWidth.bits] at *
    rcases (by omega : f = 0 ∨ f = 1 ∨ f = 2 ∨ f = 3) with rfl | rfl | rfl | rfl <;> cases o <;>
      simp [laneCode, codeShift, List.range_succ, Nat.shiftLeft_eq, Nat.shiftRight_eq_div_pow] <;> omega
  | four =>
    simp only [CodeWidth.bits] at *
    rcases (by omega : f = 0 ∨ f = 1) with rfl | rfl <;> cases o <;>
      simp [laneCode, codeShift, List.range_succ, Nat.shiftLeft_eq, Nat.shiftRight_eq_div_pow] <;> omega

/-- Every lane of a well-formed packed group has a code its field can hold; so has the lane that fills a missing one. -/
theorem getD_code_lt {b : CodeWidth} {lanes : List LaneNote} (h : lanes.all (LaneNote.wellFormed b) = true) (j : Nat) :
    (lanes.getD j (.lit 0)).code b < 2 ^ b.bits := by
  rcases Nat.lt_or_ge j lanes.length with hj | hj
  · rw [List.getD_eq_getElem _ _ hj]
    exact laneNote_code_lt (List.all_eq_true.1 h _ (List.getElem_mem hj))
  · rw [List.getD_eq_default _ _ hj]
    exact Nat.two_pow_pos _

/-- The code byte of lane `j` holds the lane's code in the lane's field (R77, R78, R80). -/
theorem laneCode_codeByte (o : CodeOrder) {b : CodeWidth} {lanes : List LaneNote}
    (h : lanes.all (LaneNote.wellFormed b) = true) (j : Nat) :
    laneCode o b.bits (codeByte o b lanes (j / (8 / b.bits))) j = (lanes.getD j (.lit 0)).code b := by
  have hpos : 0 < 8 / b.bits := by cases b <;> decide
  have hfield := laneCode_of_fields o b
    (c := fun f => (lanes.getD (j / (8 / b.bits) * (8 / b.bits) + f) (.lit 0)).code b)
    (fun f => getD_code_lt h _) (Nat.mod_lt j hpos)
  rw [laneCode_mod _ _ _ (Nat.mod_mod j _).symm]
  simpa only [codeByte, Nat.div_add_mod'] using hfield

/-! ### Groups -/

/-- A packed group decodes to its lanes' values: the code bytes hold the codes, and the literals follow them in lane
order (R77, R78, R81, R102, R103). -/
theorem packedGroup_note (o : CodeOrder) {b : CodeWidth} {lanes : List LaneNote} {rd : Nat → Byte} {pos : Nat}
    (hw : (GroupNote.packed b lanes).wellFormed = true)
    (hrd : ∀ m, m < (encodeGroup o (.packed b lanes)).length →
      rd (pos + m) = (encodeGroup o (.packed b lanes)).getD m 0) :
    packedGroup o b rd pos
      = (lanes.map LaneNote.value, pos + (encodeGroup o (.packed b lanes)).length) := by
  simp only [GroupNote.wellFormed, Bool.and_eq_true, beq_iff_eq] at hw
  obtain ⟨hlen, hlanes⟩ : lanes.length = 16 ∧ _ := hw
  have hbytes : ((List.range (2 * b.bits)).map (codeByte o b lanes)).length = 2 * b.bits := by simp
  rw [encodeGroup, List.length_append, hbytes] at hrd ⊢
  have hcode : ∀ m, m < lanes.length →
      laneCode o b.bits (rd (pos + (0 + m) / (8 / b.bits))) (0 + m) = (lanes.getD m (.lit 0)).code b := by
    intro m hm
    have hbyte : m / (8 / b.bits) < 2 * b.bits := by cases b <;> simp only [CodeWidth.bits] <;> omega
    rw [Nat.zero_add, hrd _ (by omega), List.getD_append _ _ _ _ (by rwa [hbytes]),
      List.getD_eq_getElem _ _ (by rwa [hbytes])]
    simpa using laneCode_codeByte o hlanes m
  have hliteral : ∀ m, m < (lanes.flatMap LaneNote.overflow).length →
      rd (pos + 2 * b.bits + m) = (lanes.flatMap LaneNote.overflow).getD m 0 := by
    intro m hm
    rw [Nat.add_assoc, hrd _ (by omega), List.getD_append_right _ _ _ _ (by omega), hbytes, Nat.add_sub_cancel_left]
  rw [packedGroup, show Config.group = lanes.length from hlen.symm,
    packedLanes_notes o b rd pos lanes 0 _ hlanes hcode hliteral, Nat.add_assoc]

/-- A raw group decodes to its bytes (R79, R104). -/
theorem rawGroup_note {bytes : List Byte} {rd : Nat → Byte} {pos : Nat} (hlen : bytes.length = 16)
    (hrd : ∀ m, m < bytes.length → rd (pos + m) = bytes.getD m 0) :
    rawGroup rd pos = (bytes, pos + bytes.length) := by
  refine Prod.ext (List.ext_getElem ?_ fun m hm hm' => ?_) (congrArg (pos + ·) hlen.symm)
  · simp [rawGroup, hlen]
  · simp only [rawGroup, bytesUpTo, List.getElem_map, List.getElem_range]
    rw [hrd m hm', List.getD_eq_getElem _ _ hm']

/-- Settles O3, by the kind of group. -/
theorem groupNotationRoundTrip : Obligations.GroupNotationRoundTrip := by
  intro o n rd pos hw hrd
  cases n with
  | zero => rfl
  | packed b lanes =>
    cases b with
    | two => exact packedGroup_note o hw hrd
    | four => exact packedGroup_note o hw hrd
  | raw bytes =>
    simp only [GroupNote.wellFormed, beq_iff_eq] at hw
    exact rawGroup_note hw hrd

/-! ### Headers -/

/-- Settles O4, four selectors to a header byte. -/
theorem headerHoldsItsSelectors : Obligations.HeaderHoldsItsSelectors := by
  intro spare sels
  induction sels using encodeHeader.induct with
  | case1 => exact ⟨by simp [encodeHeader], fun g hg => absurd hg (Nat.not_lt_zero g)⟩
  | case2 s0 =>
    refine ⟨by simp [encodeHeader], fun g hg => ?_⟩
    obtain rfl : g = 0 := by simpa using hg
    simp [encodeHeader, selectorField_headerByte]
  | case3 s0 s1 =>
    refine ⟨by simp [encodeHeader], fun g hg => ?_⟩
    simp only [List.length_cons, List.length_nil] at hg
    rcases (by omega : g = 0 ∨ g = 1) with rfl | rfl <;> simp [encodeHeader, selectorField_headerByte]
  | case4 s0 s1 s2 =>
    refine ⟨by simp [encodeHeader], fun g hg => ?_⟩
    simp only [List.length_cons, List.length_nil] at hg
    rcases (by omega : g = 0 ∨ g = 1 ∨ g = 2) with rfl | rfl | rfl <;>
      simp [encodeHeader, selectorField_headerByte]
  | case5 s0 s1 s2 s3 rest ih =>
    obtain ⟨hlen, hfield⟩ := ih
    simp only [encodeHeader, List.length_cons, hlen]
    refine ⟨by omega, fun g hg => ?_⟩
    rcases Nat.lt_or_ge g 4 with h4 | h4
    · rcases (by omega : g = 0 ∨ g = 1 ∨ g = 2 ∨ g = 3) with rfl | rfl | rfl | rfl <;>
        simp [selectorField_headerByte]
    · obtain ⟨m, rfl⟩ := Nat.exists_eq_add_of_le' h4
      rw [selectorField_add_four, Nat.add_div_right _ (by decide), List.getD_cons_succ]
      exact hfield m (by omega)

end Sys2Proof.Machine
end

section
/-! SUPPORT. A plane's note (R90) against DecodeStream (R73, R120 to R125): the group loop follows the
note's groups. -/

namespace Sys2Proof.Machine

open Spec

/-! ### Bytes of IN -/

theorem inHolds_congr {s t : State} {base : Nat} {bytes : List Byte} (h : InHolds s base bytes)
    (hin : t.inMem = s.inMem) : InHolds t base bytes := by
  intro n hn
  rw [State.inByte, hin]
  exact h n hn

theorem inHolds_append {s : State} {base : Nat} {l l' : List Byte} :
    InHolds s base (l ++ l') ↔ InHolds s base l ∧ InHolds s (base + l.length) l' := by
  simp only [InHolds, List.length_append]
  refine ⟨fun h => ⟨fun n hn => ?_, fun n hn => ?_⟩, fun ⟨h, h'⟩ n hn => ?_⟩
  · rw [h n (by omega), List.getD_append _ _ _ _ hn]
  · rw [Nat.add_assoc, h _ (by omega), List.getD_append_right _ _ _ _ (by omega), Nat.add_sub_cancel_left]
  · rcases Nat.lt_or_ge n l.length with hlt | hge
    · rw [h n hlt, List.getD_append _ _ _ _ hlt]
    · have := h' (n - l.length) (by omega)
      rwa [Nat.add_assoc, Nat.add_sub_cancel' hge, ← List.getD_append_right _ _ _ _ hge] at this

/-- Where parts stand one after the other, entry `m`'s part stands at its start. -/
theorem inHolds_part {α : Type} {f : α → List Byte} {l : List α} {s : State} {base m : Nat}
    (h : InHolds s base (l.flatMap f)) (hm : m < l.length) : InHolds s (base + partStart f l m) (f l[m]) := by
  rw [flatMap_split f hm, inHolds_append, inHolds_append] at h
  obtain ⟨-, hpart, -⟩ := h
  exact hpart

/-! ### The bytes of a plane -/

theorem plane_wf {s : State} (h : s.memoriesOk = true) : s.plane.wf = true := by
  obtain ⟨-, -, -, ⟨hwf, -⟩, -⟩ := (memoriesOk_iff s).1 h
  exact hwf

theorem planeNote_wellFormed_iff (n : PlaneNote) :
    n.wellFormed = true ↔
      1 ≤ n.groups.length ∧ n.groups.length ≤ 16 ∧ ∀ x ∈ n.groups, x.wellFormed = true := by
  simp [PlaneNote.wellFormed, and_assoc]

/-- The plane of a note stands at the cursor of `s`, for the count of `s`, with the margin of its last group
(R73, R124, R223). -/
structure PlaneStands (s : State) (n : PlaneNote) : Prop where
  wellFormed : n.wellFormed = true
  groups : numGroups s.cnt = n.groups.length
  bytes : InHolds s s.pos (encodePlane .msbFirst n)
  margin : s.pos + (encodePlane .msbFirst n).length + 32
    ≤ s.buflen + (lastPart (encodeGroup .msbFirst) n.groups).length

variable {s : State} {n : PlaneNote}

theorem PlaneStands.headerLength (h : PlaneStands s n) :
    (encodeHeader n.spare (n.groups.map GroupNote.selector)).length = headerSize s.cnt := by
  rw [(headerHoldsItsSelectors _ _).1, List.length_map, headerSize_eq, h.groups]

theorem PlaneStands.length (h : PlaneStands s n) :
    (encodePlane .msbFirst n).length = headerSize s.cnt + (n.groups.flatMap (encodeGroup .msbFirst)).length := by
  rw [encodePlane, List.length_append, h.headerLength]

/-- The header stands at the cursor, its fields the selectors of the groups (R74, R123). -/
theorem PlaneStands.selector (h : PlaneStands s n) {m : Nat} (hm : m < n.groups.length) :
    selectorField (s.inByte (s.pos + m / 4)) m = n.groups[m].selector := by
  have hbytes := (inHolds_append.1 h.bytes).1 (m / 4) (by
    rw [(headerHoldsItsSelectors _ _).1, List.length_map]
    omega)
  rw [hbytes, (headerHoldsItsSelectors _ _).2 m (by simpa using hm), List.getD_eq_getElem _ _ (by simpa using hm),
    List.getElem_map]

/-- Group `m` stands at its start after the header, and DecodeGroup there gives its values (R73, R125). -/
theorem PlaneStands.group (h : PlaneStands s n) {m : Nat} (hm : m < n.groups.length) :
    decodeGroup .msbFirst n.groups[m].selector s.inByte
        (s.pos + headerSize s.cnt + partStart (encodeGroup .msbFirst) n.groups m)
      = (n.groups[m].values, s.pos + headerSize s.cnt + partStart (encodeGroup .msbFirst) n.groups (m + 1)) := by
  obtain ⟨-, -, hwf⟩ := (planeNote_wellFormed_iff n).1 h.wellFormed
  have hbytes := inHolds_part (inHolds_append.1 h.bytes).2 hm
  rw [h.headerLength] at hbytes
  rw [groupNotationRoundTrip _ _ _ _ (hwf _ (List.getElem_mem hm)) hbytes, partStart_succ _ hm,
    Nat.add_assoc (s.pos + headerSize s.cnt)]

/-- The values of group `m` stand in cells `16m` to `16m+15` of the plane's values (R125). -/
theorem PlaneStands.values (h : PlaneStands s n) {m : Nat} (hm : m < n.groups.length) {a : Nat} (h1 : 16 * m ≤ a)
    (h2 : a < 16 * m + 16) : n.values.getD a 0 = n.groups[m].values.getD (a - 16 * m) 0 := by
  obtain ⟨-, -, hwf⟩ := (planeNote_wellFormed_iff n).1 h.wellFormed
  have hlen : ∀ x ∈ n.groups, x.values.length = 16 := fun x hx => groupNote_values_length (hwf x hx)
  have hstart := partStart_of_length hlen (Nat.le_of_lt hm)
  have := getD_flatMap GroupNote.values hm (x := a - 16 * m) (by rw [hlen _ (List.getElem_mem hm)]; omega) 0
  rwa [hstart, show m * 16 + (a - 16 * m) = a by omega] at this

/-! ### The group loop -/

/-- The group loop stands before group `m` of the note's plane: the groups before it are in `plane` (R120). -/
structure GroupsDone (s : State) (n : PlaneNote) (m : Nat) (t : State) : Prop where
  moves : PlaneMoves s t
  g : t.g = m
  hdr : t.hdr = s.pos
  pos : t.pos = s.pos + headerSize s.cnt + partStart (encodeGroup .msbFirst) n.groups m
  values : ∀ a, t.plane.byte a = if a < 16 * m then n.values.getD a 0 else s.plane.byte a

theorem groupsDone_start (s : State) (n : PlaneNote) : GroupsDone s n 0 (openPlane s) :=
  ⟨openPlane_moves s, rfl, rfl, by simp, by simp⟩

/-- One turn of the group loop takes the next group of the note. -/
theorem PlaneStands.groupTurn (h : PlaneStands s n) (hp : s.plane.wf = true) {m : Nat} (hm : m < n.groups.length)
    {t : State} (ht : GroupsDone s n m t) : ∃ u, Machine.groupTurn t = .ok u ∧ GroupsDone s n (m + 1) u := by
  obtain ⟨hmv, hg, hhdr, hpos, hval⟩ := ht
  obtain ⟨-, h16, hwf⟩ := (planeNote_wellFormed_iff n).1 h.wellFormed
  have hrising : t.plane.rising = true := Memory.rising_of_wf (hmv.2.1 hp)
  have hin : t.inByte = s.inByte := by rw [hmv.frame]; rfl
  have hN : t.buflen = s.buflen := by rw [hmv.frame]
  have hmargin : t.pos + 32 ≤ t.buflen := by
    have hlast := partStart_add_lastPart_le (encodeGroup .msbFirst) hm
    have := h.margin
    rw [h.length] at this
    rw [hpos, hN]
    omega
  have hheader : t.hdr + t.g / 4 < t.pos := by
    have := headerSize_eq s.cnt
    rw [h.groups] at this
    omega
  have hsel : t.selector = n.groups[m].selector := by
    rw [State.selector, State.selectorOffset, hin, hhdr, hg, h.selector hm]
  have hgroup : decodeGroup Config.codeOrder t.selector t.inByte t.pos
      = (n.groups[m].values, s.pos + headerSize s.cnt + partStart (encodeGroup .msbFirst) n.groups (m + 1)) := by
    rw [hsel, hin, hpos, ← h.group hm]
  have hturn := (groupTurn_cases (by omega) hheader).resolve_right fun hno => by omega
  refine ⟨_, hturn.2, hmv.trans (groupTurn_moves (by omega)), by rw [hg], hhdr, ?_, fun a => ?_⟩
  · exact congrArg Prod.snd hgroup
  · change (t.plane.setRun (16 * t.g) (decodeGroup Config.codeOrder t.selector t.inByte t.pos).1).byte a = _
    rw [hgroup, Memory.byte_setRun hrising, hval a, hg, groupNote_values_length (hwf _ (List.getElem_mem hm))]
    rcases Nat.lt_or_ge a (16 * m) with h1 | h1
    · rw [if_neg (by omega), if_pos h1, if_pos (by omega)]
    · rcases Nat.lt_or_ge a (16 * m + 16) with h2 | h2
      · rw [if_pos ⟨h1, h2⟩, if_pos (by omega)]
        exact (h.values hm h1 h2).symm
      · rw [if_neg (by omega), if_neg (by omega), if_neg (by omega)]

/-- DecodeStream on a plane that stands at the cursor returns: its values are in `plane`, and the cursor is past it
(R120, R125). -/
theorem PlaneStands.planeUnit (h : PlaneStands s n) (hp : s.plane.wf = true) :
    ∃ t, Machine.planeUnit s = .ok t ∧ PlaneMoves s t ∧ t.hdr = s.pos ∧
      t.pos = s.pos + (encodePlane .msbFirst n).length ∧
      ∀ a, t.plane.byte a = if a < 16 * n.groups.length then n.values.getD a 0 else s.plane.byte a := by
  obtain ⟨q, -, -, hq, hloop⟩ := repeatUnit_returns (P := GroupsDone s n) n.groups.length
    (groupsDone_start s n) fun m t hm => h.groupTurn hp hm
  obtain ⟨hmv, -, hhdr, hpos, hval⟩ := hq _ (le_refl _)
  refine ⟨q n.groups.length, ?_, hmv, hhdr, ?_, hval⟩
  · rw [Machine.planeUnit, h.groups, hloop]
  · rw [hpos, h.length, partStart_length, Nat.add_assoc]

/-- Settles O5: the group loop takes the note's groups one by one. -/
theorem planeNotationIsDecoded : Obligations.PlaneNotationIsDecoded := by
  intro s n hm hw hgroups hbytes hmargin
  obtain ⟨t, hunit, hmv, hhdr, hpos, hval⟩ := PlaneStands.planeUnit ⟨hw, hgroups, hbytes, hmargin⟩ (plane_wf hm)
  refine ⟨t.plane, t.ov, t.j, t.g, ?_, hval⟩
  rw [← hpos, ← hhdr, ← hmv.frame]
  exact congrArg Res.outcome hunit

end Sys2Proof.Machine
end

section
/-! SUPPORT. The short statements about words, sizes, one group, the tag, and a decode with the wrong tag or with
room. -/

namespace Sys2Proof.Machine

/-- Settles O1: each word is a closed case of the decoder. -/
theorem specWordsDecodeToTheirUnits : Obligations.SpecWordsDecodeToTheirUnits := by
  unfold Obligations.SpecWordsDecodeToTheirUnits
  decide

/-- Settles O18: the group and header counts in closed form. -/
theorem planeSizesFollowTheCount : Obligations.PlaneSizesFollowTheCount := by
  intro cnt h1 h2
  have hgroups := numGroups_eq cnt
  have hheader := headerSize_eq cnt
  obtain ⟨hpos, hle, -⟩ := numGroups_bounds h1 h2
  refine ⟨?_, hgroups, by omega, hle, by omega, by omega⟩
  simp only [alignedCount, roundUp, ceilDiv, Config.group]
  omega

/-- The cells after a run of sixteen zeros: zero in the run, and as before elsewhere. -/
theorem byte_setRun_zeros {m : Memory} (h : m.rising = true) (base a : Nat) :
    (m.setRun base (List.replicate 16 0#8)).byte a = if base ≤ a ∧ a < base + 16 then 0#8 else m.byte a := by
  rw [Memory.byte_setRun h, List.length_replicate]
  split_ifs with hin
  · exact List.getD_replicate _ (by omega)
  · rfl

/-- Settles O7: the group unit has its margin and its cells, and the zero group ends where it starts. -/
theorem grpZeroWritesSixteenZeros : Obligations.GrpZeroWritesSixteenZeros := by
  intro s hm hmargin hcells
  have hunit : groupUnit 0#2 s = .ok (afterDecodeGroup 0#2 s) :=
    groupUnit_eq_ok.2 ⟨⟨hmargin, le_refl _⟩, hcells, rfl⟩
  exact ⟨_, _, byte_setRun_zeros (plane_rising hm) _, congrArg Res.outcome hunit⟩

/-- Settles O33: the tag unit compares all of byte 0. -/
theorem frameTagIsComparedAndConsumed : Obligations.FrameTagIsComparedAndConsumed := by
  intro s hlen
  refine ⟨fun htag => ?_, fun htag => ?_⟩
  · exact congrArg Res.outcome ((tagUnit_eq s hlen).trans (if_pos htag))
  · exact congrArg Res.outcome ((tagUnit_eq s hlen).trans (if_neg htag))

/-- DECODE from a start the host may give ends as the body of a decode does. -/
theorem decode_of_startable {s : State} (h : s.startable = true) :
    exec .decode s = (decodeBody (beginBusy s)).outcome :=
  congrArg Res.outcome (decodeUnit_of_startable h)

/-- With a legal stride and length, a decode whose byte 0 is not the tag raises FormatError before anything moved
(R173, R197). -/
theorem decodeBody_of_wrongTag {s : State} (hstride : strideOk s.stride = true) (hlen : 1 + s.stride ≤ s.buflen)
    (htag : s.inByte 0 ≠ Config.tag) : decodeBody s = .raised .format s := by
  rw [decodeBody, if_pos hstride, if_pos hlen, tagUnit_eq s (by omega), if_neg htag, Res.bind_raised]

/-- Settles O36: the stride and the length pass, and the tag test raises. -/
theorem wrongTagIsAFormatError : Obligations.WrongTagIsAFormatError := by
  intro s hs h1 h2 h3 hlen htag
  have hbody := decodeBody_of_wrongTag (s := beginBusy s) ((strideOk_iff _).2 ⟨h1, h2, h3⟩) hlen htag
  rw [decode_of_startable hs, hbody]
  rfl

/-- Settles O41: the block loop raises only where its cursor, at most the room it may consume, has less than the margin
left. -/
theorem decodeWithRoomSucceeds : Obligations.DecodeWithRoomSucceeds := by
  intro s hs _ hframe hroom
  rw [decode_of_startable hs, decodeBody_of_frameOk (s := beginBusy s) hframe]
  have hready := seeded_ready (s := beginBusy s) ((frameOk_iff s).1 hframe).1
  rcases blockLoop_cases _ hready (Nat.zero_le _) rfl with ⟨t, hloop, -⟩ | ⟨t, -, -, hpos, hmargin⟩
  · refine ⟨finishDone t, ?_, rfl⟩
    rw [show blockLoop (seeded (beginBusy s)) = .ok t from hloop, Res.bind_ok, Res.outcome_ok]
  · change t.pos + 24 ≤ 1 + numBlocks s.count (blockSizeOf s.stride) * (s.stride * (4 + 24 * 16)) at hpos
    change s.buflen < t.pos + 32 at hmargin
    rw [Spec.mostConsumed, Nat.mul_assoc] at hroom
    omega

end Sys2Proof.Machine
end

section
/-! SUPPORT. A buffer's note (R90) against a decode (R70 to R73, R143, R146, R174, R178): the plane loop
follows the note's planes, the block loop its blocks. -/

namespace Sys2Proof.Machine

open Spec

/-! ### Values -/

/-- Byte `k` of the carry after `u` vertices of the whole decode: the trailer byte plus the deltas of the vertices below
`u` at that offset (R143, R156). -/
def carried (s : State) (f : FrameNote) (u k : Nat) : Byte :=
  (List.range u).foldl (fun acc v => acc + unzigzagByte (frameDelta s f v k)) (f.trailer.getD k 0)

theorem frameByte_eq_carried (s : State) (f : FrameNote) (v k : Nat) : frameByte s f v k = carried s f (v + 1) k := rfl

theorem carried_succ (s : State) (f : FrameNote) (u k : Nat) :
    carried s f (u + 1) k = carried s f u k + unzigzagByte (frameDelta s f u k) := by
  simp [carried, List.range_succ, List.foldl_append]

/-- The chain of a plane goes on from the carry with the deltas its cells hold (R142, R143). -/
theorem chainValue_carried {s : State} {f : FrameNote} {pl : Memory} {u k n : Nat}
    (h : ∀ t, t < n → pl.byte t = frameDelta s f (u + t) k) :
    chainValue pl (carried s f u k) 0 n = carried s f (u + n) k := by
  induction n with
  | zero => rfl
  | succ n ih =>
    rw [chainValue_succ, ih fun t ht => h t (by omega), Nat.zero_add, h n (by omega), ← Nat.add_assoc, carried_succ]

/-- Plane `k` of block `b` in the note of a buffer. -/
def planeNote (f : FrameNote) (b k : Nat) : PlaneNote := (f.blocks.getD b []).getD k ⟨[], 0⟩

/-- The deltas of block `b` are the values of its planes (R146, R178). -/
theorem frameDelta_of_block {s : State} {b t : Nat} (f : FrameNote) (k : Nat) (ht : t < blockSizeOf s.stride) :
    frameDelta s f (b * blockSizeOf s.stride + t) k = (planeNote f b k).values.getD t 0 := by
  have hdiv : (b * blockSizeOf s.stride + t) / blockSizeOf s.stride = b := by
    rw [Nat.mul_comm, Nat.mul_add_div (by omega), Nat.div_eq_of_lt ht, Nat.add_zero]
  rw [frameDelta, hdiv, Nat.mul_add_mod', Nat.mod_eq_of_lt ht]
  rfl

/-! ### The bytes of a buffer -/

theorem lastPart_length_le {α β : Type} (f : α → List β) (l : List α) :
    (lastPart f l).length ≤ (l.flatMap f).length := by
  cases l with
  | nil => exact Nat.zero_le _
  | cons x rest => simpa using partStart_add_lastPart_le f (l := x :: rest) (m := 0) (by simp)

/-- The last group of a plane is part of its bytes (R73). -/
theorem lastGroup_length_le (n : PlaneNote) :
    (lastPart (encodeGroup .msbFirst) n.groups).length ≤ (encodePlane .msbFirst n).length := by
  rw [encodePlane, List.length_append]
  exact le_trans (lastPart_length_le _ _) (Nat.le_add_left _ _)

theorem lt_numBlocks_iff {b count B : Nat} (hB : 1 ≤ B) : b < numBlocks count B ↔ b * B < count := by
  rw [numBlocks, ceilDiv, Nat.lt_iff_add_one_le, Nat.le_div_iff_mul_le hB, Nat.succ_mul]
  omega

/-- Where plane `q` of a buffer, counted in stream order, starts after the tag (R71, R72). -/
def planeOffset (f : FrameNote) (q : Nat) : Nat := partStart (encodePlane .msbFirst) f.blocks.flatten q

/-- The buffer of a note stands in IN for the operands of `s`, whose stride is legal (R70, R171). -/
structure FrameStands (s : State) (f : FrameNote) : Prop where
  stride : strideOk s.stride = true
  fits : FrameFits s f
  length : s.buflen = (encodeFrame .msbFirst f).length
  bytes : InHolds s 0 (encodeFrame .msbFirst f)

variable {s : State} {f : FrameNote}

theorem FrameStands.buflen (h : FrameStands s f) :
    s.buflen = 1 + (f.blocks.flatten.flatMap (encodePlane .msbFirst)).length + f.filler.length + s.stride + 1 := by
  obtain ⟨-, -, htrailer, -⟩ := h.fits
  rw [h.length, encodeFrame]
  simp only [List.length_append, List.length_cons, List.length_nil, htrailer]
  omega

/-- The tag at 0, the planes from 1 on, and the trailer in its place (R70, R71, R174). -/
theorem FrameStands.parts (h : FrameStands s f) :
    s.inByte 0 = Config.tag ∧ InHolds s 1 (f.blocks.flatten.flatMap (encodePlane .msbFirst)) ∧
      InHolds s (s.buflen - 1 - s.stride) f.trailer := by
  have hbytes := h.bytes
  have hlen := h.buflen
  rw [encodeFrame, inHolds_append, inHolds_append, inHolds_append, ← List.singleton_append, inHolds_append] at hbytes
  obtain ⟨⟨⟨⟨htag, hplanes⟩, -⟩, htrailer⟩, -⟩ := hbytes
  refine ⟨htag 0 (by simp), hplanes, ?_⟩
  rwa [show 0 + (([Config.tag] ++ f.blocks.flatten.flatMap (encodePlane .msbFirst)) ++ f.filler).length
    = s.buflen - 1 - s.stride by simp only [List.length_append, List.length_singleton]; omega] at htrailer

/-- Where block `b` starts among the planes in stream order: `S` planes to a block (R72). -/
theorem FrameStands.blockPlanes (h : FrameStands s f) {b : Nat} (hb : b ≤ f.blocks.length) :
    partStart id f.blocks b = b * s.stride := by
  obtain ⟨-, hblocks, -⟩ := h.fits
  refine partStart_of_length (fun x hx => ?_) hb
  obtain ⟨i, hi, rfl⟩ := List.getElem_of_mem hx
  simpa [hi] using (hblocks i hi).1

theorem FrameStands.planes_length (h : FrameStands s f) : f.blocks.flatten.length = f.blocks.length * s.stride := by
  rw [← h.blockPlanes (le_refl _), partStart_length, List.flatMap_id]

/-- Plane `k` of block `b` is number `b*S + k` in stream order (R71, R72). -/
theorem FrameStands.plane (h : FrameStands s f) {b k : Nat} (hb : b < f.blocks.length) (hk : k < s.stride) :
    ∃ hq : b * s.stride + k < f.blocks.flatten.length, f.blocks.flatten[b * s.stride + k] = planeNote f b k := by
  obtain ⟨-, hblocks, -⟩ := h.fits
  have hlen := (hblocks b hb).1
  rw [List.getD_eq_getElem _ _ hb] at hlen
  have hk' : k < (id f.blocks[b]).length := hlen.symm ▸ hk
  have hend := partStart_add_le id hb
  have hget := getD_flatMap id hb hk' ⟨[], 0⟩
  rw [List.flatMap_id, h.blockPlanes (Nat.le_of_lt hb)] at hend hget
  have hq : b * s.stride + k < f.blocks.flatten.length := by omega
  refine ⟨hq, ?_⟩
  rw [planeNote, List.getD_eq_getElem _ _ hb, ← List.getD_eq_getElem _ ⟨[], 0⟩ hq, hget]
  rfl

theorem FrameStands.planeOffset_succ (h : FrameStands s f) {b k : Nat} (hb : b < f.blocks.length) (hk : k < s.stride) :
    planeOffset f (b * s.stride + (k + 1))
      = planeOffset f (b * s.stride + k) + (encodePlane .msbFirst (planeNote f b k)).length := by
  obtain ⟨hq, hplane⟩ := h.plane hb hk
  rw [planeOffset, ← Nat.add_assoc, partStart_succ _ hq, hplane]
  rfl

/-- After plane `k` of block `b`, the margin of its last group is still there: in the planes after it, or at the end of
the last plane in the filler and the trailer (R124, R223). -/
theorem FrameStands.margin (h : FrameStands s f) {b k : Nat} (hb : b < f.blocks.length) (hk : k < s.stride) :
    1 + planeOffset f (b * s.stride + k) + (encodePlane .msbFirst (planeNote f b k)).length + 32
      ≤ s.buflen + (lastPart (encodeGroup .msbFirst) (planeNote f b k).groups).length := by
  obtain ⟨hq, hplane⟩ := h.plane hb hk
  obtain ⟨-, -, -, hlast⟩ := h.fits
  have hN := h.buflen
  rw [Nat.add_assoc 1, ← h.planeOffset_succ hb hk, ← Nat.add_assoc (b * s.stride), planeOffset]
  rcases Nat.lt_or_ge (b * s.stride + k + 1) f.blocks.flatten.length with hlt | hge
  · have hne : f.blocks.flatten ≠ [] := List.ne_nil_of_length_pos (by omega)
    obtain ⟨z, hz⟩ := Option.ne_none_iff_exists'.1 (mt List.getLast?_eq_none_iff.1 hne)
    have hroom := partStart_add_lastPart_le (encodePlane .msbFirst) hlt
    have hgroup := lastGroup_length_le z
    have := hlast z hz
    rw [lastPart, hz, Option.map_some, Option.getD_some] at hroom
    rw [lastPart] at hgroup
    omega
  · have hz : f.blocks.flatten.getLast? = some (planeNote f b k) := by
      rw [List.getLast?_eq_getElem?, ← hplane, ← List.getElem?_eq_getElem hq]
      congr 1
      omega
    have := hlast _ hz
    have hend := partStart_length (encodePlane .msbFirst) f.blocks.flatten
    rw [show b * s.stride + k + 1 = f.blocks.flatten.length by omega, hend]
    rw [lastPart]
    omega

/-- Where the cursor is at the start of plane `k` of block `b`, that plane stands there (R72, R73). -/
theorem FrameStands.planeStands (h : FrameStands s f) {b k : Nat} (hb : b < f.blocks.length) (hk : k < s.stride)
    {t : State} (hin : KeepsInputs s t) (hcnt : t.cnt = blockCount s b)
    (hpos : t.pos = 1 + planeOffset f (b * s.stride + k)) : PlaneStands t (planeNote f b k) := by
  obtain ⟨hq, hplane⟩ := h.plane hb hk
  obtain ⟨-, hblocks, -⟩ := h.fits
  obtain ⟨hlen, hnotes⟩ := hblocks b hb
  have hk' : k < (f.blocks.getD b []).length := by rwa [hlen]
  have hmem : planeNote f b k ∈ f.blocks.getD b [] := by
    rw [planeNote, List.getD_eq_getElem _ _ hk']
    exact List.getElem_mem hk'
  obtain ⟨hwf, hgroups⟩ := hnotes _ hmem
  refine ⟨hwf, ?_, ?_, ?_⟩
  · rw [hcnt, hgroups]
  · obtain ⟨-, hplanes, -⟩ := h.parts
    have hbytes := inHolds_part hplanes hq
    rw [hplane] at hbytes
    rw [hpos]
    exact inHolds_congr hbytes hin.inMem
  · rw [hpos, hin.buflen]
    exact h.margin hb hk

/-! ### The planes of a block -/

/-- `c` is at the start of block `b`: its count is set, the cursor is at its first plane, and the carry is that of the
vertices before it (R143, R178). -/
structure AtBlock (s : State) (f : FrameNote) (b : Nat) (c : State) : Prop where
  moves : DecodeMoves s c
  cnt : c.cnt = blockCount s b
  pos : c.pos = 1 + planeOffset f (b * s.stride)
  carry : ∀ k, k < s.stride → c.lastVertex.byte k = carried s f (b * blockSizeOf s.stride) k

/-- The plane loop of block `b`, started in `c`, stands before plane `k`: the columns of the planes before it are in
`tr` (R146, R153, R154). -/
structure PlanesDone (s : State) (f : FrameNote) (b : Nat) (c : State) (k : Nat) (u : State) : Prop where
  moves : BlockMoves c u
  plane : u.k = k
  pos : u.pos = 1 + planeOffset f (b * s.stride + k)
  cells : ∀ n k', n < c.cnt → k' < k →
    u.tr.byte (n * s.stride + k') = carried s f (b * blockSizeOf s.stride + n + 1) k'

/-- What the planes of a block leave as it was. -/
theorem BlockMoves.keeps {s t : State} (h : BlockMoves s t) :
    t.cnt = s.cnt ∧ t.lastVertex = s.lastVertex ∧ t.outMem = s.outMem ∧ t.voff = s.voff ∧
      t.blockSize = s.blockSize := by
  obtain ⟨⟨_, _, _, _, _, _, _, _, _, _, _, _, rfl⟩, -⟩ := h
  exact ⟨rfl, rfl, rfl, rfl, rfl⟩

theorem KeepsInputs.stride {s t : State} (h : KeepsInputs s t) : t.stride = s.stride := congrArg BitVec.toNat h.vstride

theorem KeepsInputs.count {s t : State} (h : KeepsInputs s t) : t.count = s.count := congrArg BitVec.toNat h.vcount

/-- Cells of two columns of a block's records differ (R154). -/
theorem column_ne {S k k' : Nat} (hk : k < S) (hk' : k' < S) (hne : k' ≠ k) (n m : Nat) :
    n * S + k' ≠ m * S + k := by
  intro h
  have := congrArg (· % S) h
  simp only [Nat.mul_add_mod', Nat.mod_eq_of_lt hk, Nat.mod_eq_of_lt hk'] at this
  exact hne this

/-- A byte of record `v` lies before record `m` where `v` does (R154). -/
theorem record_lt_iff {S k v m : Nat} (hk : k < S) : v * S + k < m * S ↔ v < m := by
  constructor
  · intro h
    exact lt_of_mul_lt_mul_right (lt_of_le_of_lt (Nat.le_add_right _ k) h) (Nat.zero_le S)
  · intro h
    have := Nat.mul_le_mul_right S (Nat.succ_le_of_lt h)
    rw [Nat.succ_mul] at this
    omega

theorem FrameStands.block_bounds (h : FrameStands s f) (b : Nat) :
    blockCount s b ≤ blockSizeOf s.stride ∧ blockCount s b ≤ 256 ∧ blockCount s b * s.stride ≤ 8192 := by
  obtain ⟨h1, h2, -⟩ := (strideOk_iff _).1 h.stride
  obtain ⟨-, hb2, hb3⟩ := blockSizeOf_fits h1 h2
  have hle : blockCount s b ≤ blockSizeOf s.stride := Nat.min_le_left _ _
  exact ⟨hle, by omega, le_trans (Nat.mul_le_mul_right _ hle) hb3⟩

theorem chainLoop_pos (n : Nat) (s : State) : (chainLoop n s).pos = s.pos := by
  obtain ⟨_, _, _, _, _, h⟩ := chainLoop_frame n s
  rw [h]

/-- DELTA where its cells exist: the column of the plane holds the chain of its values from the carry on, and the other
columns are as before (R142, R146, R154). -/
theorem deltaUnit_column {s : State} (hm : s.memoriesOk = true) (hk : s.k < s.stride) (hS : s.stride ≤ 256)
    (hcnt : s.cnt ≤ 256) (htr : s.cnt * s.stride ≤ 8192) :
    ∃ t, deltaUnit s = .ok t ∧ BlockMoves s t ∧ t.plane = s.plane ∧ t.pos = s.pos ∧ t.k = s.k ∧
      (∀ a, a < s.cnt → t.tr.byte (a * s.stride + s.k) = chainValue s.plane (s.lastVertex.byte s.k) 0 (a + 1)) ∧
      ∀ a k', k' < s.stride → k' ≠ s.k → t.tr.byte (a * s.stride + k') = s.tr.byte (a * s.stride + k') := by
  obtain ⟨hdelta, hmv⟩ := deltaUnit_returns hk hS hcnt htr
  have hrising : (openChain s).tr.rising = true := tr_rising hm
  refine ⟨_, hdelta, hmv, chainLoop_plane _ _, chainLoop_pos _ _, chainLoop_k _ _, fun a ha => ?_,
    fun a k' hk' hne => ?_⟩
  · have hcell := chainLoop_tr_cell hrising (Nat.zero_lt_of_lt hk) s.cnt a ha
    rwa [openChain_i, Nat.zero_add] at hcell
  · refine chainLoop_tr_other hrising s.cnt _ fun m _ => ?_
    rw [openChain_i, Nat.zero_add]
    exact column_ne hk hk' hne a m

/-- One turn of the plane loop on a plane that stands at the cursor: it is decoded, and its column of `tr` holds the
chain of its values from the carry on; the other columns are as before (R125, R142, R153). -/
theorem PlaneStands.planeTurn {u : State} {n : PlaneNote} (h : PlaneStands u n) (hm : u.memoriesOk = true)
    (hk : u.k < u.stride) (hS : u.stride ≤ 256) (hcnt : u.cnt ≤ 256) (htr : u.cnt * u.stride ≤ 8192) :
    ∃ w, Machine.planeTurn u = .ok w ∧ BlockMoves u w ∧ w.k = u.k + 1 ∧
      w.pos = u.pos + (encodePlane .msbFirst n).length ∧ (∀ a, a < u.cnt → w.plane.byte a = n.values.getD a 0) ∧
      (∀ a, a < u.cnt → w.tr.byte (a * u.stride + u.k) = chainValue w.plane (u.lastVertex.byte u.k) 0 (a + 1)) ∧
      ∀ a k', k' < u.stride → k' ≠ u.k → w.tr.byte (a * u.stride + k') = u.tr.byte (a * u.stride + k') := by
  obtain ⟨x, hx, hmv, -, hpos, hval⟩ := h.planeUnit (plane_wf hm)
  have hgroups := numGroups_eq u.cnt
  rw [h.groups] at hgroups
  have hxm := hmv.memoriesOk hm
  obtain ⟨⟨pl, pos, hdr, ov, j, g, rfl⟩, -⟩ := id hmv
  obtain ⟨t, hdelta, htmv, hplane, htpos, htk, hcolumn, hother⟩ := deltaUnit_column hxm hk hS hcnt htr
  refine ⟨_, planeTurn_eq_ok.2 ⟨_, t, hx, hdelta, rfl⟩, ?_, congrArg (· + 1) htk, htpos.trans hpos, fun a ha => ?_, ?_,
    hother⟩
  · exact hmv.blockMoves.trans (htmv.trans ⟨⟨_, _, _, _, _, _, _, _, _, _, _, _, rfl⟩, id⟩)
  · rw [hplane, hval, if_pos (by omega)]
  · rw [hplane]
    exact hcolumn

/-- One turn of the plane loop takes the next plane of the note and chains its deltas into its column (R142, R153,
R154). -/
theorem FrameStands.planeTurn (h : FrameStands s f) (hm : s.memoriesOk = true) {b k : Nat} (hb : b < f.blocks.length)
    (hk : k < s.stride) {c u : State} (hc : AtBlock s f b c) (hu : PlanesDone s f b c k u) :
    ∃ w, Machine.planeTurn u = .ok w ∧ PlanesDone s f b c (k + 1) w := by
  obtain ⟨hmv, hplane, hpos, hcells⟩ := hu
  obtain ⟨hcnt, hlast, -⟩ := hmv.keeps
  rw [hc.cnt] at hcnt hcells
  have hmoves := hc.moves.trans hmv.decodeMoves
  have hS := hmoves.keepsInputs.stride
  obtain ⟨hB, h256, h8192⟩ := h.block_bounds b
  obtain ⟨-, hS2, -⟩ := (strideOk_iff _).1 h.stride
  have hstands := h.planeStands hb hk hmoves.keepsInputs hcnt hpos
  obtain ⟨w, hw, hwmv, hwk, hwpos, hpl, hcolumn, hother⟩ :=
    hstands.planeTurn (hmoves.2 hm) (by omega) (by omega) (by omega) (by rw [hcnt, hS]; exact h8192)
  rw [hcnt] at hpl hcolumn
  rw [hplane, hS, hlast, hc.carry k hk] at hcolumn
  rw [hplane, hS] at hother
  refine ⟨w, hw, hmv.trans hwmv, by rw [hwk, hplane], ?_, fun n k' hn hk' => ?_⟩
  · rw [hwpos, hpos, h.planeOffset_succ hb hk, Nat.add_assoc]
  · rw [hc.cnt] at hn
    rcases Nat.eq_or_lt_of_le (Nat.le_of_lt_succ hk') with rfl | hlt
    · rw [hcolumn n hn, Nat.add_assoc]
      refine chainValue_carried fun t ht => ?_
      rw [hpl t (by omega), frameDelta_of_block f k' (by omega)]
    · rw [hother n k' (by omega) (by omega), hcells n k' hn hlt]

/-! ### The blocks -/

/-- The block loop stands before block `b`: the vertices of the blocks before it are in OUT, and the carry is theirs
(R146, R155, R156, R178). -/
structure BlocksDone (s : State) (f : FrameNote) (b : Nat) (t : State) : Prop where
  moves : DecodeMoves s t
  blockSize : t.blockSize = blockSizeOf s.stride
  voff : t.voff = min (b * blockSizeOf s.stride) s.count
  pos : t.pos = 1 + planeOffset f (b * s.stride)
  carry : ∀ k, k < s.stride → t.lastVertex.byte k = carried s f t.voff k
  out : ∀ v k, v < t.voff → k < s.stride → t.outMem.find (v * s.stride + k) = some (frameByte s f v k)

/-- The seeded carry is the trailer, with no vertex before it (R174, R175). -/
theorem FrameStands.seeded (h : FrameStands s f) (hm : s.memoriesOk = true) : BlocksDone s f 0 (seeded s) := by
  obtain ⟨-, hS, -⟩ := (strideOk_iff _).1 h.stride
  obtain ⟨-, -, htrailer, -⟩ := h.fits
  refine ⟨seeded_moves hS, rfl, ?_, ?_, fun k hk => ?_, fun v k hv => absurd hv (Nat.not_lt_zero v)⟩
  · rw [Nat.zero_mul, Nat.zero_min]
    rfl
  · rw [Nat.zero_mul, planeOffset, partStart_zero]
    rfl
  · change (s.lastVertex.setRun 0 (bytesUpTo s.stride s.trailerByte)).byte k = f.trailer.getD k 0
    rw [Memory.byte_setRun (lastVertex_rising hm), if_pos (by simpa using hk), Nat.sub_zero, bytesUpTo_getD _ _ _ hk]
    obtain ⟨-, -, hbytes⟩ := h.parts
    exact hbytes k (by omega)

/-- A block turn whose planes all return, returns with the block committed (R155, R156, R178). -/
theorem blockTurn_of_planes {t u : State} (hr : BlockReady t) (hv : t.voff < t.count)
    (hu : repeatUnit t.stride planeTurn { t with cnt := t.nextCount, k := 0 } = .ok u) :
    blockTurn t = .ok (advanceVoff (afterPlanes u)) := by
  rcases blockTurn_cases hr hv with ⟨u', t', ht, -, hu', rfl, -⟩ | ⟨t', ht, -⟩
  · rw [hu] at hu'
    cases hu'
    exact ht
  · rcases Res.bind_eq_raised.1 ht with hb | ⟨_, -, hb⟩
    · rw [blockUnit] at hb
      split_ifs at hb
      · cases hb
      · change (repeatUnit t.stride Machine.planeTurn { t with cnt := t.nextCount, k := 0 }).bind _ = _ at hb
        rw [hu, Res.bind_ok, Res.bind_eq_raised] at hb
        rcases hb with hb | ⟨_, -, hb⟩
        · exact absurd hb commitUnit_not_raised
        · exact absurd hb carryUnit_not_raised
    · cases hb

theorem FrameStands.blockSize_pos (h : FrameStands s f) : 1 ≤ blockSizeOf s.stride := by
  obtain ⟨h1, h2, -⟩ := (strideOk_iff _).1 h.stride
  exact (blockSizeOf_fits h1 h2).1

/-- Before block `b` the vertices of `b` whole blocks are out, and there are more to come (R178). -/
theorem FrameStands.vertices_left (h : FrameStands s f) {b : Nat} :
    b < f.blocks.length ↔ b * blockSizeOf s.stride < s.count := by
  obtain ⟨hblocks, -⟩ := h.fits
  rw [hblocks, lt_numBlocks_iff h.blockSize_pos]

/-- The planes of the next block of the note (R153). -/
theorem FrameStands.planeLoop (h : FrameStands s f) (hm : s.memoriesOk = true) {b : Nat} (hb : b < f.blocks.length)
    {c : State} (hc : AtBlock s f b c) (hk : c.k = 0) :
    ∃ u, repeatUnit s.stride Machine.planeTurn c = .ok u ∧ PlanesDone s f b c s.stride u := by
  have hstart : PlanesDone s f b c 0 c :=
    ⟨BlockMoves.refl c, hk, hc.pos, fun _ _ _ h0 => absurd h0 (Nat.not_lt_zero _)⟩
  obtain ⟨q, -, -, hq, hloop⟩ := repeatUnit_returns (P := PlanesDone s f b c) s.stride hstart
    fun k u hk hu => h.planeTurn hm hb hk hc hu
  exact ⟨q s.stride, hloop, hq _ (le_refl _)⟩

theorem FrameStands.voff_eq (h : FrameStands s f) {b : Nat} (hb : b < f.blocks.length) {t : State}
    (ht : BlocksDone s f b t) : t.voff = b * blockSizeOf s.stride ∧ t.voff < s.count := by
  have hlt := h.vertices_left.1 hb
  have hv : t.voff = b * blockSizeOf s.stride := by rw [ht.voff, Nat.min_eq_left (Nat.le_of_lt hlt)]
  exact ⟨hv, hv ▸ hlt⟩

/-- The copy and the carry update take the next block of the note to OUT (R155, R156, R178). -/
theorem FrameStands.afterBlock (h : FrameStands s f) (hm : s.memoriesOk = true) {b : Nat} (hb : b < f.blocks.length)
    {t u : State} (ht : BlocksDone s f b t) (hu : PlanesDone s f b { t with cnt := t.nextCount, k := 0 } s.stride u)
    (hmv : DecodeMoves t (advanceVoff (afterPlanes u))) : BlocksDone s f (b + 1) (advanceVoff (afterPlanes u)) := by
  obtain ⟨hplanes, -, hpos, hcells⟩ := hu
  obtain ⟨hcnt, -, hout, hvoff, hbs⟩ := hplanes.keeps
  obtain ⟨hv, hlt⟩ := h.voff_eq hb ht
  have hin := (ht.moves.trans hmv).keepsInputs
  have hS : u.stride = s.stride := hin.stride
  have hB := h.blockSize_pos
  have hnext : t.nextCount = min (blockSizeOf s.stride) (s.count - t.voff) := by
    rw [State.nextCount, ht.blockSize, ht.moves.keepsInputs.count]
  simp only at hcnt hout hvoff hbs hcells
  have hrising : u.lastVertex.rising = true := lastVertex_rising (hplanes.2 (ht.moves.2 hm))
  refine ⟨ht.moves.trans hmv, ?_, ?_, ?_, fun k hk => ?_, fun v k hv' hk => ?_⟩
  · exact hbs.trans ht.blockSize
  · rw [advanceVoff_voff]
    change u.voff + u.cnt = _
    rw [hvoff, hcnt, hnext, Nat.succ_mul]
    omega
  · rw [Nat.succ_mul]
    exact hpos
  · change (afterPlanes u).lastVertex.byte k = carried s f (u.voff + u.cnt) k
    rw [afterPlanes_carry hrising (hS ▸ hk), hS, hcells _ k (by omega) hk, ← hv, hvoff, hcnt, Nat.add_assoc,
      Nat.sub_add_cancel (by omega)]
  · change v < u.voff + u.cnt at hv'
    change (afterPlanes u).outMem.find (v * s.stride + k) = _
    rw [afterPlanes_find, hS, hvoff, hcnt]
    rcases Nat.lt_or_ge v t.voff with hold | hnew
    · have hbefore := (record_lt_iff hk).2 hold
      rw [if_neg (by omega), hout, ht.out v k hold hk]
    · obtain ⟨n, rfl⟩ := Nat.exists_eq_add_of_le hnew
      have hn : n < t.nextCount := by omega
      have hend := (record_lt_iff (m := t.voff + t.nextCount) hk).2 (by omega : t.voff + n < _)
      rw [Nat.add_mul t.voff n] at hend ⊢
      rw [if_pos ⟨by omega, hend⟩, Nat.add_assoc, Nat.add_sub_cancel_left, hcells n k hn hk, ← hv,
        frameByte_eq_carried]

/-- One turn of the block loop takes the next block of the note (R178). -/
theorem FrameStands.blockTurn (h : FrameStands s f) (hm : s.memoriesOk = true) {b : Nat} (hb : b < f.blocks.length)
    {t : State} (ht : BlocksDone s f b t) : ∃ w, Machine.blockTurn t = .ok w ∧ BlocksDone s f (b + 1) w := by
  obtain ⟨hv, hlt⟩ := h.voff_eq hb ht
  have hin := ht.moves.keepsInputs
  have hready : BlockReady t := by
    obtain ⟨hS1, hS2, -⟩ := (strideOk_iff _).1 h.stride
    rw [BlockReady, ht.blockSize, hin.stride]
    exact ⟨hS1, hS2, rfl⟩
  have hc : AtBlock s f b { t with cnt := t.nextCount, k := 0 } := by
    refine ⟨ht.moves.trans ⟨⟨_, _, _, _, _, _, _, _, _, _, _, _, _, _, _, _, _, rfl⟩, id⟩, ?_, ht.pos,
      fun k hk => ?_⟩
    · change min t.blockSize (t.count - t.voff) = blockCount s b
      rw [ht.blockSize, hin.count, hv]
      rfl
    · exact (ht.carry k hk).trans (by rw [hv])
  obtain ⟨u, hloop, hu⟩ := h.planeLoop hm hb hc rfl
  have hturn := blockTurn_of_planes hready (by rw [hin.count]; exact hlt) (by rw [hin.stride]; exact hloop)
  exact ⟨_, hturn, h.afterBlock hm hb ht hu ((blockTurn_moves t).of_ok hturn)⟩

/-- The block loop takes all blocks of the note (R178). -/
theorem FrameStands.blockLoop (h : FrameStands s f) (hm : s.memoriesOk = true) :
    ∃ t, Machine.blockLoop (Machine.seeded s) = .ok t ∧ BlocksDone s f f.blocks.length t := by
  obtain ⟨q, -, -, hq, hloop⟩ := repeatUnit_returns (P := BlocksDone s f) f.blocks.length (h.seeded hm)
    fun b t hb ht => h.blockTurn hm hb ht
  obtain ⟨hblocks, -⟩ := h.fits
  refine ⟨q f.blocks.length, ?_, hq _ (le_refl _)⟩
  rw [← hloop, hblocks]
  rfl

/-- Settles O6: the block loop takes the note's blocks one by one, and with the last of them every vertex is out. -/
theorem frameNotationIsDecoded : Obligations.FrameNotationIsDecoded := by
  intro s f hs hm hstride hfits hlen hbytes
  have h : FrameStands (beginBusy s) f := ⟨hstride, hfits, hlen, hbytes⟩
  obtain ⟨t, hloop, ht⟩ := h.blockLoop hm
  obtain ⟨htag, -, -⟩ := h.parts
  have hframe : (beginBusy s).frameOk = true := (frameOk_iff _).2 ⟨hstride, by rw [h.buflen]; omega, htag⟩
  have hall : s.count ≤ f.blocks.length * blockSizeOf s.stride :=
    Nat.le_of_not_lt (mt h.vertices_left.2 (lt_irrefl _))
  have hvoff : t.voff = s.count := ht.voff.trans (Nat.min_eq_right hall)
  refine ⟨finishDone t, ?_, rfl, ?_, fun v k hv hk => ht.out v k (hvoff.symm ▸ hv) hk⟩
  · rw [decode_of_startable hs, decodeBody_of_frameOk hframe, hloop, Res.bind_ok, Res.outcome_ok]
  · rw [finishDone_pos, ht.pos, ← h.planes_length, planeOffset, partStart_length]

end Sys2Proof.Machine
end

section
/-! SUPPORT. One group (R100 to R111): what a group unit leaves in the plane and where its cursors end, and what the
four code units do to a lane. -/

namespace Sys2Proof.Machine

open Spec

/-! ### Lanes and escapes -/

theorem escapes_succ (code : Nat → Nat) (sentinel n : Nat) :
    escapes code sentinel (n + 1) = escapes code sentinel n + if code n = sentinel then 1 else 0 := by
  simp [escapes, List.range_succ]

theorem escapes_le (code : Nat → Nat) (sentinel n : Nat) : escapes code sentinel n ≤ n := by
  simpa [escapes] using List.countP_le_length (p := fun j => code j == sentinel) (l := List.range n)

/-- The escapes from lane 0 on are counted by the codes the index formula gives (R80, R107). -/
theorem escapesFrom_zero (o : CodeOrder) (b : Nat) (rd : Nat → Byte) (pos n : Nat) :
    escapesFrom o b rd pos 0 n = escapes (fun j => laneCode o b (rd (pos + j / (8 / b))) j) (2 ^ b - 1) n := by
  simp [escapesFrom, escapes]

/-- The code of lane `j` of a packed group at the payload cursor, at either width (R80). -/
def groupCode (b : CodeWidth) (s : State) (j : Nat) : Nat :=
  laneCode .msbFirst b.bits (s.inByte (s.pos + j / (8 / b.bits))) j

theorem code2_eq_groupCode (s : State) : code2 s = groupCode .two s := by
  funext j
  have hshift : 6 - 2 * (j % 4) = 8 - 2 * (j % 4 + 1) := by omega
  rw [code2, hshift]
  rfl

theorem code4_eq_groupCode (s : State) : code4 s = groupCode .four s := by
  funext j
  have hshift : 4 - 4 * (j % 2) = 8 - 4 * (j % 2 + 1) := by omega
  rw [code4, hshift]
  rfl

/-- The value of lane `j` of a packed group at the payload cursor, at either width (R105, R106). -/
def groupLane (b : CodeWidth) (s : State) (j : Nat) : Byte :=
  laneValue s (2 * b.bits) (groupCode b s) (2 ^ b.bits - 1) j

/-- Where the overflow cursor of a packed group stands after `n` lanes (R32, R109). -/
def groupOv (b : CodeWidth) (s : State) (n : Nat) : Nat :=
  s.pos + 2 * b.bits + escapes (groupCode b s) (2 ^ b.bits - 1) n

/-- The literals taken by the lanes of a packed group lie within the group's margin (R82, R108). -/
theorem groupOv_lt_margin (b : CodeWidth) (s : State) {n : Nat} (hn : n ≤ 16) : groupOv b s n < s.pos + 32 := by
  have hle := escapes_le (groupCode b s) (2 ^ b.bits - 1) n
  cases b <;> simp only [groupOv, CodeWidth.bits] at hle ⊢ <;> omega

/-! ### A packed group -/

theorem decodeGroup_packed {w : BitVec 2} (hw : isPacked w = true) (o : CodeOrder) (rd : Nat → Byte) (pos : Nat) :
    decodeGroup o w rd pos = packedGroup o (selectorWidth w) rd pos := by
  rcases selector_cases w with rfl | rfl | rfl | rfl
  · cases hw
  · rfl
  · rfl
  · cases hw

/-- A packed group's lanes and its end, in the words of R105 to R109. -/
theorem packedGroup_lanes (b : CodeWidth) (s : State) :
    (packedGroup .msbFirst b s.inByte s.pos).1.length = 16 ∧
    (packedGroup .msbFirst b s.inByte s.pos).2 = groupOv b s 16 ∧
    ∀ j, j < 16 → (packedGroup .msbFirst b s.inByte s.pos).1.getD j 0#8 = groupLane b s j := by
  obtain ⟨hlen, hend, hlanes⟩ := packedGroup_spec .msbFirst b s.inByte s.pos
  simp only [escapesFrom_zero] at hend hlanes
  exact ⟨hlen, hend, hlanes⟩

/-! ### A group unit -/

/-- Sixteen bytes written from the first cell of group `g` on are the group's cells (R125). -/
theorem holdsGroup_setRun {m : Memory} (h : m.rising = true) {g : Nat} {l : List Byte} {val : Nat → Byte}
    (hlen : l.length = 16) (hval : ∀ j, j < 16 → l.getD j 0#8 = val j) : HoldsGroup (m.setRun (16 * g) l) m g val := by
  intro a
  rw [Memory.byte_setRun h, hlen]
  split_ifs with ha
  · exact hval _ (by omega)
  · rfl

/-- With its margin and its cells a group unit returns (R108, R125). -/
theorem groupUnit_returns {s : State} (w : BitVec 2) (hmargin : s.pos + 32 ≤ s.buflen) (hcells : 16 * s.g + 16 ≤ 256) :
    groupUnit w s = .ok (afterDecodeGroup w s) :=
  groupUnit_eq_ok.2 ⟨⟨hmargin, le_refl _⟩, hcells, rfl⟩

/-- After a packed group its cells hold the lanes' values (R102, R103, R125). -/
theorem afterDecodeGroup_holdsLanes {s : State} (hm : s.memoriesOk = true) {w : BitVec 2} (hw : isPacked w = true) :
    HoldsGroup (afterDecodeGroup w s).plane s.plane s.g (groupLane (selectorWidth w) s) := by
  obtain ⟨hlen, -, hlanes⟩ := packedGroup_lanes (selectorWidth w) s
  rw [← decodeGroup_packed hw] at hlen hlanes
  exact holdsGroup_setRun (plane_rising hm) hlen hlanes

/-- DecodeGroup ends a packed group past its last literal (R32, R107). -/
theorem decodeGroup_packed_end (s : State) {w : BitVec 2} (hw : isPacked w = true) :
    (decodeGroup Config.codeOrder w s.inByte s.pos).2 = groupOv (selectorWidth w) s 16 := by
  obtain ⟨-, hend, -⟩ := packedGroup_lanes (selectorWidth w) s
  rw [decodeGroup_packed hw, hend]

/-- A packed group moves the plane, the two cursors and the lane counter. -/
theorem afterDecodeGroup_packed (s : State) {w : BitVec 2} (hw : isPacked w = true) :
    afterDecodeGroup w s = { s with
      plane := (afterDecodeGroup w s).plane
      pos := groupOv (selectorWidth w) s 16
      ov := groupOv (selectorWidth w) s 16
      j := 16 } := by
  rw [afterDecodeGroup, if_pos hw, decodeGroup_packed_end s hw]

/-- A packed group's unit with its margin and its cells, as R102, R103 and R109 say. -/
theorem groupUnit_packed {s : State} (hm : s.memoriesOk = true) (hmargin : s.pos + 32 ≤ s.buflen)
    (hcells : 16 * s.g + 16 ≤ 256) {w : BitVec 2} (hw : isPacked w = true) :
    ∃ pl j, HoldsGroup pl s.plane s.g (groupLane (selectorWidth w) s) ∧ groupUnit w s = .ok { s with
      plane := pl
      pos := groupOv (selectorWidth w) s 16
      ov := groupOv (selectorWidth w) s 16
      j := j } :=
  ⟨_, _, afterDecodeGroup_holdsLanes hm hw,
    (groupUnit_returns w hmargin hcells).trans (congrArg Res.ok (afterDecodeGroup_packed s hw))⟩

/-- Settles O8: the packed group unit at width 2. -/
theorem grpPack2DecodesItsLanes : Obligations.GrpPack2DecodesItsLanes := by
  intro s hm hmargin hcells
  rw [code2_eq_groupCode]
  obtain ⟨pl, j, hpl, hunit⟩ := groupUnit_packed hm hmargin hcells (w := 1#2) rfl
  exact ⟨pl, j, hpl, congrArg Res.outcome hunit⟩

/-- Settles O9: the packed group unit at width 4. -/
theorem grpPack4DecodesItsLanes : Obligations.GrpPack4DecodesItsLanes := by
  intro s hm hmargin hcells
  rw [code4_eq_groupCode]
  obtain ⟨pl, j, hpl, hunit⟩ := groupUnit_packed hm hmargin hcells (w := 2#2) rfl
  exact ⟨pl, j, hpl, congrArg Res.outcome hunit⟩

/-- Settles O10: the sixteen bytes from the cursor on are the group's values. -/
theorem grpRawCopiesSixteenBytes : Obligations.GrpRawCopiesSixteenBytes := by
  intro s hm hmargin hcells
  refine ⟨(afterDecodeGroup 3#2 s).plane, 16,
    holdsGroup_setRun (plane_rising hm) (bytesUpTo_length 16 _) fun j hj => ?_,
    congrArg Res.outcome (groupUnit_returns 3#2 hmargin hcells)⟩
  exact bytesUpTo_getD 16 (fun j => s.inByte (s.pos + j)) j hj 0#8

/-- Settles O13: every selector's instruction is its group unit, which asks for the margin first. -/
theorem groupWithoutMarginIsRefused : Obligations.GroupWithoutMarginIsRefused := by
  intro s w i hi hmargin
  obtain ⟨i', hi', hexec⟩ := exec_selector w
  obtain rfl : i' = i := Except.ok.inj (hi'.symm.trans hi)
  have hno : ¬ (s.pos + Config.tailMax ≤ s.inputEnd ∧ s.inputEnd ≤ s.buflen) := fun h =>
    absurd h.1 (Nat.not_le.2 hmargin)
  rw [hexec, groupUnit, if_neg hno, Res.outcome_refused]

/-! ### DecodeGroup as a function of the bytes read -/

/-- Settles O11, by the selector. -/
theorem groupLengthIsItsCodesAndEscapes : Obligations.GroupLengthIsItsCodesAndEscapes := by
  intro o w rd pos
  refine ⟨(decodeGroup_bounds o w rd pos).1, ?_⟩
  rcases selector_cases w with rfl | rfl | rfl | rfl
  · exact ⟨0, Nat.zero_le _, fun _ => rfl, nofun, nofun, nofun⟩
  · obtain ⟨-, hend, -⟩ := packedGroup_two o rd pos
    rw [escapesFrom_zero] at hend
    exact ⟨_, escapes_le _ _ 16, nofun, fun _ => ⟨hend, rfl⟩, nofun, nofun⟩
  · obtain ⟨-, hend, -⟩ := packedGroup_four o rd pos
    rw [escapesFrom_zero] at hend
    exact ⟨_, escapes_le _ _ 16, nofun, nofun, fun _ => ⟨hend, rfl⟩, nofun⟩
  · exact ⟨0, Nat.zero_le _, nofun, nofun, nofun, fun _ => rfl⟩

/-- A packed group depends on its code bytes and the literals up to its end (R108, R111). -/
theorem packedGroup_congr (o : CodeOrder) (b : CodeWidth) {rd rd' : Nat → Byte} {pos : Nat}
    (h : ∀ a, pos ≤ a → a < (packedGroup o b rd pos).2 → rd' a = rd a) :
    packedGroup o b rd' pos = packedGroup o b rd pos := by
  obtain ⟨-, hend, -⟩ := packedGroup_spec o b rd pos
  refine packedLanes_congr o b.bits rd rd' pos 16 0 (pos + 2 * b.bits) (fun m _ hm => ?_) fun a ha => ?_
  · have hcode : m / (8 / b.bits) < 2 * b.bits := by cases b <;> simp only [CodeWidth.bits] <;> omega
    exact h _ (Nat.le_add_right _ _) (by omega)
  · exact h a (by omega)

theorem bytesUpTo_congr {n : Nat} {f f' : Nat → Byte} (h : ∀ a, a < n → f' a = f a) : bytesUpTo n f' = bytesUpTo n f :=
  List.map_congr_left fun a ha => h a (List.mem_range.1 ha)

theorem rawGroup_congr {rd rd' : Nat → Byte} {pos : Nat}
    (h : ∀ a, pos ≤ a → a < (rawGroup rd pos).2 → rd' a = rd a) : rawGroup rd' pos = rawGroup rd pos := by
  rw [rawGroup, rawGroup, bytesUpTo_congr fun j hj => h (pos + j) (Nat.le_add_right _ _) (Nat.add_lt_add_left hj pos)]

/-- Settles O12, by the selector. -/
theorem groupReadsOnlyWhatItConsumes : Obligations.GroupReadsOnlyWhatItConsumes := by
  intro o w rd rd' pos h
  rcases selector_cases w with rfl | rfl | rfl | rfl
  · rfl
  · exact packedGroup_congr o .two h
  · exact packedGroup_congr o .four h
  · exact rawGroup_congr h

/-! ### The code units -/

/-- A lane's write returns where its cell exists, and only that cell changes (R105, R125). -/
theorem writeLane_returns {s : State} (hm : s.memoriesOk = true) (hcell : 16 * s.g + s.j < 256) (x : Byte) :
    ∃ pl, writeLane x s = .ok { s with plane := pl } ∧
      ∀ a, pl.byte a = if a = 16 * s.g + s.j then x else s.plane.byte a :=
  ⟨_, writeLane_eq_ok.2 ⟨hcell, rfl⟩, fun a => Memory.byte_setByte (plane_rising hm) _ a x⟩

/-- Settles O14: both literal units write the lane. -/
theorem literalCodeIsTheLaneValue : Obligations.LiteralCodeIsTheLaneValue := by
  refine ⟨fun s v hm _ hcell => ?_, fun s v hm _ hcell => ?_⟩
  · obtain ⟨pl, hunit, hpl⟩ := writeLane_returns hm hcell (v.setWidth 8)
    exact ⟨pl, congrArg Res.outcome hunit, hpl⟩
  · obtain ⟨pl, hunit, hpl⟩ := writeLane_returns hm hcell (v.setWidth 8)
    exact ⟨pl, congrArg Res.outcome hunit, hpl⟩

/-- Settles O15: both escape units take the byte at the overflow cursor. -/
theorem escapeCodeTakesTheNextLiteral : Obligations.EscapeCodeTakesTheNextLiteral := by
  intro s i hi hm hov hcell
  have hunit := escapeLane_eq_ok.2 ⟨hov, hcell, rfl⟩
  refine ⟨_, ?_, fun a => Memory.byte_setByte (plane_rising hm) _ a _⟩
  rcases hi with rfl | rfl
  · exact congrArg Res.outcome hunit
  · exact congrArg Res.outcome hunit

end Sys2Proof.Machine
end

section
/-! SUPPORT. A packed group taken code by code against the group taken whole (R109, R110, R231): after `n` code steps
the lanes below `n` are done, and the bit cursor and the overflow cursor stand before lane `n`. -/

namespace Sys2Proof.Machine

open Spec

/-! ### One code -/

/-- The state after the unit of a code: its lane holds the code or, for the sentinel, the next literal, which is taken
(R105, R106). -/
def afterCode (b : CodeWidth) (code : Nat) (s : State) : State :=
  { s with
    plane := s.plane.setByte (16 * s.g + s.j)
      (if code = 2 ^ b.bits - 1 then s.inByte s.ov else BitVec.ofNat 8 code)
    ov := s.ov + if code = 2 ^ b.bits - 1 then 1 else 0 }

/-- The unit a code's bits stand for returns, where the lane's cell and a literal to take exist (R81, R105, R106). -/
theorem exec_code (b : CodeWidth) {code : Nat} (hc : code < 2 ^ b.bits) :
    ∃ i, decode (rawCode b code) = .ok i ∧ ∀ s, 16 * s.g + s.j < 256 → s.ov < s.buflen →
      exec i s = .next (afterCode b code s) := by
  obtain ⟨i, hi, hexec⟩ := rawCode_unit b code hc
  refine ⟨i, hi, fun s hcell hov => ?_⟩
  rw [hexec, afterCode]
  split_ifs
  · exact congrArg Res.outcome (escapeLane_eq_ok.2 ⟨hov, hcell, rfl⟩)
  · exact congrArg Res.outcome (writeLane_eq_ok.2 ⟨hcell, rfl⟩)

/-- Loading a code byte moves the bit cursor only (R110). -/
theorem loadCodeByte_frame {s t : State} (h : loadCodeByte s = .ok t) :
    ∃ x c n, t = { s with inputByte := x, codeCursor := c, bitsConsumed := n } := by
  rcases loadCodeByte_cases s with ⟨-, -, hl⟩ | ⟨-, hl⟩ | ⟨-, hl⟩ <;> cases hl.symm.trans h
  · exact ⟨s.inputByte, s.codeCursor, s.bitsConsumed, rfl⟩
  · exact ⟨_, _, _, rfl⟩

/-- A code step: the code at the front of the bit cursor is taken, its unit run, and the loop goes to the next lane
(R110, R231). -/
theorem step_code {s t : State} {b : CodeWidth} (hp : s.phase = .code b) (hload : loadCodeByte s = .ok t)
    (hc : t.frontCode b < 2 ^ b.bits) (hcell : 16 * s.g + s.j < 256) (hov : s.ov < s.buflen) :
    step s = .next (afterLane (afterCode b (t.frontCode b) (dropCode b t))) := by
  obtain ⟨i, hi, hexec⟩ := exec_code b hc
  have hfetch : fetch s = .run i (dropCode b t) := by
    rw [fetch_code hp, fetchCode, hload]
    simp only [fetchUnit, hi]
  have hloaded : t.phase = .code b ∧ 16 * t.g + t.j < 256 ∧ t.ov < t.buflen := by
    obtain ⟨_, _, _, rfl⟩ := loadCodeByte_frame hload
    exact ⟨hp, hcell, hov⟩
  obtain ⟨hphase, hcell, hov⟩ := hloaded
  have hphase : (afterCode b (t.frontCode b) (dropCode b t)).phase = .code b := hphase
  rw [step_of_run hfetch, hexec (dropCode b t) hcell hov, resume_next (by rw [hphase]; nofun), advance, hphase]

/-! ### The codes of a group -/

/-- `t` is `s` with nothing moved but what a packed group's codes move (R42, R109, R110). -/
def CodeMoves (s t : State) : Prop :=
  ∃ pl ov j x c n, t = { s with
    plane := pl, ov := ov, j := j, inputByte := x, codeCursor := c, bitsConsumed := n }

theorem CodeMoves.trans {s t u : State} (h1 : CodeMoves s t) (h2 : CodeMoves t u) : CodeMoves s u := by
  obtain ⟨_, _, _, _, _, _, rfl⟩ := h1
  obtain ⟨_, _, _, _, _, _, rfl⟩ := h2
  exact ⟨_, _, _, _, _, _, rfl⟩

/-- `t` is reached from a packed group of `s`, opened at its cursor, with the lanes below `n` done: they are in `plane`,
and the bit cursor and the overflow cursor stand before lane `n` (R109, R110). -/
structure LanesDone (b : CodeWidth) (s : State) (n : Nat) (t : State) : Prop where
  moves : CodeMoves (openCodes b s) t
  rising : t.plane.rising = true
  cursor : CursorAt b (openCodes b s) n t
  ov : t.ov = groupOv b s n
  lanes : ∀ a, t.plane.byte a
    = if 16 * s.g ≤ a ∧ a < 16 * s.g + n then groupLane b s (a - 16 * s.g) else s.plane.byte a

/-- One more byte of a run, written behind the bytes written so far. -/
theorem byte_setByte_next {m m0 : Memory} (h : m.rising = true) {base n : Nat} {val : Nat → Byte}
    (hval : ∀ a, m.byte a = if base ≤ a ∧ a < base + n then val (a - base) else m0.byte a) (a : Nat) :
    (m.setByte (base + n) (val n)).byte a
      = if base ≤ a ∧ a < base + (n + 1) then val (a - base) else m0.byte a := by
  rw [Memory.byte_setByte h, hval]
  by_cases ha : a = base + n
  · rw [if_pos ha, if_pos (by omega), ha, Nat.add_sub_cancel_left]
  · rw [if_neg ha]
    exact if_congr (by omega) rfl rfl

variable {b : CodeWidth} {s t : State} {n : Nat}

theorem lanesDone_start (b : CodeWidth) (hm : s.memoriesOk = true) : LanesDone b s 0 (openCodes b s) where
  moves := ⟨_, _, _, _, _, _, rfl⟩
  rising := plane_rising hm
  cursor := CursorAt.start rfl
  ov := rfl
  lanes _ := (if_neg (by omega)).symm

/-- The lane counter is the loop's own (log 16). -/
theorem LanesDone.setLane (h : LanesDone b s n t) (j : Nat) : LanesDone b s n { t with j := j } where
  moves := h.moves.trans ⟨_, _, _, _, _, _, rfl⟩
  rising := h.rising
  cursor := h.cursor
  ov := h.ov
  lanes := h.lanes

/-- The unit of code `n`, with the cursor past it, does lane `n` (R105, R106, R109). -/
theorem LanesDone.afterCode (h : LanesDone b s n t) (hj : t.j = n) {u : State} (hload : loadCodeByte t = .ok u)
    (hu : CodeLoaded b (openCodes b s) n u) :
    LanesDone b s (n + 1) (afterCode b (groupCode b s n) (dropCode b u)) := by
  obtain ⟨x, c, k, rfl⟩ := loadCodeByte_frame hload
  obtain ⟨hmv, hrising, -, hov, hlanes⟩ := h
  have hg : t.g = s.g := by obtain ⟨_, _, _, _, _, _, rfl⟩ := hmv; rfl
  have hin : t.inByte t.ov = s.inByte (groupOv b s n) := by
    rw [hov]; obtain ⟨_, _, _, _, _, _, rfl⟩ := hmv; rfl
  refine ⟨hmv.trans ⟨_, _, _, _, _, _, rfl⟩, Memory.rising_setByte hrising _ _, hu.drop, ?_, fun a => ?_⟩
  · change t.ov + _ = _
    rw [hov, groupOv, groupOv, escapes_succ, Nat.add_assoc]
  · rw [← byte_setByte_next hrising hlanes, ← hg]
    change (t.plane.setByte (16 * t.g + t.j) (if _ then t.inByte t.ov else _)).byte a = _
    rw [hin, hj]
    rfl

/-- A code step takes the next lane. -/
theorem LanesDone.step (h : LanesDone b s n t) (hj : t.j = n) (hn : n < 16) (hmargin : s.pos + 32 ≤ s.buflen)
    (hcells : 16 * s.g + 16 ≤ 256) :
    ∃ u, Machine.step t = .next (afterLane u) ∧ LanesDone b s (n + 1) u ∧ u.j = n := by
  have hbyte : n / (8 / b.bits) < 32 := by cases b <;> simp only [CodeWidth.bits] <;> omega
  obtain ⟨u, hload, hu⟩ := h.cursor.load (by simp only [openCodes_codeCursor, openCodes_buflen]; omega)
  have hcode : u.frontCode b = groupCode b s n := hu.frontCode
  have hfields : t.phase = .code b ∧ t.g = s.g ∧ t.buflen = s.buflen := by
    obtain ⟨_, _, _, _, _, _, rfl⟩ := h.moves
    exact ⟨rfl, rfl, rfl⟩
  obtain ⟨hphase, hg, hN⟩ := hfields
  have hov := groupOv_lt_margin b s (Nat.le_of_lt hn)
  have hstep := step_code hphase hload (by rw [hcode]; exact laneCode_lt _ _ _ _) (by omega) (by rw [h.ov]; omega)
  rw [hcode] at hstep
  refine ⟨_, hstep, h.afterCode hj hload hu, ?_⟩
  obtain ⟨x, c, k, rfl⟩ := loadCodeByte_frame hload
  exact hj

/-- Before the last lane, `n` code steps have done the lanes below `n`. -/
theorem runSteps_codes (hm : s.memoriesOk = true) (hmargin : s.pos + 32 ≤ s.buflen) (hcells : 16 * s.g + 16 ≤ 256)
    (hn : n < 16) : ∃ t, runSteps n (openCodes b s) = .next t ∧ LanesDone b s n t ∧ t.j = n := by
  induction n with
  | zero => exact ⟨_, rfl, lanesDone_start b hm, rfl⟩
  | succ n ih =>
    obtain ⟨t, hrun, ht, hj⟩ := ih (by omega)
    obtain ⟨u, hstep, hu, huj⟩ := ht.step hj (by omega) hmargin hcells
    have hnext : afterLane u = { u with j := n + 1 } := by
      rw [afterLane, huj, if_pos hn]
    refine ⟨{ u with j := n + 1 }, ?_, hu.setLane _, rfl⟩
    rw [runSteps_add n 1 hrun, runSteps_succ 0 hstep, hnext]
    rfl

/-- The sixteenth code step does the last lane and ends the group (R32, R102, R103). -/
theorem runSteps_group (b : CodeWidth) (hm : s.memoriesOk = true) (hmargin : s.pos + 32 ≤ s.buflen)
    (hcells : 16 * s.g + 16 ≤ 256) :
    ∃ u, LanesDone b s 16 u ∧
      runSteps 16 (openCodes b s) = .next (afterGroup { u with j := 16, pos := u.ov, g := u.g + 1 }) := by
  obtain ⟨t, hrun, ht, hj⟩ := runSteps_codes (b := b) hm hmargin hcells (n := 15) (by decide)
  obtain ⟨u, hstep, hu, huj⟩ := ht.step hj (by decide) hmargin hcells
  have hlast : afterLane u = afterGroup { u with j := 16, pos := u.ov, g := u.g + 1 } := by
    rw [afterLane, huj, if_neg (by decide)]
  refine ⟨u, hu, ?_⟩
  rw [runSteps_add 15 1 hrun, runSteps_succ 0 hstep, hlast]
  rfl

/-! ### The group -/

/-- At the lane grain a packed group is opened to be taken code by code (log 1). -/
theorem step_openCodes (hp : s.phase = .grDec) (hgrain : s.grain = .lane) (hw : isPacked s.selector = true)
    (hsel : s.selectorOffset < s.buflen) : step s = .next (openCodes (selectorWidth s.selector) s) := by
  rcases fetchGroup_eq hsel with ⟨-, -, hfetch⟩ | ⟨hno, -⟩
  · exact step_of_moved ((fetch_grDec hp).trans hfetch)
  · exact absurd ⟨hgrain, hw⟩ hno

/-- At a coarser grain the group is one unit, and its loop goes to the next group (R231). -/
theorem step_group (hp : s.phase = .grDec) (hgrain : s.grain ≠ .lane) (hsel : s.selectorOffset < s.buflen)
    (hmargin : s.pos + 32 ≤ s.buflen) (hcells : 16 * s.g + 16 ≤ 256) :
    step s = .next (afterGroup { afterDecodeGroup s.selector s with g := s.g + 1 }) := by
  rcases fetchGroup_eq hsel with ⟨hlane, -⟩ | ⟨-, i, hi, hfetch⟩
  · exact absurd hlane hgrain
  · obtain ⟨i', hi', hexec⟩ := exec_selector s.selector
    obtain rfl : i' = i := Except.ok.inj (hi'.symm.trans hi)
    rw [step_of_run ((fetch_grDec hp).trans hfetch), hexec, groupUnit_returns _ hmargin hcells, Res.outcome_ok,
      resume_next (by rw [afterDecodeGroup_phase, hp]; decide)]
    unfold advance
    rw [afterDecodeGroup_phase, hp]
    rfl

/-- The end of a group moves the position only, by the group and the count (R231). -/
theorem afterGroup_eq (s : State) :
    afterGroup s = s.goto (if s.g < numGroups s.cnt then .grChk else .delta) :=
  (apply_ite s.goto _ _ _).symm

/-- Settles O17: the sixteen code steps do the lanes of the group one by one, and both ways end at the same cursors. -/
theorem codeStepsEndAsTheGroup : Obligations.CodeStepsEndAsTheGroup := by
  intro s hm _ hphase hgrain hw hsel hmargin hcells
  obtain ⟨u, hu, hrun⟩ := runSteps_group (selectorWidth s.selector) hm hmargin hcells
  have hopen := step_openCodes hphase hgrain hw hsel
  have hgroup := step_group (s := { s with grain := .group }) hphase nofun hsel hmargin hcells
  rw [afterGroup_eq] at hrun hgroup
  obtain ⟨⟨_, _, _, _, _, _, rfl⟩, -, -, hov, hlanes⟩ := hu
  have hend := hov.trans (decodeGroup_packed_end s hw).symm
  refine ⟨_, _, ((core_run 17 s).trans (runSteps_succ 16 hopen)).trans hrun, hgroup, fun a => ?_, hend, ?_,
    rfl, rfl, rfl, rfl, rfl, rfl⟩
  · exact (hlanes a).trans (afterDecodeGroup_holdsLanes hm hw a).symm
  · exact hend.trans (if_pos hw).symm

end Sys2Proof.Machine
end

section
/-! SUPPORT. The run of a plane (R120 to R130): its groups in order, the margin before each, and where it ends; and that
a decode ends at rest. -/

namespace Sys2Proof.Machine

/-- From `t` the instruction that the plane's selector field `m` names is run, and its group counted, to reach `u`
(R123). -/
def GroupRun (s : State) (m : Nat) (t u : State) : Prop :=
  ∃ i v, decode (.selector (selectorField (s.inByte (s.pos + m / 4)) m)) = .ok i ∧ exec i t = .next v ∧
    u = { v with g := m + 1 }

/-- The group loop of a plane opened at `s` stands before group `m`, the cursor at most 24 bytes a group past the
header (R82, R122, R130). -/
structure BeforeGroup (s : State) (m : Nat) (t : State) : Prop where
  moves : PlaneMoves s t
  g : t.g = m
  hdr : t.hdr = s.pos
  least : s.pos + headerSize s.cnt ≤ t.pos
  most : t.pos ≤ s.pos + headerSize s.cnt + 24 * m

variable {s t : State} {m : Nat}

theorem beforeGroup_start (s : State) : BeforeGroup s 0 (openPlane s) :=
  ⟨openPlane_moves s, rfl, rfl, le_refl _, le_refl _⟩

theorem BeforeGroup.buflen (h : BeforeGroup s m t) : t.buflen = s.buflen := by
  rw [h.moves.frame]

/-- The selector of the group stands in the header where the plane started. -/
theorem BeforeGroup.selector (h : BeforeGroup s m t) :
    t.selector = selectorField (s.inByte (s.pos + m / 4)) m := by
  have hin : t.inByte = s.inByte := by
    rw [h.moves.frame]
    rfl
  rw [State.selector, State.selectorOffset, hin, h.hdr, h.g]

/-- With its margin and its cells a group is run by the instruction its selector names. -/
theorem BeforeGroup.run (h : BeforeGroup s m t) (hmargin : t.pos + 32 ≤ t.buflen) (hcells : m < 16) :
    GroupRun s m t { afterDecodeGroup t.selector t with g := m + 1 } := by
  obtain ⟨i, hi, hexec⟩ := exec_selector t.selector
  refine ⟨i, _, by rw [← h.selector, hi], ?_, rfl⟩
  rw [hexec, groupUnit_returns _ hmargin (by rw [h.g]; omega), Res.outcome_ok]

/-- After its turn the loop stands before the next group. -/
theorem BeforeGroup.next (h : BeforeGroup s m t) (hcells : m < 16) :
    BeforeGroup s (m + 1) { afterDecodeGroup t.selector t with g := m + 1 } := by
  obtain ⟨hmv, rfl, hhdr, hleast, hmost⟩ := h
  obtain ⟨-, hge, hle⟩ := decodeGroup_bounds Config.codeOrder t.selector t.inByte t.pos
  refine ⟨hmv.trans (groupTurn_moves hcells), rfl, hhdr, ?_, ?_⟩ <;> simp only [afterDecodeGroup_pos] <;> omega

/-- One turn of the group loop: with the margin it runs the group its selector names, without it it raises
TruncationError with nothing moved (R124, R128). -/
theorem BeforeGroup.turn (h : BeforeGroup s m t) (hm : m < numGroups s.cnt) (hcells : m < 16) :
    (t.pos + 32 ≤ s.buflen ∧
      ∃ u, groupTurn t = .ok u ∧ GroupRun s m t u ∧ BeforeGroup s (m + 1) u) ∨
    (s.buflen < t.pos + 32 ∧ groupTurn t = .raised .truncation t) := by
  have hheader : t.hdr + t.g / 4 < t.pos := by
    have := headerSize_eq s.cnt
    have := h.least
    rw [h.hdr, h.g]
    omega
  rw [← h.buflen]
  rcases groupTurn_cases (by rw [h.g]; exact hcells) hheader with ⟨hmargin, hturn⟩ | hstop
  · rw [h.g] at hturn
    exact .inl ⟨hmargin, _, hturn, h.run hmargin hcells, h.next hcells⟩
  · exact .inr hstop

/-- The run of a plane: from the opened plane through the groups whose margin held, to the end of the last group or to
the first group whose margin failed (R120, R124, R128). -/
theorem planeUnit_trace (hcnt : s.cnt ≤ 256) :
    ∃ (q : Nat → State) (n : Nat), n ≤ numGroups s.cnt ∧ q 0 = openPlane s ∧
      (∀ m, m < n → (q m).pos + 32 ≤ s.buflen ∧ GroupRun s m (q m) (q (m + 1))) ∧ BeforeGroup s n (q n) ∧
      (n = numGroups s.cnt ∧ planeUnit s = .ok (q n) ∨
        n < numGroups s.cnt ∧ s.buflen < (q n).pos + 32 ∧ planeUnit s = .raised .truncation (q n)) := by
  have hgroups : numGroups s.cnt ≤ 16 := by
    rw [numGroups_eq]
    omega
  obtain ⟨q, n, hn, h0, hturns, hend⟩ := repeatUnit_trace (numGroups s.cnt) groupTurn (openPlane s)
  have hturn : ∀ m, m < n → BeforeGroup s m (q m) →
      (q m).pos + 32 ≤ s.buflen ∧ GroupRun s m (q m) (q (m + 1)) ∧ BeforeGroup s (m + 1) (q (m + 1)) := by
    intro m hm hbefore
    rcases hbefore.turn (by omega) (by omega) with ⟨hmargin, u, hu, hrun, hnext⟩ | ⟨-, hraised⟩
    · obtain rfl : u = q (m + 1) := Res.ok.inj (hu.symm.trans (hturns m hm))
      exact ⟨hmargin, hrun, hnext⟩
    · exact absurd ((hturns m hm).symm.trans hraised) nofun
  have hbefore : ∀ m, m ≤ n → BeforeGroup s m (q m) := by
    intro m
    induction m with
    | zero => exact fun _ => h0 ▸ beforeGroup_start s
    | succ m ih => exact fun hm => (hturn m hm (ih (by omega))).2.2
  have hlast := hbefore n (le_refl _)
  refine ⟨q, n, hn, h0, fun m hm => ?_, hlast, ?_⟩
  · obtain ⟨hmargin, hrun, -⟩ := hturn m hm (hbefore m hm.le)
    exact ⟨hmargin, hrun⟩
  · rcases hend with hdone | ⟨hlt, hstop, heq⟩
    · exact .inl hdone
    · rcases hlast.turn hlt (by omega) with ⟨-, u, hu, -⟩ | ⟨hmargin, hraised⟩
      · exact absurd hu (hstop u)
      · exact .inr ⟨hlt, hmargin, heq.trans hraised⟩

/-- Settles O19: where the most the groups before it may consume leaves a group its margin, the run does not stop
there. -/
theorem planeRunsItsGroupsInOrder : Obligations.PlaneRunsItsGroupsInOrder := by
  intro s _ _ hcnt hroom
  obtain ⟨q, n, -, h0, hrun, hlast, ⟨rfl, hok⟩ | ⟨hlt, hmargin, -⟩⟩ := planeUnit_trace hcnt
  · exact ⟨q, h0, fun m hm => (hrun m hm).2, congrArg Res.outcome hok⟩
  · have hmost := hlast.most
    omega

/-- Settles O21, by the run of the plane. -/
theorem planeTestsTheMarginBeforeEveryGroup : Obligations.PlaneTestsTheMarginBeforeEveryGroup := by
  intro s _ hcnt
  obtain ⟨q, n, hn, h0, hrun, -, hend⟩ := planeUnit_trace hcnt
  refine ⟨q, n, hn, h0, hrun, hend.imp ?_ ?_⟩
  · exact fun ⟨hall, hok⟩ => ⟨hall, congrArg Res.outcome hok⟩
  · exact fun ⟨hlt, hmargin, hraised⟩ => ⟨hlt, hmargin, congrArg Res.outcome hraised⟩

/-- Settles O20: a plane has at least one group, and the run of O21 stops before the first. -/
theorem planeWithoutMarginTruncates : Obligations.PlaneWithoutMarginTruncates := by
  intro s h1 h2 hshort
  obtain ⟨hgroups, -, -⟩ := numGroups_bounds h1 h2
  obtain ⟨q, n, -, h0, hrun, hend⟩ := planeTestsTheMarginBeforeEveryGroup s h1 h2
  have hpos : (q 0).pos = s.pos + headerSize s.cnt := by rw [h0]
  obtain rfl : n = 0 := by
    by_contra hne
    have hmargin := (hrun 0 (by omega)).1
    omega
  rcases hend with ⟨hnone, -⟩ | ⟨-, -, hraised⟩
  · omega
  · rw [hraised, h0]

/-- Settles O22: DecodeStream returns within its bounds or raises TruncationError. -/
theorem planeEndsInBounds : Obligations.PlaneEndsInBounds := by
  intro s _ h1 h2
  rcases planeUnit_cases h1 h2 with ⟨t, hok, hmv, -, -, hbounds⟩ | ⟨t, hraised, -⟩
  · exact ⟨t, congrArg Res.outcome hok, .inl ⟨hmv.decodeMoves.status, hbounds⟩⟩
  · exact ⟨takeError .truncation t, congrArg Res.outcome hraised, .inr rfl⟩

/-- Settles O40: the body of a decode returns or raises, and both ends are at rest. -/
theorem decodeAlwaysEnds : Obligations.DecodeAlwaysEnds := by
  intro s hs _ _
  rw [decode_of_startable hs]
  rcases decodeBody_moves (beginBusy s) with ⟨t, hok, -⟩ | ⟨e, t, hraised, -⟩
  · exact ⟨finishDone t, congrArg Res.outcome hok, rfl, .inl rfl⟩
  · exact ⟨takeError e t, congrArg Res.outcome hraised, rfl, .inr ⟨e, rfl⟩⟩

end Sys2Proof.Machine
end

section
/-! SUPPORT. The bytes of the zig-zag map (R140, R141): its inverse by the parity of the byte, the map itself by the
sign of the delta. -/

namespace Sys2Proof.Machine

open Spec

/-- Bit 0 of a byte is its parity. -/
theorem byte_and_one (b : Byte) : b &&& 1#8 = if b.toNat % 2 = 0 then 0#8 else 1#8 := by
  apply BitVec.eq_of_toNat_eq
  rw [BitVec.toNat_and, BitVec.toNat_ofNat, Nat.and_one_is_mod]
  split_ifs with h
  · exact h
  · exact Nat.mod_two_ne_zero.1 h

/-- Even bytes are halved, and odd bytes halved and complemented (R140). -/
theorem unzigzagByte_eq (b : Byte) :
    unzigzagByte b = if b.toNat % 2 = 0 then b >>> 1 else ~~~(b >>> 1) := by
  rw [unzigzagByte, byte_and_one]
  split_ifs
  · exact BitVec.zero_xor
  · exact BitVec.allOnes_xor

/-- Deltas from 0 on are doubled, and negative ones doubled and complemented (R141). -/
theorem zigzagByte_eq (r : Byte) :
    zigzagByte r = if r.toNat < 128 then r <<< 1 else ~~~(r <<< 1) := by
  rw [zigzagByte]
  by_cases h : r.toNat < 128
  · rw [if_pos h, if_neg (by omega)]
    exact BitVec.xor_zero
  · rw [if_neg h, if_pos (by omega)]
    exact BitVec.xor_allOnes

/-- The delta of a byte, as a number modulo 256 (R140). -/
theorem toNat_unzigzagByte (b : Byte) :
    (unzigzagByte b).toNat = if b.toNat % 2 = 0 then b.toNat / 2 else 255 - b.toNat / 2 := by
  rw [unzigzagByte_eq, apply_ite BitVec.toNat, BitVec.toNat_not, BitVec.toNat_ushiftRight, Nat.shiftRight_one]

/-- The byte of a delta (R141). -/
theorem toNat_zigzagByte (r : Byte) :
    (zigzagByte r).toNat = if r.toNat < 128 then 2 * r.toNat else 511 - 2 * r.toNat := by
  have hr := r.isLt
  rw [zigzagByte_eq, apply_ite BitVec.toNat, BitVec.toNat_not, BitVec.toNat_shiftLeft, Nat.shiftLeft_eq]
  split_ifs <;> omega

/-- Settles O23: the delta of an even byte is below 128 and that of an odd byte is not, so that the parity of the byte
and the sign of the delta pick the same branch both ways. -/
theorem unzigzagIsTheSignedDelta : Obligations.UnzigzagIsTheSignedDelta := by
  intro b
  have hb := b.isLt
  refine ⟨?_, BitVec.eq_of_toNat_eq ?_, BitVec.eq_of_toNat_eq ?_⟩
  · rw [BitVec.toInt_eq_toNat_cond, toNat_unzigzagByte]
    split_ifs <;> omega
  · rw [toNat_zigzagByte, toNat_unzigzagByte]
    split_ifs <;> omega
  · rw [toNat_unzigzagByte, toNat_zigzagByte]
    split_ifs <;> omega

/-- Settles O24: the plane cell exists. -/
theorem unzigzagReadsTheCurrentValue : Obligations.UnzigzagReadsTheCurrentValue := fun _ hi => if_pos hi

end Sys2Proof.Machine
end

section
/-! SUPPORT. DELTA in closed form (R142, R145, R146), and the chain taken value by value against the chain taken whole
(R231): two steps are one turn of the chain. -/

namespace Sys2Proof.Machine

open Spec

/-! ### The chain of a plane -/

theorem chain_eq_chainValue (s : State) (n : Nat) : chain s n = chainValue s.plane (s.lastVertex.byte s.k) 0 n := by
  simp only [chain, chainValue, Nat.zero_add]

/-- DELTA where its cells exist is the chain of its plane (R142). -/
theorem exec_delta {s : State} (hk : s.k < s.stride) (hS : s.stride ≤ 256) (hcnt : s.cnt ≤ 256)
    (htr : s.cnt * s.stride ≤ 8192) : exec .delta s = .next (chainLoop s.cnt (openChain s)) :=
  congrArg Res.outcome (deltaUnit_returns hk hS hcnt htr).1

/-- Settles O25: the chain in closed form, opened at the carry. -/
theorem deltaIsThePrefixSum : Obligations.DeltaIsThePrefixSum := by
  intro s hm hk hS hcnt htr
  have hrising : (openChain s).tr.rising = true := tr_rising hm
  have hp := chainLoop_p s.cnt (openChain s)
  have hcell := chainLoop_tr_cell hrising (Nat.zero_lt_of_lt hk) s.cnt
  have hother := chainLoop_tr_other hrising s.cnt
  simp only [exec_delta hk hS hcnt htr, chain_eq_chainValue]
  obtain ⟨r, v, tr, p, i, h⟩ := chainLoop_frame s.cnt (openChain s)
  rw [h] at hp hcell hother ⊢
  simp only [openChain_i, Nat.zero_add] at hcell hother
  refine ⟨tr, r, v, i, ?_, hcell, hother⟩
  exact congrArg (fun p => Host.Outcome.next { s with r := r, v := v, tr := tr, p := p, i := i }) hp

/-! ### The padding lanes -/

/-- The chain reads the plane values of its own vertices and no others (R145). -/
theorem chainLoop_setPlane {n : Nat} {s : State} {m : Memory}
    (h : ∀ a, s.i ≤ a → a < s.i + n → m.byte a = s.plane.byte a) :
    chainLoop n { s with plane := m } = { chainLoop n s with plane := m } := by
  induction n generalizing s with
  | zero => rfl
  | succ n ih =>
    have hturn : chainTurn { s with plane := m } = { chainTurn s with plane := m } := by
      simp only [chainTurn, unzigzagRead, h s.i (le_refl _) (by omega)]
      rfl
    have hrest : ∀ a, s.i + 1 ≤ a → a < s.i + 1 + n → m.byte a = s.plane.byte a :=
      fun a h1 h2 => h a (by omega) (by omega)
    change chainLoop n (chainTurn { s with plane := m }) = _
    rw [hturn, ih (s := chainTurn s) hrest]
    rfl

/-- Settles O26: DELTA returned, so its cells exist, and no vertex reads a padding lane. -/
theorem deltaIgnoresPaddingLanes : Obligations.DeltaIgnoresPaddingLanes := by
  intro s t m hm h
  rcases Res.outcome_eq_next.1 h with hok | ⟨e, u, hraised, -⟩
  · obtain ⟨hk, hcnt, hcells, rfl⟩ := deltaUnit_eq_ok.1 hok
    have hloop := chainLoop_setPlane (s := openChain s) (n := s.cnt) fun a _ ha => hm a (by simpa using ha)
    exact congrArg Res.outcome (deltaUnit_eq_ok (s := { s with plane := m }).2 ⟨hk, hcnt, hcells, hloop.symm⟩)
  · exact absurd hraised deltaUnit_not_raised

/-! ### The steps of a chain -/

/-- At the lane grain the chain of a plane with vertices is opened to be taken value by value (log 1). -/
theorem step_openChain {s : State} (hp : s.phase = .delta) (hgrain : s.grain = .lane) (hk : s.k < 256)
    (hcnt : 0 < s.cnt) : step s = .next ((openChain s).goto .unzigzag) := by
  refine step_of_moved ((fetch_delta hp).trans ?_)
  rw [fetchChain, if_pos hgrain, if_pos hk, if_pos hcnt]

/-- The delta of a value is read and added (R140, R142). -/
theorem step_goto_unzigzag {s : State} (hi : s.i < 256) :
    step (s.goto .unzigzag) = .next ((addDelta (unzigzagRead s)).goto .transpose) :=
  step_unzigzag (s := s.goto .unzigzag) rfl hi

/-- A value is written, and the loop goes on (R154, R231). -/
theorem step_goto_transpose {s : State} (htr : s.trIndex < 8192) :
    step (s.goto .transpose) = .next (afterVertex (transposeWrite s)) :=
  step_transpose (s := s.goto .transpose) rfl htr

/-- The two steps of a value are one turn of the chain; the loop then goes to the next value or ends (R142, R231). -/
theorem runSteps_value {s : State} (hi : s.i < s.cnt) (hcnt : s.cnt ≤ 256)
    (htr : (s.cnt - 1) * s.stride + s.k < 8192) :
    runSteps 2 (s.goto .unzigzag) = .next
      (if s.i + 1 < s.cnt then (chainTurn s).goto .unzigzag else afterChain (chainTurn s)) := by
  have hcell : s.trIndex < 8192 :=
    lt_of_le_of_lt (Nat.add_le_add_right (Nat.mul_le_mul_right _ (Nat.le_sub_one_of_lt hi)) _) htr
  have hwrite := step_goto_transpose (s := addDelta (unzigzagRead s)) (by simpa using hcell)
  exact (runSteps_succ 1 (step_goto_unzigzag (lt_of_lt_of_le hi hcnt))).trans (runSteps_succ 0 hwrite)

/-- The last `n + 1` values of a chain, two steps each, end as its last `n + 1` turns (R142, R231). -/
theorem runSteps_values {n : Nat} {s : State} (hn : s.i + n + 1 = s.cnt) (hcnt : s.cnt ≤ 256)
    (htr : (s.cnt - 1) * s.stride + s.k < 8192) :
    runSteps (2 * (n + 1)) (s.goto .unzigzag) = .next (afterChain (chainLoop (n + 1) s)) := by
  induction n generalizing s with
  | zero => exact (runSteps_value (by omega) hcnt htr).trans (congrArg _ (if_neg (by omega)))
  | succ n ih =>
    have hvalue := runSteps_value (by omega) hcnt htr
    rw [if_pos (by omega)] at hvalue
    rw [show 2 * (n + 1 + 1) = 2 + 2 * (n + 1) by omega, runSteps_add 2 _ hvalue]
    exact ih (s := chainTurn s) (show s.i + 1 + n + 1 = s.cnt by omega) hcnt htr

/-- The end of a chain moves the offset and the position only (R231). -/
theorem afterChain_eq (s : State) :
    afterChain s = { s with k := s.k + 1, phase := if s.k + 1 < s.stride then planeStart s.grain else .commit } := by
  rw [afterChain]
  split_ifs <;> rfl

/-- Settles O27: the opening step and two steps for each value end as the chain taken whole, at the next plane. -/
theorem valueStepsEndAsTheChain : Obligations.ValueStepsEndAsTheChain := by
  intro s _ _ hphase hgrain hk hS h1 hcnt htr
  have hopen := step_openChain hphase hgrain (by omega) h1
  have hvalues : runSteps (2 * s.cnt) ((openChain s).goto .unzigzag)
      = .next (afterChain (chainLoop s.cnt (openChain s))) := by
    have hcount : s.cnt - 1 + 1 = s.cnt := Nat.sub_add_cancel h1
    have hlast := (lastCell_lt hk htr).resolve_left (Nat.ne_of_gt h1)
    have := runSteps_values (n := s.cnt - 1) (s := openChain s) (by simpa using hcount) hcnt hlast
    rwa [hcount] at this
  have hrun := (core_run _ s).trans ((runSteps_add 1 _ (runSteps_succ 0 hopen)).trans hvalues)
  obtain ⟨r, v, tr, p, i, h⟩ := chainLoop_frame s.cnt (openChain s)
  rw [afterChain_eq, h] at hrun
  refine ⟨_, _, hrun, (exec_delta hk hS hcnt htr).trans (congrArg _ h), rfl, rfl, rfl, rfl, rfl, rfl, rfl, rfl, ?_⟩
  exact congrArg (fun gr => if s.k + 1 < s.stride then planeStart gr else .commit) hgrain

end Sys2Proof.Machine
end

section
/-! SUPPORT. Blocks (R150 to R160): the transposed write, the planes of a block one by one, the carry update, and what a
block that fails leaves. -/

namespace Sys2Proof.Machine

/-- Settles O28: the cell exists, and no other is written. -/
theorem transposeWritesOneCell : Obligations.TransposeWritesOneCell := fun s hm hcell =>
  ⟨_, if_pos hcell, fun a => Memory.byte_setByte (tr_rising hm) s.trIndex a s.v⟩

/-- Settles O30: the count is looked at before anything else. -/
theorem blockChecksItsCountFirst : Obligations.BlockChecksItsCountFirst := fun s hcnt =>
  have hraised : blockUnit s = .raised .argument s := if_pos hcnt
  congrArg Res.outcome hraised

/-! ### The planes of a block -/

/-- A counted loop that returned did so after all its turns. -/
theorem repeatUnit_turns {n : Nat} {f : State → Res} {s t : State} (h : repeatUnit n f s = .ok t) :
    ∃ q : Nat → State, q 0 = s ∧ q n = t ∧ ∀ m, m < n → f (q m) = .ok (q (m + 1)) := by
  obtain ⟨q, m, -, h0, hturns, ⟨rfl, hend⟩ | ⟨-, hstop, hend⟩⟩ := repeatUnit_trace n f s
  · exact ⟨q, h0, Res.ok.inj (hend.symm.trans h), hturns⟩
  · exact absurd (hend.symm.trans h) (hstop t)

/-- A turn of the plane loop is PLANE, then DELTA on the state it left, then the next offset (R153). -/
theorem planeTurn_exec {s t : State} (h : planeTurn s = .ok t) :
    ∃ u w, exec .plane s = .next u ∧ exec .delta u = .next w ∧ t = { w with k := s.k + 1 } := by
  obtain ⟨u, w, hplane, hdelta, rfl⟩ := planeTurn_eq_ok.1 h
  have hk : w.k = s.k := by
    obtain ⟨-, -, -, rfl⟩ := deltaUnit_eq_ok.1 hdelta
    rw [chainLoop_k, openChain_k, ((planeUnit_moves s).of_ok hplane).frame]
  exact ⟨u, w, congrArg Res.outcome hplane, congrArg Res.outcome hdelta, by rw [hk]⟩

/-- The plane loop from offset 0 on takes the planes in ascending order (R153). -/
theorem planeLoop_exec {n : Nat} {s t : State} (hk : s.k = 0) (h : repeatUnit n planeTurn s = .ok t) :
    ∃ q : Nat → State, q 0 = s ∧ q n = t ∧ ∀ m, m < n → ∃ u w,
      exec .plane (q m) = .next u ∧ exec .delta u = .next w ∧ q (m + 1) = { w with k := m + 1 } := by
  obtain ⟨q, h0, hn, hturns⟩ := repeatUnit_turns h
  have hoffset : ∀ m, m ≤ n → (q m).k = m := by
    intro m
    induction m with
    | zero => exact fun _ => h0 ▸ hk
    | succ m ih =>
      intro hm
      obtain ⟨u, w, -, -, hnext⟩ := planeTurn_exec (hturns m hm)
      rw [hnext, ih (Nat.le_of_lt hm)]
  refine ⟨q, h0, hn, fun m hm => ?_⟩
  have hturn := planeTurn_exec (hturns m hm)
  rwa [hoffset m hm.le] at hturn

/-! ### The end of a block -/

/-- The carry after a block is its last record, and in the cells from the stride on what it was (R156). -/
theorem afterPlanes_lastVertex {s : State} (h : s.lastVertex.rising = true) (a : Nat) :
    (afterPlanes s).lastVertex.byte a =
      if a < s.stride then s.tr.byte ((s.cnt - 1) * s.stride + a) else s.lastVertex.byte a := by
  split_ifs with ha
  · exact afterPlanes_carry h ha
  · rw [afterPlanes, Memory.byte_setRun h, if_neg (by simpa using ha)]

/-- Settles O31: with the room no plane raises, the block's bytes have their place in OUT, and the carry update comes
last. -/
theorem blockRunsItsPlanesThenCommits : Obligations.BlockRunsItsPlanesThenCommits := by
  intro s hm hstride h1 h2 htr hout hroom
  obtain ⟨hS1, hS2, -⟩ := (strideOk_iff _).1 hstride
  rcases blockUnit_cases h1 h2 hS1 hS2 htr hout with ⟨t, hloop, hblock, hmv, -⟩ | ⟨t, -, -, hmost, hmargin⟩
  · obtain ⟨q, h0, rfl, hplanes⟩ := planeLoop_exec rfl hloop
    obtain ⟨hcnt, hlast, -, hvoff, -⟩ := hmv.keeps
    have hin := hmv.decodeMoves.keepsInputs
    have hcommit := commitUnit_returns (s := q s.stride) (by rw [hcnt, hin.stride]; exact htr)
      (by rw [hvoff, hcnt, hin.count]; exact hout)
    refine ⟨q, _, (afterPlanes (q s.stride)).lastVertex, h0, hplanes, congrArg Res.outcome hcommit,
      congrArg Res.outcome hblock, fun a => ?_⟩
    rw [afterPlanes_lastVertex (hlast ▸ lastVertex_rising hm), hin.stride, hcnt, hlast]
  · omega

/-- Settles O32: a block that ends in ERROR raised, and its count is a legal one. -/
theorem failedBlockCommitsNothing : Obligations.FailedBlockCommitsNothing := by
  intro s t hs h1 h2 hexec herror
  rcases Res.outcome_eq_next.1 hexec with hok | ⟨e, u, hraised, rfl⟩
  · have hstatus := ((blockUnit_moves s).of_ok hok).status
    exact absurd (hstatus ▸ herror) hs
  · obtain ⟨hmv, ⟨-, hcnt⟩ | rfl⟩ := blockUnit_raised hraised
    · omega
    · obtain ⟨-, hlast, hout, hvoff, -⟩ := hmv.keeps
      exact ⟨u, hraised, hout, hlast, hvoff, rfl⟩

end Sys2Proof.Machine
end

section
/-! SUPPORT. The loops after their units (R156, R231): where each position leads. -/

namespace Sys2Proof.Machine

variable {t : State}

/-- Inside a decode a unit's loop goes on from the position the unit stood at. -/
theorem resume_inside {ph : Phase} (h : t.phase = ph) (hne : ph ≠ .rest) :
    resume (.next t) = advance (t.goto ph) := by
  subst h
  exact resume_next hne

/-- After a lane: the next lane, or the end of the group with the overflow cursor as the new cursor (R32, R102). -/
theorem resume_code {b : CodeWidth} (h : t.phase = .code b) : resume (.next t) = .next (afterLane t) := by
  rw [resume_next (by rw [h]; nofun), advance, h]

/-- After COMMIT the carry update is made, as at the end of a whole block, and the loop goes to the next block (R156,
R178). -/
theorem resume_commit (h : t.phase = .commit) (hS : t.stride ≤ 256) : resume (.next t) = .next { t with
    lastVertex := (afterPlanes t).lastVertex
    voff := t.voff + t.cnt
    phase := .blk } := by
  rw [resume_next (by rw [h]; nofun), advance, h, carryUnit_returns hS]
  rfl

/-- Settles O55: each position's move, with the branch its counter takes. -/
theorem loopsGoOnAfterTheirUnits : Obligations.LoopsGoOnAfterTheirUnits := by
  intro t
  refine ⟨resume_rest, fun h => resume_inside h nofun, fun h => ?group, fun b h hj => ?lane, fun b h hj => ?lastLane,
    fun h => resume_inside h nofun, fun h => resume_inside h nofun, fun h hk => ?lastPlane, fun h hk => ?plane,
    fun h => resume_inside h nofun, fun h hi => ?vertex, fun h hi => ?lastVertex, fun h hm hS => ?commit⟩
  case group => exact (resume_inside h nofun).trans (congrArg _ (afterGroup_eq _))
  case lane => rw [resume_code h, afterLane, if_pos (Nat.succ_lt_succ hj)]
  case lastLane =>
    rw [resume_code h, afterLane, hj, if_neg (by decide), afterGroup_eq]
    rfl
  case plane => exact (resume_inside h nofun).trans (congrArg _ (if_pos hk))
  case lastPlane => exact (resume_inside h nofun).trans (congrArg _ (if_neg hk.not_lt))
  case vertex => exact (resume_inside h nofun).trans (congrArg _ (if_pos hi))
  case lastVertex => exact (resume_inside h nofun).trans (congrArg _ ((if_neg hi.not_lt).trans (afterChain_eq _)))
  case commit => exact ⟨_, resume_commit h hS, afterPlanes_lastVertex (lastVertex_rising hm)⟩

end Sys2Proof.Machine
end

section
/-! SUPPORT. The checks of a decode in their order (R171 to R173, R197): what each raises, and how a decode past them
ends. The block size of a legal stride (R176, R177). -/

namespace Sys2Proof.Machine

/-- An illegal stride is the first check, and raises before anything moved (R171, R197). -/
theorem decodeBody_of_badStride {s : State} (hstride : strideOk s.stride ≠ true) :
    decodeBody s = .raised .argument s := by
  rw [decodeBody, if_neg hstride]

/-- With a legal stride, a buffer that cannot hold tag and trailer raises before anything moved (R172, R197). -/
theorem decodeBody_of_shortBuffer {s : State} (hstride : strideOk s.stride = true) (hlen : s.buflen < 1 + s.stride) :
    decodeBody s = .raised .format s := by
  rw [decodeBody, if_pos hstride, if_neg (Nat.not_le.2 hlen)]

/-- Settles O35: the stride passes, and the length test raises. -/
theorem shortBufferIsAFormatError : Obligations.ShortBufferIsAFormatError := by
  intro s hs h1 h2 h3 hlen
  have hbody := decodeBody_of_shortBuffer (s := beginBusy s) ((strideOk_iff _).2 ⟨h1, h2, h3⟩) hlen
  rw [decode_of_startable hs, hbody]
  rfl

/-- The block loop of a decode returns with all vertices produced, or a block raises TruncationError (R178, R185). -/
theorem blockLoop_seeded_cases {s : State} (hstride : strideOk s.stride = true) :
    (∃ u, blockLoop (seeded s) = .ok u ∧ u.voff = s.count) ∨
      ∃ u, blockLoop (seeded s) = .raised .truncation u := by
  rcases blockLoop_cases _ (seeded_ready hstride) (Nat.zero_le _) rfl with ⟨u, hloop, -, hvoff, -⟩ | ⟨u, hloop, -⟩
  · exact .inl ⟨u, hloop, hvoff⟩
  · exact .inr ⟨u, hloop⟩

/-- Past the stride check a decode raises FormatError or TruncationError only (R190, R191). -/
theorem decodeBody_not_argument {s t : State} (hstride : strideOk s.stride = true) :
    decodeBody s ≠ .raised .argument t := by
  by_cases hlen : 1 + s.stride ≤ s.buflen
  · by_cases htag : s.inByte 0 = Config.tag
    · rw [decodeBody_of_frameOk ((frameOk_iff s).2 ⟨hstride, hlen, htag⟩)]
      rcases blockLoop_seeded_cases hstride with ⟨u, hloop, -⟩ | ⟨u, hloop⟩
      · rw [hloop]
        nofun
      · rw [hloop]
        nofun
    · rw [decodeBody_of_wrongTag hstride hlen htag]
      nofun
  · rw [decodeBody_of_shortBuffer hstride (Nat.not_le.1 hlen)]
    nofun

/-- Settles O34: the stride check comes first, and past it no ArgumentError is raised. -/
theorem onlyAnIllegalStrideIsAnArgumentError : Obligations.OnlyAnIllegalStrideIsAnArgumentError := by
  intro s hs
  rw [decode_of_startable hs]
  refine ⟨fun hbad => ?_, fun h1 h2 h3 t ht => ?_⟩
  · have hstride : strideOk s.stride ≠ true := by
      rw [Ne, strideOk_iff]
      omega
    rw [decodeBody_of_badStride (s := beginBusy s) hstride]
    rfl
  · have hstride : strideOk (beginBusy s).stride = true := (strideOk_iff _).2 ⟨h1, h2, h3⟩
    rcases Res.outcome_eq_next.1 ht with hok | ⟨e, u, hraised, rfl⟩
    · rcases decodeBody_moves (beginBusy s) with ⟨u, hu, -⟩ | ⟨e, u, hu, -⟩
      · obtain rfl := Res.ok.inj (hu.symm.trans hok)
        nofun
      · exact absurd (hu.symm.trans hok) nofun
    · rintro ⟨⟩
      exact decodeBody_not_argument hstride hraised

/-- The block size in closed form (R176). -/
theorem blockSizeOf_eq (S : Nat) : blockSizeOf S = min 256 (8192 / S / 16 * 16) := rfl

/-- Settles O38: a stride of at most 256 leaves at least 32 records in 8192 bytes. -/
theorem blockSizeOfEveryStride : Obligations.BlockSizeOfEveryStride := by
  intro S hstride
  obtain ⟨h1, h2, -⟩ := (strideOk_iff S).1 hstride
  obtain ⟨-, hmax, hfits⟩ := blockSizeOf_fits h1 h2
  have hrecords : 32 ≤ 8192 / S := by
    rw [Nat.le_div_iff_mul_le h1]
    omega
  have heq := blockSizeOf_eq S
  exact ⟨heq, by omega, by omega, hmax, hfits⟩

/-! ### A decode of no vertices -/

theorem numBlocks_zero {b : Nat} (hb : 1 ≤ b) : numBlocks 0 b = 0 := (ceilDiv_eq_zero hb).2 rfl

/-- Without vertices no block is requested (R178, R180). -/
theorem blockLoop_seeded_of_noVertices {s : State} (hstride : strideOk s.stride = true) (hcount : s.count = 0) :
    blockLoop (seeded s) = .ok (seeded s) := by
  obtain ⟨h1, h2, -⟩ := (strideOk_iff _).1 hstride
  obtain ⟨hb, -, -⟩ := blockSizeOf_fits h1 h2
  have hnone : numBlocks (seeded s).count (seeded s).blockSize = 0 := by
    rw [show (seeded s).count = 0 from hcount]
    exact numBlocks_zero hb
  rw [blockLoop, hnone, repeatUnit]

/-- The carry the block loop starts from: the trailer, and beyond the stride what it was (R174). -/
theorem seeded_lastVertex {s : State} (h : s.lastVertex.rising = true) (a : Nat) :
    (seeded s).lastVertex.byte a = if a < s.stride then s.trailerByte a else s.lastVertex.byte a := by
  rw [seeded, Memory.byte_setRun h, bytesUpTo_length]
  by_cases ha : a < s.stride
  · rw [if_pos ha, if_pos (by omega), Nat.sub_zero, bytesUpTo_getD _ _ _ ha]
  · rw [if_neg ha, if_neg (by omega)]

/-- Settles O37: past the checks the decode is the seeding alone. -/
theorem noVerticesDecodeToNothing : Obligations.NoVerticesDecodeToNothing := by
  intro s hs hm hframe hcount
  have hstride := ((frameOk_iff s).1 hframe).1
  refine ⟨(seeded s).lastVertex, ?_, seeded_lastVertex (lastVertex_rising hm)⟩
  rw [decode_of_startable hs, decodeBody_of_frameOk (s := beginBusy s) hframe,
    blockLoop_seeded_of_noVertices (s := beginBusy s) hstride hcount]
  rfl

/-! ### A buffer too short for a vertex -/

/-- A plane loop that returned had the margin of its last plane's first group, behind the headers of all its planes
(R124, R153). -/
theorem planeLoop_lastMargin {n : Nat} {s t : State} (h1 : 1 ≤ s.cnt) (h2 : s.cnt ≤ 256) (hk : s.k + (n + 1) ≤ s.stride)
    (hS : s.stride ≤ 256) (hcS : s.cnt * s.stride ≤ 8192) (h : repeatUnit (n + 1) planeTurn s = .ok t) :
    s.pos + (n + 1) * headerSize s.cnt + 32 ≤ s.buflen := by
  rw [repeatUnit_append] at h
  obtain ⟨u, hloop, hlast⟩ := Res.bind_eq_ok.1 h
  rcases planeLoop_cases n h1 h2 (by omega) hS hcS with ⟨u', hu', hmv, -, hpos, -⟩ | ⟨u', hu', -⟩
  · obtain rfl := Res.ok.inj (hu'.symm.trans hloop)
    obtain ⟨hcnt, -⟩ := hmv.keeps
    have hlen := hmv.decodeMoves.keepsInputs.buflen
    obtain ⟨v, hturn, -⟩ := Res.bind_eq_ok.1 hlast
    obtain ⟨w, -, hplane, -⟩ := planeTurn_eq_ok.1 hturn
    have hmargin := planeUnit_firstMargin (hcnt ▸ h1) (hcnt ▸ h2) hplane
    rw [hcnt, hlen] at hmargin
    rw [Nat.succ_mul]
    omega
  · exact absurd (hu'.symm.trans hloop) nofun

/-- A block turn that returned had a header byte for each plane and the margin behind its cursor (R122, R124,
R186). -/
theorem blockTurn_room {s t : State} (hr : BlockReady s) (h : blockTurn s = .ok t) :
    s.pos + s.stride + 32 ≤ s.buflen := by
  obtain ⟨u, hblock, -⟩ := blockTurn_eq_ok.1 h
  obtain ⟨hcnt, hcnt2, htr, v, -, hloop, -⟩ := blockUnit_eq_ok.1 hblock
  obtain ⟨hS1, hS2, -⟩ := hr
  obtain ⟨n, hn⟩ : ∃ n, s.stride = n + 1 := ⟨_, (Nat.sub_add_cancel hS1).symm⟩
  have hcnt1 : 1 ≤ s.nextCount := Nat.pos_of_ne_zero hcnt
  have hheader : 1 ≤ headerSize s.nextCount := by
    have hgroups := (numGroups_bounds hcnt1 hcnt2).1
    rw [headerSize_eq]
    omega
  have hheaders := Nat.le_mul_of_pos_right (n + 1) hheader
  have hmargin := planeLoop_lastMargin (s := { s with cnt := s.nextCount, k := 0 }) (n := n) hcnt1 hcnt2
    (by rw [Nat.zero_add]; exact hn.ge) hS2 htr (hn ▸ hloop)
  change s.pos + (n + 1) * headerSize s.nextCount + 32 ≤ s.buflen at hmargin
  omega

/-- With a vertex to produce there is a block to decode (R178). -/
theorem numBlocks_pos {count b : Nat} (hb : 1 ≤ b) (hcount : 1 ≤ count) : 1 ≤ numBlocks count b := by
  rw [numBlocks, ceilDiv_step hb hcount]
  exact Nat.le_add_left _ _

/-- A decode whose block loop returned, with a vertex to produce, had tag, headers and margin in its buffer (R186). -/
theorem blockLoop_seeded_room {s u : State} (hstride : strideOk s.stride = true) (hcount : 1 ≤ s.count)
    (h : blockLoop (seeded s) = .ok u) : s.stride + 32 < s.buflen := by
  obtain ⟨h1, h2, -⟩ := (strideOk_iff _).1 hstride
  obtain ⟨hb, -, -⟩ := blockSizeOf_fits h1 h2
  obtain ⟨n, hn⟩ : ∃ n, numBlocks (seeded s).count (seeded s).blockSize = n + 1 :=
    ⟨_, (Nat.sub_add_cancel (numBlocks_pos hb hcount)).symm⟩
  rw [blockLoop, hn, repeatUnit_succ] at h
  obtain ⟨t, hturn, -⟩ := Res.bind_eq_ok.1 h
  have hroom : 1 + s.stride + 32 ≤ s.buflen := blockTurn_room (seeded_ready hstride) hturn
  omega

/-- Settles O39: a block loop that returned would have had more room than the buffer. -/
theorem tooShortForAVertexTruncates : Obligations.TooShortForAVertexTruncates := by
  intro s hs _ hframe hcount hshort
  rw [decode_of_startable hs, decodeBody_of_frameOk (s := beginBusy s) hframe]
  have hstride : strideOk (beginBusy s).stride = true := ((frameOk_iff s).1 hframe).1
  rcases blockLoop_seeded_cases hstride with ⟨u, hloop, -⟩ | ⟨u, hloop⟩
  · exact absurd (blockLoop_seeded_room hstride hcount hloop) (Nat.not_lt.2 hshort)
  · exact ⟨takeError .truncation u, by rw [hloop, Res.bind_raised, Res.outcome_raised], rfl⟩

end Sys2Proof.Machine
end

section
/-! SUPPORT. Two decodes of the same operands and the same `IN[0 .. N)` (R67, R183, R221): unit by unit they end the
same way, with the same of everything a later unit reads. -/

namespace Sys2Proof.Machine

open Spec

/-- `t` has the inputs of `s` as far as a decode may read them: the operands and `IN[0 .. N)` (R183). -/
structure SameInputs (s t : State) : Prop where
  vcount : t.vcount = s.vcount
  vstride : t.vstride = s.vstride
  buflen : t.buflen = s.buflen
  inByte : ∀ a, a < s.buflen → t.inByte a = s.inByte a

variable {s t : State}

theorem SameInputs.stride (h : SameInputs s t) : t.stride = s.stride := congrArg BitVec.toNat h.vstride

theorem SameInputs.count (h : SameInputs s t) : t.count = s.count := congrArg BitVec.toNat h.vcount

/-- No unit of a decode moves its inputs. -/
theorem SameInputs.moves (h : SameInputs s t) {u v : State} (hu : KeepsInputs s u) (hv : KeepsInputs t v) :
    SameInputs u v where
  vcount := by rw [hu.vcount, hv.vcount, h.vcount]
  vstride := by rw [hu.vstride, hv.vstride, h.vstride]
  buflen := by rw [hu.buflen, hv.buflen, h.buflen]
  inByte a ha := by
    rw [State.inByte, State.inByte, hu.inMem, hv.inMem]
    exact h.inByte a (hu.buflen ▸ ha)

/-- `t` has come as far as `s` in a decode of the same inputs: the cursors, the carry and the output so far are the
same, and both are in canonical form. -/
structure SameProgress (s t : State) : Prop extends SameInputs s t where
  leftOk : s.memoriesOk = true
  rightOk : t.memoriesOk = true
  stride_le : s.stride ≤ 256
  blockSize : t.blockSize = s.blockSize
  pos : t.pos = s.pos
  voff : t.voff = s.voff
  carry : ∀ k, k < s.stride → t.lastVertex.byte k = s.lastVertex.byte k
  out : ∀ a, a < s.voff * s.stride → t.outMem.find a = s.outMem.find a

/-- The planes of a block keep it where they bring both cursors to one place. -/
theorem SameProgress.moves (h : SameProgress s t) {u v : State} (hu : BlockMoves s u) (hv : BlockMoves t v)
    (hpos : v.pos = u.pos) : SameProgress u v := by
  have hin := h.toSameInputs.moves hu.decodeMoves.keepsInputs hv.decodeMoves.keepsInputs
  obtain ⟨⟨_, _, _, _, _, _, _, _, _, _, _, _, rfl⟩, hum⟩ := hu
  obtain ⟨⟨_, _, _, _, _, _, _, _, _, _, _, _, rfl⟩, hvm⟩ := hv
  exact { hin with
    leftOk := hum h.leftOk
    rightOk := hvm h.rightOk
    stride_le := h.stride_le
    blockSize := h.blockSize
    pos := hpos
    voff := h.voff
    carry := h.carry
    out := h.out }

/-- Ends that are the same are the same up to any weaker relation. -/
theorem SameEnd.mono {P Q : State → State → Prop} {x y : Res} (h : SameEnd P x y) (hpq : ∀ u v, P u v → Q u v) :
    SameEnd Q x y := by
  cases x <;> cases y <;> simp only [SameEnd] at h ⊢
  · exact hpq _ _ h
  · exact h

/-- What holds of the end of one unit may be added to what relates the two ends. -/
theorem SameEnd.and_holds {P : State → State → Prop} {Q : State → Prop} {x y : Res} (h : SameEnd P x y)
    (hx : x.Holds Q) : SameEnd (fun u v => P u v ∧ Q u) x y := by
  cases x <;> cases y <;> simp only [SameEnd] at h ⊢
  · exact ⟨h, hx⟩
  · exact h

/-! ### A plane -/

/-- With the margin, a turn of the group loop is the group its selector names, and the next group (R123 to R125). -/
theorem BeforeGroup.turn_eq {m : Nat} (h : BeforeGroup s m t) (hm : m < numGroups s.cnt) (hcells : m < 16) :
    (t.pos + 32 ≤ s.buflen ∧ groupTurn t = .ok { afterDecodeGroup t.selector t with g := m + 1 }) ∨
    (s.buflen < t.pos + 32 ∧ groupTurn t = .raised .truncation t) := by
  rcases h.turn hm hcells with ⟨hmargin, u, hturn, -⟩ | hstop
  · obtain ⟨-, -, -, v, hunit, rfl⟩ := groupTurn_eq_ok.1 hturn
    obtain ⟨-, -, rfl⟩ := groupUnit_eq_ok.1 hunit
    refine .inl ⟨hmargin, ?_⟩
    rw [hturn, afterDecodeGroup_g, h.g]
  · exact .inr hstop

/-- The group loops of two planes, opened at `s` and at `t`, stand before group `m` at one cursor with the same values
so far. -/
structure SameGroups (s t : State) (m : Nat) (u v : State) : Prop where
  left : BeforeGroup s m u
  right : BeforeGroup t m v
  pos : v.pos = u.pos
  plane : ∀ a, a < 16 * m → v.plane.byte a = u.plane.byte a

/-- After a group its cells hold the values DecodeGroup delivered (R125). -/
theorem afterDecodeGroup_holds {s : State} (h : s.plane.rising = true) (w : BitVec 2) :
    HoldsGroup (afterDecodeGroup w s).plane s.plane s.g
      fun j => (decodeGroup Config.codeOrder w s.inByte s.pos).1.getD j 0#8 :=
  holdsGroup_setRun h (decodeGroup_bounds ..).1 fun _ _ => rfl

variable {m : Nat} {u v : State}

/-- Before a group with its margin the two headers give one selector (R123, R124). -/
theorem SameGroups.selector (h : SameGroups s t m u v) (h0 : SameProgress s t)
    (hm : m < numGroups s.cnt) (hmargin : u.pos + 32 ≤ s.buflen) : v.selector = u.selector := by
  have hheader := headerSize_eq s.cnt
  have hleast := h.left.least
  rw [h.left.selector, h.right.selector, h0.pos, h0.inByte _ (by omega)]

/-- One group with its margin reads one stretch of the two buffers (R108, R111). -/
theorem SameGroups.decodeGroup (h : SameGroups s t m u v) (h0 : SameProgress s t) (hmargin : u.pos + 32 ≤ s.buflen)
    (w : BitVec 2) : decodeGroup Config.codeOrder w v.inByte v.pos = decodeGroup Config.codeOrder w u.inByte u.pos := by
  have hends := h0.toSameInputs.moves h.left.moves.decodeMoves.keepsInputs h.right.moves.decodeMoves.keepsInputs
  obtain ⟨-, -, hle⟩ := decodeGroup_bounds Config.codeOrder w u.inByte u.pos
  rw [h.pos]
  refine groupReadsOnlyWhatItConsumes _ w _ _ _ fun a _ ha => hends.inByte a ?_
  rw [h.left.buflen]
  omega

/-- The values of one more group are the same. -/
theorem SameGroups.next (h : SameGroups s t m u v) (h0 : SameProgress s t) (hm : m < numGroups s.cnt) (hcells : m < 16)
    (hmargin : u.pos + 32 ≤ s.buflen) :
    SameGroups s t (m + 1) { afterDecodeGroup u.selector u with g := m + 1 }
      { afterDecodeGroup v.selector v with g := m + 1 } := by
  refine ⟨h.left.next hcells, h.right.next hcells, ?_, fun a ha => ?_⟩
  · rw [h.selector h0 hm hmargin]
    exact congrArg Prod.snd (h.decodeGroup h0 hmargin _)
  · change (afterDecodeGroup v.selector v).plane.byte a = (afterDecodeGroup u.selector u).plane.byte a
    rw [afterDecodeGroup_holds (plane_rising (h.left.moves.memoriesOk h0.leftOk)),
      afterDecodeGroup_holds (plane_rising (h.right.moves.memoriesOk h0.rightOk)), h.selector h0 hm hmargin,
      h.decodeGroup h0 hmargin, h.left.g, h.right.g]
    split_ifs with hcell
    · rfl
    · exact h.plane a (by omega)

/-- A turn of the group loop ends the same way on both: with the margin before the next group, without it in
TruncationError (R124). -/
theorem SameGroups.turn (h : SameGroups s t m u v) (h0 : SameProgress s t) (hcnt : t.cnt = s.cnt)
    (hm : m < numGroups s.cnt) (hcells : m < 16) : SameEnd (SameGroups s t (m + 1)) (groupTurn u) (groupTurn v) := by
  have hpos := h.pos
  have hlen := h0.buflen
  have hright := h.right.turn_eq (hcnt ▸ hm) hcells
  rcases h.left.turn_eq hm hcells with ⟨hmargin, hu⟩ | ⟨hshort, hu⟩
  · obtain ⟨-, hv⟩ := hright.resolve_right fun hr => absurd hr.1 (by omega)
    rw [hu, hv]
    exact h.next h0 hm hcells hmargin
  · obtain ⟨-, hv⟩ := hright.resolve_left fun hr => absurd hr.1 (by omega)
    rw [hu, hv]
    rfl

/-- DecodeStream for one count ends the same way on both: at one cursor with the same values, or in TruncationError
(R120, R128). -/
theorem planeUnit_sameEnd (h : SameProgress s t) (hcnt : t.cnt = s.cnt) (hle : s.cnt ≤ 256) :
    SameEnd (fun u v => v.pos = u.pos ∧ ∀ a, a < s.cnt → v.plane.byte a = u.plane.byte a)
      (planeUnit s) (planeUnit t) := by
  have hgroups := numGroups_eq s.cnt
  have hstart : SameGroups s t 0 (openPlane s) (openPlane t) :=
    ⟨beforeGroup_start s, beforeGroup_start t, by rw [openPlane_pos, openPlane_pos, h.pos, hcnt], nofun⟩
  have hloop := SameEnd.loop (P := SameGroups s t) (numGroups s.cnt) hstart fun m hm u v hg =>
    hg.turn h hcnt hm (by omega)
  rw [planeUnit, planeUnit, hcnt]
  exact hloop.mono fun u v hg => ⟨hg.pos, fun a ha => hg.plane a (by omega)⟩

/-! ### A block -/

/-- The plane loops of two blocks stand before plane `n`: the columns before it are the same. -/
structure SamePlanes (n : Nat) (s t : State) : Prop extends SameProgress s t where
  cnt : t.cnt = s.cnt
  leftPlane : s.k = n
  rightPlane : t.k = n
  columns : ∀ i k, i < s.cnt → k < n → t.tr.byte (i * s.stride + k) = s.tr.byte (i * s.stride + k)

/-- The chain of a plane depends on its values and its byte of the carry (R142, R146). -/
theorem SamePlanes.delta {n : Nat} (h : SamePlanes n s t) (hn : n < s.stride) (hle : s.cnt ≤ 256)
    (htr : s.cnt * s.stride ≤ 8192) (hplane : ∀ a, a < s.cnt → t.plane.byte a = s.plane.byte a) :
    SameEnd (SamePlanes (n + 1)) ((deltaUnit s).bind fun u => .ok { u with k := u.k + 1 })
      ((deltaUnit t).bind fun u => .ok { u with k := u.k + 1 }) := by
  have hS := h.stride
  have hcnt := h.cnt
  obtain ⟨u, hu, humv, -, hupos, huk, hucol, huother⟩ :=
    deltaUnit_column h.leftOk (h.leftPlane.trans_lt hn) h.stride_le hle htr
  obtain ⟨v, hv, hvmv, -, hvpos, hvk, hvcol, hvother⟩ :=
    deltaUnit_column h.rightOk (by rw [h.rightPlane, hS]; exact hn) (hS ▸ h.stride_le) (hcnt ▸ hle)
      (by rw [hcnt, hS]; exact htr)
  rw [h.leftPlane] at hucol huother huk
  rw [h.rightPlane, hcnt, hS] at hvcol
  rw [h.rightPlane, hS] at hvother
  rw [h.rightPlane] at hvk
  have hsame := h.toSameProgress.moves humv hvmv (by rw [hvpos, hupos, h.pos])
  have hstride := humv.decodeMoves.keepsInputs.stride
  obtain ⟨hucnt, -⟩ := humv.keeps
  obtain ⟨hvcnt, -⟩ := hvmv.keeps
  rw [hu, hv]
  refine { hsame with
    cnt := by rw [hvcnt, hucnt, hcnt]
    leftPlane := congrArg (· + 1) huk
    rightPlane := congrArg (· + 1) hvk
    columns := fun i k hi hk => ?_ }
  change i < u.cnt at hi
  rw [hucnt] at hi
  change v.tr.byte (i * u.stride + k) = u.tr.byte (i * u.stride + k)
  rw [hstride]
  by_cases hkn : k = n
  · rw [hkn, hucol i hi, hvcol i hi, h.carry n hn, chainValue_congr]
    exact fun m hm => hplane _ (by omega)
  · rw [huother i k (by omega) hkn, hvother i k (by omega) hkn]
    exact h.columns i k hi (by omega)

/-- A plane moves no column (R126). -/
theorem SamePlanes.afterPlane {n : Nat} (h : SamePlanes n s t) {u v : State} (hu : PlaneMoves s u) (hv : PlaneMoves t v)
    (hpos : v.pos = u.pos) : SamePlanes n u v := by
  have hsame := h.toSameProgress.moves hu.blockMoves hv.blockMoves hpos
  obtain ⟨⟨_, _, _, _, _, _, rfl⟩, -⟩ := hu
  obtain ⟨⟨_, _, _, _, _, _, rfl⟩, -⟩ := hv
  exact { hsame with cnt := h.cnt, leftPlane := h.leftPlane, rightPlane := h.rightPlane, columns := h.columns }

/-- A turn of the plane loop ends the same way on both (R153). -/
theorem SamePlanes.turn {n : Nat} (h : SamePlanes n s t) (hn : n < s.stride) (hle : s.cnt ≤ 256)
    (htr : s.cnt * s.stride ≤ 8192) : SameEnd (SamePlanes (n + 1)) (planeTurn s) (planeTurn t) := by
  refine SameEnd.bind (planeUnit_sameEnd h.toSameProgress h.cnt hle) fun u v hu hv ⟨hpos, hplane⟩ => ?_
  have hsu := (planeUnit_moves s).of_ok hu
  have htv := (planeUnit_moves t).of_ok hv
  obtain ⟨hcnt, -⟩ := hsu.blockMoves.keeps
  have hstride := hsu.decodeMoves.keepsInputs.stride
  refine (h.afterPlane hsu htv hpos).delta ?_ ?_ ?_ ?_
  · rwa [hstride]
  · rwa [hcnt]
  · rwa [hcnt, hstride]
  · rwa [hcnt]

/-- The plane loop of a block ends the same way on both, by induction over the planes (R153). -/
theorem planeLoop_sameEnd (h : SamePlanes 0 s t) (hle : s.cnt ≤ 256) (htr : s.cnt * s.stride ≤ 8192) :
    SameEnd (fun u v => SamePlanes s.stride u v ∧ BlockMoves s u) (repeatUnit s.stride planeTurn s)
      (repeatUnit s.stride planeTurn t) := by
  refine SameEnd.loop (P := fun n u v => SamePlanes n u v ∧ BlockMoves s u) s.stride ⟨h, BlockMoves.refl s⟩
    fun n hn u v ⟨hsame, hmv⟩ => ?_
  obtain ⟨hcnt, -⟩ := hmv.keeps
  have hstride := hmv.decodeMoves.keepsInputs.stride
  have hturn := hsame.turn (by rwa [hstride]) (by rwa [hcnt]) (by rwa [hcnt, hstride])
  exact hturn.and_holds ((planeTurn_moves u).mono fun _ => hmv.trans)

/-- The blocks' bytes are the same where their columns are (R154). -/
theorem SamePlanes.tr (h : SamePlanes s.stride s t) {a : Nat} (ha : a < s.cnt * s.stride) :
    t.tr.byte a = s.tr.byte a := by
  have hS : 0 < s.stride := Nat.pos_of_mul_pos_left (Nat.zero_lt_of_lt ha)
  have hcell := h.columns (a / s.stride) (a % s.stride) (Nat.div_lt_of_lt_mul (by rwa [Nat.mul_comm]))
    (Nat.mod_lt _ hS)
  rwa [Nat.mul_comm, Nat.div_add_mod] at hcell

/-- The copy and the carry update of the same columns, and the offset past them: as much output, and it is the same
(R155, R156, R178). -/
theorem SamePlanes.afterBlock (h : SamePlanes s.stride s t) (hcnt : 1 ≤ s.cnt) :
    SameProgress (advanceVoff (afterPlanes s)) (advanceVoff (afterPlanes t)) := by
  have hS := h.stride
  have hend : (s.voff + s.cnt) * s.stride = s.voff * s.stride + s.cnt * s.stride := Nat.add_mul ..
  have hrecord : (s.cnt - 1) * s.stride + s.stride = s.cnt * s.stride := by
    rw [← Nat.succ_mul, Nat.succ_eq_add_one, Nat.sub_add_cancel hcnt]
  refine { h.toSameInputs with
    leftOk := afterPlanes_memoriesOk h.leftOk h.stride_le
    rightOk := afterPlanes_memoriesOk h.rightOk (hS ▸ h.stride_le)
    stride_le := h.stride_le
    blockSize := h.blockSize
    pos := h.pos
    voff := congrArg₂ (· + ·) h.voff h.cnt
    carry := fun k (hk : k < s.stride) => ?_
    out := fun a (ha : a < (s.voff + s.cnt) * s.stride) => ?_ }
  · change (afterPlanes t).lastVertex.byte k = (afterPlanes s).lastVertex.byte k
    rw [afterPlanes_carry (lastVertex_rising h.leftOk) hk, afterPlanes_carry (lastVertex_rising h.rightOk) (hS ▸ hk),
      h.cnt, hS]
    exact h.tr (by omega)
  · change (afterPlanes t).outMem.find a = (afterPlanes s).outMem.find a
    rw [afterPlanes_find, afterPlanes_find, h.voff, h.cnt, hS]
    split_ifs with hin
    · rw [h.tr (by omega)]
    · exact h.out a (by omega)

/-- A copy that is made is followed by the carry update (R155, R156). -/
theorem commitUnit_carryUnit (hS : s.stride ≤ 256) :
    (commitUnit s).bind carryUnit = (commitUnit s).bind fun _ => .ok (afterPlanes s) := by
  unfold commitUnit
  split_ifs
  · exact carryUnit_returns hS
  · rfl
  · rfl

/-- The copy and the carry update end the same way on both (R155, R156). -/
theorem SamePlanes.commit (h : SamePlanes s.stride s t) (hcnt : 1 ≤ s.cnt) :
    SameEnd (fun u v => SameProgress (advanceVoff u) (advanceVoff v)) ((commitUnit s).bind carryUnit)
      ((commitUnit t).bind carryUnit) := by
  rw [commitUnit_carryUnit h.stride_le, commitUnit_carryUnit (h.stride ▸ h.stride_le), commitUnit, commitUnit,
    h.stride, h.count, h.voff, h.cnt]
  split_ifs
  · exact h.afterBlock hcnt
  · trivial
  · trivial

theorem blockUnit_of_badCount (h : s.cnt = 0 ∨ s.cnt > 256) : blockUnit s = .raised .argument s := if_pos h

theorem blockUnit_of_tooLarge (h : ¬ (s.cnt = 0 ∨ s.cnt > 256)) (htr : s.cnt * s.stride > 8192) :
    blockUnit s = .refused .blockTooLarge :=
  (if_neg h).trans (if_pos htr)

/-- Past its checks a block is its planes, the copy and the carry update (R153, R155, R156). -/
theorem blockUnit_of_fits (h : ¬ (s.cnt = 0 ∨ s.cnt > 256)) (htr : ¬ s.cnt * s.stride > 8192) :
    blockUnit s =
      (repeatUnit s.stride planeTurn { s with k := 0 }).bind fun t => (commitUnit t).bind carryUnit :=
  (if_neg h).trans (if_neg htr)

/-- DecodeBlock for one count ends the same way on both (R150, R160). -/
theorem blockUnit_sameEnd (h : SameProgress s t) (hcnt : t.cnt = s.cnt) :
    SameEnd (fun u v => SameProgress (advanceVoff u) (advanceVoff v)) (blockUnit s) (blockUnit t) := by
  have hstart : SamePlanes 0 { s with k := 0 } { t with k := 0 } :=
    { h with cnt := hcnt, leftPlane := rfl, rightPlane := rfl, columns := nofun }
  by_cases hc : s.cnt = 0 ∨ s.cnt > 256
  · rw [blockUnit_of_badCount hc, blockUnit_of_badCount (hcnt ▸ hc)]
    rfl
  by_cases htr : s.cnt * s.stride > 8192
  · rw [blockUnit_of_tooLarge hc htr, blockUnit_of_tooLarge (hcnt ▸ hc) (by rwa [hcnt, h.stride])]
    trivial
  rw [blockUnit_of_fits hc htr, blockUnit_of_fits (hcnt ▸ hc) (by rwa [hcnt, h.stride]), h.stride]
  have hloop := planeLoop_sameEnd hstart (show s.cnt ≤ 256 by omega) (Nat.not_lt.1 htr)
  refine SameEnd.bind hloop fun u v _ _ hsame => ?_
  obtain ⟨hplanes, hmv⟩ := hsame
  have hstride : s.stride = u.stride := hmv.decodeMoves.keepsInputs.stride.symm
  obtain ⟨hucnt, -⟩ := hmv.keeps
  refine SamePlanes.commit (hstride ▸ hplanes) ?_
  rw [hucnt]
  exact Nat.one_le_iff_ne_zero.2 fun h0 => hc (.inl h0)

/-! ### A decode -/

/-- A turn of the block loop ends the same way on both (R178). -/
theorem blockTurn_sameEnd (h : SameProgress s t) : SameEnd SameProgress (blockTurn s) (blockTurn t) := by
  have hnext : t.nextCount = s.nextCount := by rw [State.nextCount, State.nextCount, h.blockSize, h.count, h.voff]
  have hstart : SameProgress { s with cnt := s.nextCount } { t with cnt := t.nextCount } := { h with }
  exact SameEnd.bind (blockUnit_sameEnd hstart hnext) fun u v _ _ huv => huv

/-- The block loop ends the same way on both, by induction over the blocks (R178, R185). -/
theorem blockLoop_sameEnd (h : SameProgress s t) : SameEnd SameProgress (blockLoop s) (blockLoop t) := by
  rw [blockLoop, blockLoop, h.count, h.blockSize]
  exact SameEnd.loop (P := fun _ => SameProgress) _ h fun _ _ _ _ => blockTurn_sameEnd

/-- The seeding brings both to the start of the same decode, whatever the carry and the cursors were (R174 to
R176). -/
theorem SameInputs.seeded (h : SameInputs s t) (hs : s.memoriesOk = true) (ht : t.memoriesOk = true)
    (hS : s.stride ≤ 256) (hlen : 1 + s.stride ≤ s.buflen) : SameProgress (seeded s) (seeded t) := by
  refine { h with
    leftOk := (seeded_moves hS).2 hs
    rightOk := (seeded_moves (h.stride ▸ hS)).2 ht
    stride_le := hS
    blockSize := congrArg blockSizeOf h.stride
    pos := rfl
    voff := rfl
    carry := fun k (hk : k < s.stride) => ?_
    out := fun a (ha : a < 0 * s.stride) => absurd ha (by omega) }
  rw [seeded_lastVertex (lastVertex_rising hs), seeded_lastVertex (lastVertex_rising ht), h.stride, if_pos hk,
    if_pos hk,
    State.trailerByte, State.trailerByte, h.buflen, h.stride]
  exact h.inByte _ (by simp only [Config.trailerGap]; omega)

/-- Two states the host reads alike as the end of a decode of `n` bytes: STATUS and the output (R25, R51, R183). -/
def SameResult (n : Nat) (s t : State) : Prop :=
  t.status = s.status ∧ ∀ a, a < n → t.outMem.find a = s.outMem.find a

/-- Past the checks the block loops of the two decodes end the same way, and where they return, all vertices are
produced (R178, R181). -/
theorem decodeBody_sameEnd_of_frameOk (h : SameInputs s t) (hs : s.memoriesOk = true) (ht : t.memoriesOk = true)
    (hf : s.frameOk = true) (hf' : t.frameOk = true) :
    SameEnd (SameResult (s.count * s.stride)) (decodeBody s) (decodeBody t) := by
  obtain ⟨hstride, hlen, -⟩ := (frameOk_iff s).1 hf
  rw [decodeBody_of_frameOk hf, decodeBody_of_frameOk hf']
  have hloop := blockLoop_sameEnd (h.seeded hs ht ((strideOk_iff _).1 hstride).2.1 hlen)
  refine SameEnd.bind hloop fun u v hu _ huv => ⟨rfl, fun a ha => huv.out a ?_⟩
  have hustride : u.stride = s.stride := ((blockLoop_moves _).of_ok hu).keepsInputs.stride
  rcases blockLoop_seeded_cases hstride with ⟨w, hw, hvoff⟩ | ⟨w, hw⟩
  · obtain rfl := Res.ok.inj (hw.symm.trans hu)
    rwa [hvoff, hustride]
  · exact absurd (hw.symm.trans hu) nofun

/-- The body of a decode ends the same way on both: the checks read the stride, the length and byte 0 (R171 to R173,
R183). -/
theorem decodeBody_sameEnd (h : SameInputs s t) (hs : s.memoriesOk = true) (ht : t.memoriesOk = true) :
    SameEnd (SameResult (s.count * s.stride)) (decodeBody s) (decodeBody t) := by
  by_cases hstride : strideOk s.stride = true
  · have hstride' : strideOk t.stride = true := h.stride ▸ hstride
    rcases Nat.lt_or_ge s.buflen (1 + s.stride) with hshort | hlen
    · rw [decodeBody_of_shortBuffer hstride hshort,
        decodeBody_of_shortBuffer hstride' (by rwa [h.stride, h.buflen])]
      rfl
    · have hlen' : 1 + t.stride ≤ t.buflen := by rwa [h.stride, h.buflen]
      have hbyte : t.inByte 0 = s.inByte 0 := h.inByte 0 (by omega)
      by_cases htag : s.inByte 0 = Config.tag
      · exact decodeBody_sameEnd_of_frameOk h hs ht ((frameOk_iff s).2 ⟨hstride, hlen, htag⟩)
          ((frameOk_iff t).2 ⟨hstride', hlen', hbyte.trans htag⟩)
      · rw [decodeBody_of_wrongTag hstride hlen htag, decodeBody_of_wrongTag hstride' hlen' (hbyte ▸ htag)]
        rfl
  · rw [decodeBody_of_badStride hstride, decodeBody_of_badStride (h.stride ▸ hstride)]
    rfl

/-- Units that end the same way lead an instruction to related states, or to the same failure. -/
theorem SameEnd.outcome {R : State → State → Prop} {x y : Res} (h : SameEnd R x y) (hs : x.outcome = .next s)
    (ht : y.outcome = .next t) : R s t ∨ ∃ e u v, s = takeError e u ∧ t = takeError e v := by
  rcases Res.outcome_eq_next.1 hs with rfl | ⟨e, u, rfl, rfl⟩ <;>
    rcases Res.outcome_eq_next.1 ht with rfl | ⟨f, v, rfl, rfl⟩ <;> simp only [SameEnd] at h
  · exact .inl h
  · subst h
    exact .inr ⟨e, u, v, rfl, rfl⟩

/-- Settles O43: the bodies of the two decodes end the same way. -/
theorem decodeIsAFunctionOfItsInputs : Obligations.DecodeIsAFunctionOfItsInputs := by
  intro s s' t t' hs hs' hm hm' hvcount hvstride hbuflen hin h h'
  rw [decode_of_startable hs] at h
  rw [decode_of_startable hs'] at h'
  have hinputs : SameInputs (beginBusy s) (beginBusy s') := ⟨hvcount, hvstride, hbuflen, hin⟩
  rcases (decodeBody_sameEnd hinputs hm hm').outcome h h' with ⟨hstatus, hout⟩ | ⟨e, u, v, rfl, rfl⟩
  · exact ⟨hstatus, fun _ => hout⟩
  · exact ⟨rfl, nofun⟩

end Sys2Proof.Machine
end

section
/-! SUPPORT. The two statements about START without operands and about failures, and what a step runs at each position
(R204, R231). -/

namespace Sys2Proof.Machine

/-- Settles O44: the three flags are what START looks at first. -/
theorem startBeforeOperandsIsRefused : Obligations.StartBeforeOperandsIsRefused := by
  intro s hb hunwritten
  refine decode_refused hb (if_pos ?_)
  rcases hunwritten with h | h | h <;> simp [h]

/-- Settles O47: of the three forms of the state after an instruction only the failure says ERROR where none was. -/
theorem everyFailureIsTheOneEntry : Obligations.EveryFailureIsTheOneEntry := by
  intro i s t h hs ht
  have hin := exec_keepsInputs h
  rcases exec_form h with hm | ⟨e, u, -, rfl⟩ | ⟨u, -, rfl⟩
  · exact absurd (hm.status ▸ ht) hs
  · exact ⟨rfl, rfl, rfl, hin.vcount, hin.vstride, hin.buflen, hin.inMem, hin.cmds⟩
  · cases ht

/-! ### What a step runs -/

/-- An instruction run at rest leaves the core at rest, so no loop goes on after it. -/
theorem resume_exec_at_rest {s : State} (hp : s.phase = .rest) (i : Instr) : resume (exec i s) = exec i s := by
  cases h : exec i s with
  | next t =>
    have ht : t.phase = .rest := by
      rcases exec_form h with hm | ⟨e, u, -, rfl⟩ | ⟨u, -, rfl⟩
      · exact hm.phase.trans hp
      · rfl
      · rfl
    exact resume_rest ht
  | fault x => rfl
  | refused x => rfl

/-- A unit whose bits stand at the position and decode is run, and its loop goes on. -/
theorem step_of_fetchUnit {s t : State} {r : Raw} {i : Instr} (hfetch : fetch s = fetchUnit r t)
    (hi : decode r = .ok i) : step s = resume (exec i t) :=
  step_of_run (hfetch.trans (by rw [fetchUnit, hi]))

/-- The only command a CTRL word stands for is DECODE, and its START bit is set (R24, R91). -/
theorem decode_ctrl {w : Word32} {i : Instr} (h : decode (.ctrl w) = .ok i) : w.getLsbD 0 = true ∧ i = .decode := by
  rw [decode] at h
  split_ifs at h with hw
  cases h
  exact ⟨hw, rfl⟩

/-- A group that is not opened to be taken code by code is run whole, by the instruction its selector names (R123). -/
theorem step_selector {s : State} {i : Instr} (hp : s.phase = .grDec) (hsel : s.selectorOffset < s.buflen)
    (hwhole : ¬ (s.grain = .lane ∧ isPacked s.selector = true)) (hi : decode (.selector s.selector) = .ok i) :
    step s = resume (exec i s) :=
  step_of_fetchUnit ((fetch_grDec hp).trans ((if_pos hsel).trans (if_neg hwhole))) hi

/-- A chain that is not opened to be taken value by value is run whole (R142). -/
theorem step_delta {s : State} (hp : s.phase = .delta) (hwhole : s.grain ≠ .lane) : step s = resume (exec .delta s) :=
  step_of_fetchUnit ((fetch_delta hp).trans (if_neg hwhole)) rfl

/-- Settles O54: at each position the bits that stand there are decoded, and the instruction is run. -/
theorem stepRunsTheDecodedInstruction : Obligations.StepRunsTheDecodedInstruction := by
  intro s
  refine ⟨fun w rest hp hc hgrain i hi => ?start, fun i hp hlen hi => ?tag, fun i hp hsel hwhole hi => ?selector,
    fun b t i hp hload hi => ?code, fun hp => step_of_run (fetch_block hp), fun hp => step_of_run (fetch_plane hp),
    step_delta, fun hp => step_of_run (fetch_unzigzag hp), fun hp => step_of_run (fetch_transpose hp),
    fun hp => step_of_run (fetch_commit hp)⟩
  case start =>
    obtain ⟨hw, rfl⟩ := decode_ctrl hi
    have hfetch := (fetch_command hp hc).trans ((fetchCommand_start hw _).trans (if_pos hgrain))
    exact (step_of_run hfetch).trans (resume_exec_at_rest (s := { s with cmds := rest }) hp .decode)
  case tag => exact step_of_fetchUnit ((fetch_vTag hp).trans (if_pos hlen)) hi
  case selector => exact step_selector hp hsel hwhole hi
  case code =>
    have hfetch : fetch s = fetchUnit (rawCode b (t.frontCode b)) (dropCode b t) := by
      rw [fetch_code hp, fetchCode, hload]
    exact step_of_fetchUnit hfetch hi

end Sys2Proof.Machine
end

section
/-! SUPPORT. Two memories in canonical form are equal where every byte is. -/

namespace Sys2Proof.Machine

/-- Two rising lists that give every offset the same byte are one list: their first offsets agree, and so on. -/
theorem cells_ext {l l' : List Host.Cell} (h : risingCells l = true) (h' : risingCells l' = true)
    (hfind : ∀ a, findCell l a = findCell l' a) : l = l' := by
  induction l generalizing l' with
  | nil =>
    cases l' with
    | nil => rfl
    | cons d r' => simpa [findCell] using hfind d.1
  | cons c r ih =>
    cases l' with
    | nil => simpa [findCell] using hfind c.1
    | cons d r' =>
      obtain ⟨a, x⟩ := c
      obtain ⟨b, y⟩ := d
      obtain ⟨hlt, hr⟩ := (risingCells_cons _ _).1 h
      obtain ⟨hlt', hr'⟩ := (risingCells_cons _ _).1 h'
      have hab : a = b := by
        rcases Nat.lt_trichotomy a b with hab | hab | hab
        · have hnone := findCell_eq_none_of_lt r' a fun d hd => hab.trans (hlt' d hd)
          simpa [findCell, hab.ne, hnone] using hfind a
        · exact hab
        · have hnone := findCell_eq_none_of_lt r b fun d hd => hab.trans (hlt d hd)
          simpa [findCell, hab.ne, hnone] using hfind b
      subst hab
      have hxy : x = y := by simpa [findCell] using hfind a
      subst hxy
      rw [ih hr hr' fun e => ?_]
      by_cases he : e = a
      · rw [he, findCell_eq_none_of_lt r a hlt, findCell_eq_none_of_lt r' a hlt']
      · simpa [findCell, he] using hfind e

/-- A byte that is found is listed. -/
theorem mem_of_findCell {l : List Host.Cell} {a : Nat} {x : Byte} (h : findCell l a = some x) : (a, x) ∈ l := by
  induction l with
  | nil => cases h
  | cons c r ih =>
    simp only [findCell] at h
    split_ifs at h with ha
    · cases h
      exact ha ▸ List.mem_cons_self
    · exact List.mem_cons_of_mem _ (ih h)

/-- In canonical form a listed byte is not what an unlisted one reads as, so what is read says what is listed. -/
theorem Memory.find_of_wf {m : Memory} (h : m.wf = true) (a : Nat) :
    m.find a = if m.byte a = 0#8 then none else some (m.byte a) := by
  simp only [Memory.wf, Bool.and_eq_true, List.all_eq_true] at h
  obtain ⟨-, hlisted⟩ := h
  unfold Memory.byte
  cases hfind : m.find a with
  | none => rfl
  | some x =>
    have hx : x ≠ 0#8 := by simpa using hlisted _ (mem_of_findCell hfind)
    exact (if_neg hx).symm

theorem Memory.ext_of_wf {m m' : Memory} (h : m.wf = true) (h' : m'.wf = true)
    (hbyte : ∀ a, m.byte a = m'.byte a) : m = m' := by
  have hcells : m.cells = m'.cells :=
    cells_ext (Memory.rising_of_wf h) (Memory.rising_of_wf h') fun a =>
      (find_of_wf h a).trans ((hbyte a) ▸ (find_of_wf h' a).symm)
  cases m
  exact congrArg Memory.mk hcells

end Sys2Proof.Machine
end

section
/-! SUPPORT. The state of a decode taken in steps against the state of the atomic decode (R231, D1): they differ in the
position and in the bit cursor, which the units of a decode do not look at. -/

namespace Sys2Proof.Machine

/-- The stepped decode `x` stands at a position, and is there what the atomic decode `y` is but for the bit cursor, which
a group taken whole does not move (log 16). -/
def StandsAt (ph : Phase) (x y : State) : Prop :=
  ∃ byte cursor bits, x = { y with phase := ph, inputByte := byte, codeCursor := cursor, bitsConsumed := bits }

theorem standsAt_goto (ph : Phase) (y : State) : StandsAt ph (y.goto ph) y := ⟨_, _, _, rfl⟩

theorem StandsAt.phase {ph : Phase} {x y : State} (h : StandsAt ph x y) : x.phase = ph := by
  obtain ⟨_, _, _, rfl⟩ := h
  rfl

/-- A move of the position alone. -/
theorem StandsAt.goto {ph ph' : Phase} {x y : State} (h : StandsAt ph x y) : StandsAt ph' (x.goto ph') y := by
  obtain ⟨_, _, _, rfl⟩ := h
  exact ⟨_, _, _, rfl⟩

/-- The unit's result does not depend on the position and the bit cursor, and it moves neither. -/
def IgnoresPosition (f : State → Res) : Prop :=
  ∀ ph x y, StandsAt ph x y → SameEnd (StandsAt ph) (f x) (f y)

theorem IgnoresPosition.bind {f g : State → Res} (hf : IgnoresPosition f) (hg : IgnoresPosition g) :
    IgnoresPosition fun s => (f s).bind g :=
  fun ph x y h => (hf ph x y h).bind fun u v _ _ huv => hg ph u v huv

theorem IgnoresPosition.loop {f : State → Res} (hf : IgnoresPosition f) (n : Nat) : IgnoresPosition (repeatUnit n f) :=
  fun ph _ _ h => SameEnd.loop (P := fun _ => StandsAt ph) n h fun _ _ x y => hf ph x y

/-- A move of the state that touches neither. -/
theorem ignoresPosition_ok {f : State → State} (hf : ∀ ph x y, StandsAt ph x y → StandsAt ph (f x) (f y)) :
    IgnoresPosition fun s => .ok (f s) := hf

/-- A test that both states answer alike. -/
theorem SameEnd.ite {R : State → State → Prop} {c d : Prop} [Decidable c] [Decidable d] {x x' y y' : Res}
    (hcd : c ↔ d) (hpos : SameEnd R x y) (hneg : SameEnd R x' y') :
    SameEnd R (if c then x else x') (if d then y else y') := by
  by_cases hc : c
  · rwa [if_pos hc, if_pos (hcd.1 hc)]
  · rwa [if_neg hc, if_neg fun hd => hc (hcd.2 hd)]

theorem groupUnit_ignoresPosition (w : BitVec 2) : IgnoresPosition (groupUnit w) := by
  rintro ph _ y ⟨byte, cursor, bits, rfl⟩
  have hgroup : StandsAt ph (afterDecodeGroup w
      { y with phase := ph, inputByte := byte, codeCursor := cursor, bitsConsumed := bits }) (afterDecodeGroup w y) :=
    ⟨_, _, _, rfl⟩
  exact SameEnd.ite Iff.rfl (SameEnd.ite Iff.rfl hgroup trivial) trivial

theorem groupTurn_ignoresPosition : IgnoresPosition groupTurn := by
  rintro ph _ y ⟨byte, cursor, bits, rfl⟩
  refine SameEnd.ite Iff.rfl (SameEnd.ite Iff.rfl (SameEnd.bind (groupUnit_ignoresPosition _ ph _ _ ⟨_, _, _, rfl⟩) ?_)
    trivial) rfl
  rintro _ u - - ⟨_, _, _, rfl⟩
  exact ⟨_, _, _, rfl⟩

theorem planeUnit_ignoresPosition : IgnoresPosition planeUnit := by
  rintro ph _ y ⟨byte, cursor, bits, rfl⟩
  exact groupTurn_ignoresPosition.loop (numGroups y.cnt) ph _ (openPlane y) ⟨_, _, _, rfl⟩

/-- The chain does not look at them either. -/
theorem StandsAt.chainLoop {ph : Phase} (n : Nat) {x y : State} (h : StandsAt ph x y) :
    StandsAt ph (chainLoop n x) (chainLoop n y) := by
  obtain ⟨byte, cursor, bits, rfl⟩ := h
  induction n generalizing y with
  | zero => exact ⟨_, _, _, rfl⟩
  | succ n ih => exact ih (y := chainTurn y)

theorem deltaUnit_ignoresPosition : IgnoresPosition deltaUnit := by
  rintro ph _ y ⟨byte, cursor, bits, rfl⟩
  have hchain := StandsAt.chainLoop y.cnt (x := openChain { y with
    phase := ph, inputByte := byte, codeCursor := cursor, bitsConsumed := bits }) (y := openChain y) ⟨_, _, _, rfl⟩
  exact SameEnd.ite Iff.rfl (SameEnd.ite Iff.rfl (SameEnd.ite Iff.rfl hchain trivial) trivial) trivial

theorem planeTurn_ignoresPosition : IgnoresPosition planeTurn := by
  refine planeUnit_ignoresPosition.bind (deltaUnit_ignoresPosition.bind (ignoresPosition_ok ?_))
  rintro ph _ y ⟨byte, cursor, bits, rfl⟩
  exact ⟨_, _, _, rfl⟩

theorem commitUnit_ignoresPosition : IgnoresPosition commitUnit := by
  rintro ph _ y ⟨byte, cursor, bits, rfl⟩
  exact SameEnd.ite Iff.rfl (SameEnd.ite Iff.rfl ⟨_, _, _, rfl⟩ trivial) trivial

theorem carryUnit_ignoresPosition : IgnoresPosition carryUnit := by
  rintro ph _ y ⟨byte, cursor, bits, rfl⟩
  exact SameEnd.ite Iff.rfl ⟨_, _, _, rfl⟩ trivial

end Sys2Proof.Machine
end

section
/-! SUPPORT. A decode taken in steps reaches what the atomic decode returns, and fails where it raises (R231, D1, D20):
group by group, plane by plane and block by block, at every grain. -/

namespace Sys2Proof.Machine

variable {s t x y : State}

/-! ### Where the next unit stands -/

/-- Where the stepped decode stands between two groups of a plane (R231). -/
def groupPosition (s : State) : Phase := if s.g < numGroups s.cnt then .grChk else .delta

/-- Where the stepped decode stands between two planes of a block (R231). -/
def planePosition (s : State) : Phase := if s.k < s.stride then planeStart s.grain else .commit

theorem StandsAt.inDecode {ph : Phase} (h : StandsAt ph x y) (hy : InDecode y) : InDecode x := by
  obtain ⟨_, _, _, rfl⟩ := h
  exact hy

/-- A unit that returns on the one side returns on the other, in a related state. -/
theorem SameEnd.of_ok {R : State → State → Prop} {r : Res} (h : SameEnd R r (.ok t)) : ∃ u, r = .ok u ∧ R u t := by
  cases r <;> simp only [SameEnd] at h
  exact ⟨_, rfl, h⟩

/-- A step that takes the failure that the unit raises (R198). -/
theorem Follows.of_failure {R : State → State → Prop} {e : ErrorKind} {z : State}
    (h : step x = .next (takeError e z)) : Follows R x (.raised e y) :=
  ⟨_, Reaches.one h, rfl, rfl, rfl⟩

/-- A run of steps keeps the invariant. -/
theorem runSteps_inv {n : Nat} (h : s.Inv = true) (hrun : runSteps n s = .next t) : t.Inv = true := by
  induction n generalizing s with
  | zero => cases hrun; exact h
  | succ n ih =>
    rw [runSteps] at hrun
    cases hs : step s with
    | next u => rw [hs] at hrun; exact ih (everyStepKeepsTheInvariant s u h hs) hrun
    | fault _ => rw [hs] at hrun; cases hrun
    | refused _ => rw [hs] at hrun; cases hrun

/-! ### A group -/

/-- The group at the cursor taken whole, and counted (R125). -/
def groupDone (s : State) : State := { afterDecodeGroup s.selector s with g := s.g + 1 }

/-- A packed group taken code by code ends as the group taken whole: its cells hold the same bytes, and both arrays are in
canonical form. Only the bit cursor stands elsewhere. -/
theorem reaches_group_by_codes (hs : InDecode s) (hp : s.phase = .grDec) (hgrain : s.grain = .lane)
    (hw : isPacked s.selector = true) (hsel : s.selectorOffset < s.buflen) (hmargin : s.pos + 32 ≤ s.buflen)
    (hcells : 16 * s.g + 16 ≤ 256) :
    ∃ u, Reaches s u ∧ StandsAt (groupPosition (groupDone s)) u (groupDone s) := by
  obtain ⟨hm, -⟩ := id hs
  obtain ⟨u, hu, hrun⟩ := runSteps_group (selectorWidth s.selector) hm hmargin hcells
  have hopened : InDecode (openCodes (selectorWidth s.selector) s) := hs
  have hend := runSteps_inv (hopened.inv nofun) hrun
  rw [afterGroup_eq] at hend hrun
  have hplane : u.plane = (afterDecodeGroup s.selector s).plane :=
    Memory.ext_of_wf (plane_wf ((inv_iff _).1 hend).1)
      (plane_wf ((afterDecodeGroup_moves _ s hcells).memoriesOk hm)) fun a =>
        (hu.lanes a).trans (afterDecodeGroup_holdsLanes hm hw a).symm
  refine ⟨_, (Reaches.one (step_openCodes hp hgrain hw hsel)).trans ⟨16, hrun⟩,
    u.inputByte, u.codeCursor, u.bitsConsumed, ?_⟩
  rw [groupDone, afterDecodeGroup_packed s hw, ← hplane, ← hu.ov]
  obtain ⟨_, _, _, _, _, _, rfl⟩ := hu.moves
  rfl

/-- A group at its position, with its margin and its cells, ends before the next group at every grain (R231). -/
theorem reaches_group (hs : InDecode s) (hp : s.phase = .grDec) (hsel : s.selectorOffset < s.buflen)
    (hmargin : s.pos + 32 ≤ s.buflen) (hcells : 16 * s.g + 16 ≤ 256) :
    ∃ u, Reaches s u ∧ StandsAt (groupPosition (groupDone s)) u (groupDone s) := by
  by_cases hlane : s.grain = .lane ∧ isPacked s.selector = true
  · obtain ⟨hgrain, hw⟩ := hlane
    exact reaches_group_by_codes hs hp hgrain hw hsel hmargin hcells
  · obtain ⟨i, hi, hexec⟩ := exec_selector s.selector
    refine ⟨_, Reaches.one ?_, standsAt_goto _ _⟩
    rw [step_selector hp hsel hlane hi, hexec, groupUnit_returns _ hmargin hcells, Res.outcome_ok]
    refine (resume_inside ((afterDecodeGroup_phase ..).trans hp) nofun).trans ?_
    exact congrArg Host.Outcome.next (afterGroup_eq _)

/-- The margin test and the group are a turn of the group loop (R124, R231). -/
theorem groupTurn_follows (h : StandsAt .grChk x y) (hy : InDecode y) :
    Follows (fun u v => StandsAt (groupPosition v) u v) x (groupTurn y) := by
  have hx := h.inDecode hy
  have hstep := step_of_moved (fetch_grChk h.phase)
  obtain ⟨byte, cursor, bits, rfl⟩ := h
  cases hturn : groupTurn y with
  | ok t =>
    obtain ⟨hmargin, hsel, hcells, _, hunit, rfl⟩ := groupTurn_eq_ok.1 hturn
    obtain ⟨-, -, rfl⟩ := groupUnit_eq_ok.1 hunit
    obtain ⟨u, hreach, _, _, _, rfl⟩ := reaches_group (s := { y with
      phase := .grDec, inputByte := byte, codeCursor := cursor, bitsConsumed := bits }) hx rfl hsel hmargin hcells
    have hmarginStep := hstep.trans (if_pos ((marginHolds_iff _).2 hmargin))
    exact ⟨_, (Reaches.one hmarginStep).trans hreach, _, _, _, rfl⟩
  | raised e t =>
    obtain ⟨hmargin, rfl, -⟩ := groupTurn_eq_raised.1 hturn
    exact Follows.of_failure (hstep.trans (if_neg (mt (marginHolds_iff _).1 hmargin)))
  | fault _ | refused _ => trivial

theorem groupTurn_g (h : groupTurn s = .ok t) : t.g = s.g + 1 := by
  obtain ⟨-, -, -, _, hunit, rfl⟩ := groupTurn_eq_ok.1 h
  obtain ⟨-, -, rfl⟩ := groupUnit_eq_ok.1 hunit
  rfl

/-! ### A plane -/

/-- Between two groups of a plane opened at `y`: group `m` is next (R125, R231). -/
structure BetweenGroups (y : State) (m : Nat) (u v : State) : Prop where
  standsAt : StandsAt (groupPosition v) u v
  moves : PlaneMoves y v
  g : v.g = m

theorem BetweenGroups.position {m : Nat} {u v : State} (h : BetweenGroups y m u v) :
    groupPosition v = if m < numGroups y.cnt then .grChk else .delta := by
  obtain ⟨hcnt, -⟩ := h.moves.blockMoves.keeps
  rw [groupPosition, h.g, hcnt]

theorem BetweenGroups.turn {m : Nat} {u v : State} (h : BetweenGroups y m u v) (hy : InDecode y)
    (hm : m < numGroups y.cnt) : Follows (BetweenGroups y (m + 1)) u (groupTurn v) := by
  have hat := h.position.trans (if_pos hm) ▸ h.standsAt
  refine (groupTurn_follows hat (hy.moves h.moves.decodeMoves)).mono fun u' v' hok hat' => ?_
  exact ⟨hat', h.moves.trans ((groupTurn_holds v).of_ok hok), (groupTurn_g hok).trans (congrArg (· + 1) h.g)⟩

/-- A plane taken group by group, by induction over its groups. -/
theorem groupLoop_follows (h : StandsAt .grChk x (openPlane y)) (hy : InDecode y) (hcnt : 1 ≤ y.cnt) :
    Follows (StandsAt .delta) x (planeUnit y) := by
  have hgroups : 0 < numGroups y.cnt := by
    rw [numGroups_eq]
    omega
  have hat : groupPosition (openPlane y) = .grChk := if_pos hgroups
  have hloop := Follows.loop (P := BetweenGroups y) (f := groupTurn) (numGroups y.cnt)
    ⟨hat ▸ h, openPlane_moves y, rfl⟩ fun m hm u v huv => huv.turn hy hm
  exact hloop.mono fun u v _ huv => huv.position.trans (if_neg (Nat.lt_irrefl _)) ▸ huv.standsAt

/-- PLANE, whole or group by group, ends before its chain (R120, R231). -/
theorem planeUnit_follows (h : StandsAt (planeStart y.grain) x y) (hy : InDecode y) (hcnt : 1 ≤ y.cnt) :
    Follows (StandsAt .delta) x (planeUnit y) := by
  by_cases hgrain : y.grain = .plane
  · rw [planeStart, if_pos hgrain] at h
    refine Follows.of_unit (planeUnit_ignoresPosition _ _ _ h) (step_of_run (fetch_plane h.phase)) ?_
    exact fun u v _ _ huv => ⟨_, resume_inside huv.phase nofun, huv.goto.goto⟩
  · rw [planeStart, if_neg hgrain] at h
    refine Follows.reach (Reaches.one (step_of_moved (fetch_plHdr h.phase))) (groupLoop_follows ?_ hy hcnt)
    obtain ⟨_, _, _, rfl⟩ := h
    exact ⟨_, _, _, rfl⟩

/-! ### A chain -/

/-- A chain that DELTA takes whole, taken value by value. -/
theorem reaches_chain_by_values (hp : s.phase = .delta) (hgrain : s.grain = .lane) (h : deltaUnit s = .ok t) :
    Reaches s (afterChain t) := by
  obtain ⟨hk, hcnt, hcells, rfl⟩ := deltaUnit_eq_ok.1 h
  rcases Nat.eq_zero_or_pos s.cnt with h0 | h1
  · refine Reaches.one (step_of_moved ((fetch_delta hp).trans ?_))
    rw [fetchChain, if_pos hgrain, if_pos hk, if_neg (by omega), h0]
    rfl
  · obtain ⟨n, hn⟩ : ∃ n, s.cnt = n + 1 := ⟨_, (Nat.sub_add_cancel h1).symm⟩
    have hvalues := runSteps_values (n := n) (s := openChain s) (by simp [hn]) hcnt (hcells.resolve_left (by omega))
    rw [hn]
    exact (Reaches.one (step_openChain hp hgrain hk h1)).trans ⟨_, hvalues⟩

/-- A chain that DELTA takes whole ends before the next plane at every grain (R142, R231). -/
theorem reaches_chain (hp : s.phase = .delta) (h : deltaUnit s = .ok t) : Reaches s (afterChain t) := by
  by_cases hgrain : s.grain = .lane
  · exact reaches_chain_by_values hp hgrain h
  · have hphase := ((deltaUnit_moves s).of_ok h).decodeMoves.phase
    have hexec : exec .delta s = .next t := congrArg Res.outcome h
    refine Reaches.one ?_
    rw [step_delta hp hgrain, hexec, resume_next (by rw [hphase, hp]; nofun), advance, hphase, hp]

/-- The chain and the next plane (R153). -/
theorem chain_follows (h : StandsAt .delta x y) :
    Follows (fun u v => StandsAt (planePosition v) u v) x ((deltaUnit y).bind fun u => .ok { u with k := u.k + 1 }) := by
  have hsame := deltaUnit_ignoresPosition _ _ _ h
  cases hy : deltaUnit y with
  | ok t =>
    obtain ⟨u, hu, hut⟩ := (hy ▸ hsame).of_ok
    refine ⟨_, reaches_chain h.phase hu, ?_⟩
    rw [afterChain_eq]
    obtain ⟨_, _, _, rfl⟩ := hut
    exact ⟨_, _, _, rfl⟩
  | raised e t => exact absurd hy deltaUnit_not_raised
  | fault _ | refused _ => trivial

/-! ### A block -/

/-- Between two planes of a block opened at `y`: plane `k` is next (R153, R231). -/
structure BetweenPlanes (y : State) (k : Nat) (u v : State) : Prop where
  standsAt : StandsAt (planePosition v) u v
  moves : BlockMoves y v
  k : v.k = k

theorem BetweenPlanes.position {k : Nat} {u v : State} (h : BetweenPlanes y k u v) :
    planePosition v = if k < y.stride then planeStart v.grain else .commit := by
  rw [planePosition, h.k, h.moves.decodeMoves.keepsInputs.stride]

theorem BetweenPlanes.turn {k : Nat} {u v : State} (h : BetweenPlanes y k u v) (hy : InDecode y) (hcnt : 1 ≤ y.cnt)
    (hk : k < y.stride) : Follows (BetweenPlanes y (k + 1)) u (planeTurn v) := by
  obtain ⟨hvcnt, -⟩ := h.moves.keeps
  have hat := h.position.trans (if_pos hk) ▸ h.standsAt
  have hplane := planeUnit_follows hat (hy.moves h.moves.decodeMoves) (hvcnt ▸ hcnt)
  have hturn : Follows (fun u' v' => StandsAt (planePosition v') u' v') u (planeTurn v) :=
    hplane.bind fun _ _ _ => chain_follows
  refine hturn.mono fun u' v' hok hat' => ⟨hat', h.moves.trans ((planeTurn_moves v).of_ok hok), ?_⟩
  obtain ⟨_, _, -, -, rfl⟩ := planeTurn_exec hok
  exact congrArg (· + 1) h.k

/-- The planes of a block, by induction over the planes (R153). -/
theorem planeLoop_follows (h : StandsAt (planeStart y.grain) x y) (hy : InDecode y) (hcnt : 1 ≤ y.cnt)
    (hk : y.k = 0) (hS : 1 ≤ y.stride) :
    Follows (fun u v => StandsAt .commit u v ∧ BlockMoves y v) x (repeatUnit y.stride planeTurn y) := by
  have hat : planePosition y = planeStart y.grain := if_pos (by omega)
  have hloop := Follows.loop (P := BetweenPlanes y) (f := planeTurn) y.stride ⟨hat ▸ h, BlockMoves.refl y, hk⟩
    fun k hk u v huv => huv.turn hy hcnt hk
  exact hloop.mono fun u v _ huv => ⟨huv.position.trans (if_neg (Nat.lt_irrefl _)) ▸ huv.standsAt, huv.moves⟩

/-- COMMIT, the carry update and the next block (R155, R156, R178). -/
theorem commit_follows (h : StandsAt .commit x y) (hS : y.stride ≤ 256) :
    Follows (fun u v => StandsAt .blk u (advanceVoff v)) x ((commitUnit y).bind carryUnit) := by
  have hsame := commitUnit_ignoresPosition _ _ _ h
  rw [commitUnit_carryUnit hS]
  cases hy : commitUnit y with
  | ok t =>
    obtain ⟨u, hu, hut⟩ := (hy ▸ hsame).of_ok
    obtain ⟨-, -, rfl⟩ := commitUnit_eq_ok.1 hy
    have hexec : exec .commit x = .next u := congrArg Res.outcome hu
    have huS : u.stride ≤ 256 := by
      obtain ⟨_, _, _, rfl⟩ := hut
      exact hS
    have hstep := (step_of_run (fetch_commit h.phase)).trans ((congrArg resume hexec).trans (resume_commit hut.phase huS))
    refine ⟨_, Reaches.one hstep, ?_⟩
    obtain ⟨_, _, _, rfl⟩ := hut
    exact ⟨_, _, _, rfl⟩
  | raised e t => exact absurd hy commitUnit_not_raised
  | fault _ | refused _ => trivial

/-- The next block opened: its count, and its first plane (R178). -/
def openBlock (s : State) : State := { s with cnt := s.nextCount, k := 0 }

/-- A block past its checks (R153, R155, R156). -/
def blockBody (s : State) : Res :=
  (repeatUnit s.stride planeTurn s).bind fun t => (commitUnit t).bind carryUnit

theorem blockBody_ignoresPosition : IgnoresPosition blockBody := by
  rintro ph _ y ⟨byte, cursor, bits, rfl⟩
  exact (planeTurn_ignoresPosition.loop y.stride).bind (commitUnit_ignoresPosition.bind carryUnit_ignoresPosition)
    ph _ y ⟨_, _, _, rfl⟩

/-- The next block of a decode with vertices left has vertices and fits its arrays (R176, R178). -/
theorem nextCount_fits (hr : BlockReady s) (hv : s.voff < s.count) :
    1 ≤ s.nextCount ∧ ¬ (s.nextCount = 0 ∨ s.nextCount > 256) ∧ ¬ s.nextCount * s.stride > 8192 := by
  obtain ⟨hS1, hS2, hsize⟩ := hr
  obtain ⟨hb1, hb2, hb3⟩ := blockSizeOf_fits hS1 hS2
  have hle : s.nextCount ≤ blockSizeOf s.stride := hsize ▸ Nat.min_le_left _ _
  have hpos : 1 ≤ s.nextCount := Nat.le_min.2 ⟨hsize ▸ hb1, by omega⟩
  exact ⟨hpos, by omega, Nat.not_lt.2 ((Nat.mul_le_mul_right _ hle).trans hb3)⟩

/-- With vertices left the next block passes its checks (R151, R159). -/
theorem blockTurn_of_verticesLeft (hr : BlockReady s) (hv : s.voff < s.count) :
    blockTurn s = (blockBody (openBlock s)).bind fun t => .ok (advanceVoff t) := by
  obtain ⟨-, hcount, hcells⟩ := nextCount_fits hr hv
  rw [blockTurn, blockUnit_of_fits hcount hcells]
  rfl

/-- An opened block at its position, whole or in steps, ends before the next one (R231). -/
theorem blockBody_follows (h : StandsAt (blockStart y.grain) x (openBlock y)) (hy : InDecode y) (hr : BlockReady y)
    (hv : y.voff < y.count) :
    Follows (fun u v => StandsAt .blk u (advanceVoff v)) x (blockBody (openBlock y)) := by
  obtain ⟨hcnt, hcount, hcells⟩ := nextCount_fits hr hv
  by_cases hwhole : y.grain = .whole ∨ y.grain = .block
  · rw [blockStart, if_pos hwhole] at h
    have hunit : blockUnit x = blockBody x := by
      obtain ⟨_, _, _, rfl⟩ := h
      exact blockUnit_of_fits hcount hcells
    refine Follows.of_unit (blockBody_ignoresPosition _ _ _ h)
      ((step_of_run (fetch_block h.phase)).trans (congrArg (fun r => resume (Res.outcome r)) hunit)) ?_
    refine fun u v _ _ huv => ⟨_, resume_inside huv.phase nofun, ?_⟩
    obtain ⟨_, _, _, rfl⟩ := huv
    exact ⟨_, _, _, rfl⟩
  · rw [blockStart, if_neg hwhole] at h
    obtain ⟨hS1, hS2, -⟩ := hr
    refine (planeLoop_follows (y := openBlock y) h hy hcnt rfl hS1).bind fun u v _ ⟨huv, hmv⟩ => commit_follows huv ?_
    exact hmv.decodeMoves.keepsInputs.stride.trans_le hS2

/-- A turn of the block loop with vertices left (R178, R231). -/
theorem blockTurn_follows (h : StandsAt .blk x y) (hy : InDecode y) (hr : BlockReady y) (hv : y.voff < y.count) :
    Follows (StandsAt .blk) x (blockTurn y) := by
  have hstep := step_of_moved (fetch_blk h.phase)
  rw [blockTurn_of_verticesLeft hr hv]
  obtain ⟨_, _, _, rfl⟩ := h
  rw [blkMove, if_pos (by exact hv)] at hstep
  refine Follows.reach (Reaches.one hstep) ?_
  exact (blockBody_follows ⟨_, _, _, rfl⟩ hy hr hv).bind fun u v _ huv => ⟨u, Reaches.refl u, huv⟩

/-! ### A decode -/

/-- Between two blocks of a decode seeded at `y`: the vertices of the blocks before block `b` are produced (R178,
R231). -/
structure BetweenBlocks (y : State) (b : Nat) (u v : State) : Prop where
  standsAt : StandsAt .blk u v
  moves : DecodeMoves y v
  blockSize : v.blockSize = y.blockSize
  voff : v.voff = min (b * y.blockSize) y.count

theorem BetweenBlocks.turn {b : Nat} {u v : State} (h : BetweenBlocks y b u v) (hy : InDecode y) (hr : BlockReady y)
    (hb : b * y.blockSize < y.count) : Follows (BetweenBlocks y (b + 1)) u (blockTurn v) := by
  obtain ⟨huv, hmv, hsize, hvoff⟩ := h
  have hcount := hmv.keepsInputs.count
  have hleft : v.voff < v.count := by omega
  have hready : BlockReady v := by
    rw [BlockReady, hmv.keepsInputs.stride, hsize]
    exact hr
  refine (blockTurn_follows huv (hy.moves hmv) hready hleft).mono fun u' v' hok huv' => ?_
  rcases blockTurn_cases hready hleft with ⟨-, w, hw, -, -, -, hmv', hvoff', hsize', -⟩ | ⟨w, hw, -⟩
  · obtain rfl := Res.ok.inj (hw.symm.trans hok)
    refine ⟨huv', hmv.trans hmv', hsize'.trans hsize, ?_⟩
    rw [hvoff', State.nextCount, hsize, hcount, Nat.succ_mul]
    omega
  · exact absurd (hw.symm.trans hok) nofun

/-- The blocks of a decode, by induction over the blocks (R178, R185). -/
theorem blockLoop_follows (h : StandsAt .blk x y) (hy : InDecode y) (hr : BlockReady y) (hv : y.voff = 0) :
    Follows (fun u v => StandsAt .blk u v ∧ v.voff = v.count) x (blockLoop y) := by
  have hsize : 1 ≤ y.blockSize := by
    obtain ⟨hS1, hS2, hsize⟩ := hr
    exact hsize ▸ (blockSizeOf_fits hS1 hS2).1
  have hloop := Follows.loop (P := BetweenBlocks y) (f := blockTurn) (numBlocks y.count y.blockSize)
    ⟨h, DecodeMoves.refl y, rfl, by simp [hv]⟩ fun b hb u v huv => huv.turn hy hr ((lt_numBlocks_iff hsize).1 hb)
  refine hloop.mono fun u v _ huv => ⟨huv.standsAt, ?_⟩
  have hall := mt (lt_numBlocks_iff hsize).2 (Nat.lt_irrefl (numBlocks y.count y.blockSize))
  rw [huv.voff, huv.moves.keepsInputs.count]
  omega

/-- With all vertices produced the stepped decode ends DONE (R180, R181). -/
theorem step_finishDone (h : StandsAt .blk x y) (hv : y.voff = y.count) : step x = .next (finishDone x) := by
  rw [step_of_moved (fetch_blk h.phase), blkMove, if_neg]
  obtain ⟨_, _, _, rfl⟩ := h
  exact hv.not_lt

/-- The tag that is right is consumed (R173, R231). -/
theorem step_tag (hp : s.phase = .vTag) (hlen : 0 < s.buflen) (htag : s.inByte 0 = Config.tag) :
    step s = .next (State.goto { s with pos := 1 } .seed) := by
  have hexec : exec .frameTag s = .next { s with pos := 1 } :=
    congrArg Res.outcome ((tagUnit_eq s hlen).trans (if_pos htag))
  rw [step_of_fetchUnit ((fetch_vTag hp).trans (if_pos hlen)) (if_pos htag), hexec]
  exact resume_inside (t := { s with pos := 1 }) hp nofun

/-- The tag that is wrong fails the decode (R84, R173). -/
theorem step_wrongTag (hp : s.phase = .vTag) (hlen : 0 < s.buflen) (htag : s.inByte 0 ≠ Config.tag) :
    step s = .next (takeError .format s) := by
  have hbad : decode (.tag (s.inByte 0)) = .error (.badTag (s.inByte 0)) := if_neg htag
  refine step_of_moved ((fetch_vTag hp).trans ((if_pos hlen).trans ?_))
  rw [fetchUnit, hbad]

/-- The seeding leads to the block loop (R174 to R176, R231). -/
theorem step_seed (hp : s.phase = .seed) (hS : s.stride ≤ 256) (hlen : 1 + s.stride ≤ s.buflen) :
    step s = .next ((seeded s).goto .blk) := by
  rw [step_of_moved (fetch_seed hp), seedUnit_returns hS (by omega)]
  rfl

/-- The block loop of a decode past its checks, to its end (R170, R180). -/
theorem decodeBody_follows_of_frameOk (hy : InDecode y) (hframe : y.frameOk = true) :
    Follows (StandsAt .rest) ((seeded y).goto .blk) (decodeBody y) := by
  obtain ⟨hstride, -, -⟩ := (frameOk_iff y).1 hframe
  obtain ⟨-, hS, -⟩ := (strideOk_iff _).1 hstride
  have hloop := blockLoop_follows (standsAt_goto .blk _) (hy.moves (seeded_moves hS)) (seeded_ready hstride) rfl
  rw [decodeBody_of_frameOk hframe]
  refine hloop.bind fun u v _ ⟨huv, hvoff⟩ => ⟨_, Reaches.one (step_finishDone huv hvoff), ?_⟩
  obtain ⟨_, _, _, rfl⟩ := huv
  exact ⟨_, _, _, rfl⟩

/-- The stepped decode from its first state: the checks in their order, the seeding and the block loop (R197, R231). -/
theorem decodeBody_follows (hy : InDecode y) : Follows (StandsAt .rest) (y.goto .vStride) (decodeBody y) := by
  have hvStride := step_of_moved (fetch_vStride (s := y.goto .vStride) rfl)
  have hvLen := step_of_moved (fetch_vLen (s := y.goto .vLen) rfl)
  by_cases hstride : strideOk y.stride = true
  case neg =>
    rw [decodeBody_of_badStride hstride]
    exact Follows.of_failure (hvStride.trans (if_neg hstride))
  refine Follows.reach (Reaches.one (hvStride.trans (if_pos hstride))) ?_
  by_cases hlen : 1 + y.stride ≤ y.buflen
  case neg =>
    rw [decodeBody_of_shortBuffer hstride (Nat.not_le.1 hlen)]
    exact Follows.of_failure (hvLen.trans (if_neg hlen))
  refine Follows.reach (Reaches.one (hvLen.trans (if_pos hlen))) ?_
  have hpos : 0 < (y.goto .vTag).buflen := by
    rw [goto_buflen]
    omega
  by_cases htag : y.inByte 0 = Config.tag
  case neg =>
    rw [decodeBody_of_wrongTag hstride hlen htag]
    exact Follows.of_failure (step_wrongTag (s := y.goto .vTag) rfl hpos htag)
  obtain ⟨-, hS, -⟩ := (strideOk_iff _).1 hstride
  refine Follows.reach (Reaches.one (step_tag (s := y.goto .vTag) rfl hpos htag)) ?_
  refine Follows.reach (Reaches.one (step_seed (s := { y with pos := 1, phase := .seed }) rfl hS hlen)) ?_
  exact decodeBody_follows_of_frameOk hy ((frameOk_iff y).2 ⟨hstride, hlen, htag⟩)

/-- START at a finer grain, from a start the host may give, begins the sequence (R204, R231). -/
theorem step_start {w : Word32} {rest : List HostCmd} (hs : s.startable = true) (hp : s.phase = .rest)
    (hgrain : s.grain ≠ .whole) (hc : s.cmds = .writeCtrl w :: rest) (hw : w.getLsbD 0 = true) :
    step s = .next ((beginBusy { s with cmds := rest }).goto .vStride) := by
  have hb : s.status.state ≠ .busy := by
    simp only [State.startable, Bool.and_eq_true, decide_eq_true_eq] at hs
    obtain ⟨⟨⟨⟨⟨hb, -⟩, -⟩, -⟩, -⟩, -⟩ := hs
    exact hb
  have hnone : startRefusal { s with cmds := rest } = none := startRefusal_eq_none hs
  rw [step_of_moved ((fetch_command hp hc).trans ((fetchCommand_start hw _).trans (if_neg hgrain))), beginSteps,
    if_neg hb, hnone]

/-- Settles O60: the stepped decode follows the body of the atomic one, which returns or raises. -/
theorem steppedDecodeEndsAsTheAtomicOne : Obligations.SteppedDecodeEndsAsTheAtomicOne := by
  intro s w hs hinv hp hgrain hc hw
  have hstart := Reaches.one (step_start hs hp hgrain hc hw)
  have hdecode : exec .decode { s with cmds := [] } = (decodeBody (beginBusy { s with cmds := [] })).outcome :=
    decode_of_startable hs
  have hfollows := (decodeBody_follows (beginBusy_inDecode (s := { s with cmds := [] }) hinv)).reach hstart
  rcases decodeBody_moves (beginBusy { s with cmds := [] }) with ⟨u, hu, -⟩ | ⟨e, u, hu, -⟩
  · rw [hu] at hfollows hdecode
    obtain ⟨_, ⟨n, hn⟩, _, _, _, rfl⟩ := hfollows
    exact ⟨n, _, _, (core_run n s).trans hn, rfl, hdecode, rfl, rfl⟩
  · rw [hu] at hfollows hdecode
    obtain ⟨t, ⟨n, hn⟩, hrest, hstatus, hout⟩ := hfollows
    exact ⟨n, t, _, (core_run n s).trans hn, hrest, hdecode, hstatus, hout⟩

end Sys2Proof.Machine
end
